-- ==== Sys2Proof/Word.lean ====
section
/-! DEFINITION. The word types of HUFF-CORE (spec 00_scope.md R5, R7, R8). -/

namespace Sys2Proof

/-- A 32-bit word: every CSR and the command word (R5 row WORD). -/
abbrev Word := BitVec 32

/-- A byte of IBUF or OBUF, and a symbol of the alphabet (R5 row ALPHABET). -/
abbrev Byte := BitVec 8

/-- A bit sequence, first bit first (R8). `true` is the bit 1 ("right"), `false` the bit 0 ("left"). -/
abbrev Bits := List Bool

/-- A node index: 9 bits (R5 row NODE_CAP). -/
abbrev NodeIdx := BitVec 9

/-- NIL = 0x1FF, the index of no node (R5 row NODE_CAP, R36). -/
abbrev nilIdx : NodeIdx := 0x1FF#9

end Sys2Proof
end

