-- ==== Sys2Proof/Config.lean ====
section
/-! DEFINITION. What an instance of HUFF-CORE fixes (spec 00_scope.md R5, R6), and the free values of the model:
opaque constants that nothing can evaluate, each applied to the number of the draw (log 6). -/

namespace Sys2Proof.Config

/-- The open parameters of R6, with their constraint 1 ≤ size ≤ 2^31 carried along. -/
structure Params where
  /-- IBUF_SIZE: bytes in the input buffer. -/
  ibufSize : Nat
  /-- OBUF_SIZE: bytes in the output buffer. -/
  obufSize : Nat
  ibuf_pos : 1 ≤ ibufSize
  ibuf_le : ibufSize ≤ 2 ^ 31
  obuf_pos : 1 ≤ obufSize
  obuf_le : obufSize ≤ 2 ^ 31
deriving DecidableEq, Repr

/-- The largest total COUNT accepts: MAX_TOTAL = 2^32 − 1 (R5). -/
def maxTotal : Nat := 0xFFFF_FFFF

/-- The bound of the tree walk: GEN makes at most 511 (R133), one for each slot of the arena. -/
def maxVisits : Nat := 511

/-- The ID constant, ASCII "HUFF" (R1, R22). -/
def idValue : Word := 0x4855_4646#32

/-- The error codes of R115, under their names. -/
inductive ErrorCode where
  | illegalCmd | range | countOverflow | noTree | noTable
  | tableMiss | obufOverflow | inExhausted
  | fmtTruncated | fmtCount | fmtDupSymbol | fmtZeroLen | fmtNotPrefixFree | fmtEmptyTable
  | payTruncated | payBadCode
deriving DecidableEq, Repr

/-- The registers of 32 bits or fewer that can hold a free value: R117's list after an execution error, and those that
only SRESET among the commands writes after a race with it (R58, R71). -/
inductive FreeReg where
  | htotal | origLen | nodeCount | root | symcount | result | optr | acc | accN | iptr | iend | ibit
  | errcode | errInfo | srcAddr | srcLen | dstAddr | arg | idx
deriving DecidableEq, Repr

/-- The flags that can hold a free value (R117, R58), and `resetDone`: whether an abandoned SRESET had applied its reset
(R132, log 10). -/
inductive FreeFlag where
  | treeValid | tableValid | ie | err | ovr | resetDone
deriving DecidableEq, Repr

/-- Free value of a register, at draw `d`. -/
opaque freeReg : (d : Nat) → FreeReg → Word
/-- Free value of a flag, at draw `d`. -/
opaque freeFlag : (d : Nat) → FreeFlag → Bool
/-- Free value of HIST[b] at draw `d` (R117). -/
opaque freeHist : (d : Nat) → (b : Nat) → Word
/-- Free kind of NODE[i] at draw `d` (R117, R137): `true` for a LEAF. -/
opaque freeNodeIsLeaf : (d : Nat) → (i : Nat) → Bool
/-- Free NODE[i].sym at draw `d`. -/
opaque freeNodeSym : (d : Nat) → (i : Nat) → Byte
/-- Free NODE[i].freq at draw `d`. -/
opaque freeNodeFreq : (d : Nat) → (i : Nat) → Word
/-- Free NODE[i].left at draw `d`. -/
opaque freeNodeLeft : (d : Nat) → (i : Nat) → NodeIdx
/-- Free NODE[i].right at draw `d`. -/
opaque freeNodeRight : (d : Nat) → (i : Nat) → NodeIdx
/-- Free CTAB[b].valid at draw `d` (R117). -/
opaque freeCodeValid : (d : Nat) → (b : Nat) → Bool
/-- Free CTAB[b].code at draw `d` (R117); the entry keeps its first 255 bits (R46). -/
opaque freeCode : (d : Nat) → (b : Nat) → Bits
/-- The byte at address `a` of IBUF that nothing has written since draw `d` (R135). -/
opaque freeIbuf : (d : Nat) → (a : Nat) → Byte
/-- The byte at address `a` of OBUF that nothing has written since draw `d` (R117, R132, R135). -/
opaque freeObuf : (d : Nat) → (a : Nat) → Byte
/-- What a host read of a block-written CSR returns while BUSY, at draw `d` (R49). -/
opaque freeRead : (d : Nat) → Word
/-- What a racing host read of a buffer returns, at draw `d` (R58). -/
opaque freeByteRead : (d : Nat) → Byte
/-- Whether a raced command reports an execution error, at draw `d` (R58): the error and its ERR_INFO, or none. -/
opaque freeVerdict : (d : Nat) → Option (ErrorCode × Word)

end Sys2Proof.Config
end

