-- ==== Sys2Proof/Machine/State.lean ====
section
/-! DEFINITION. The state of HUFF-CORE as plain data (spec 10_state.md), its faults and refusals, and reset. -/

namespace Sys2Proof.Machine

open Sys2Proof Config

/-- The kind of a node: 1 bit (R44). -/
inductive NodeKind where
  | leaf
  | internal
deriving DecidableEq, Repr

/-- One slot of the NODE arena (R44). -/
structure Node where
  kind : NodeKind
  /-- The byte of a LEAF; 0 in an INTERNAL slot. -/
  sym : Byte
  freq : Word
  /-- Child indices of an INTERNAL node; NIL in a LEAF slot. -/
  left : NodeIdx
  right : NodeIdx
deriving DecidableEq, Repr

/-- One CTAB entry (R46). The 8-bit `len` is the length of `code`, computed (log 8). -/
structure CodeEntry where
  valid : Bool
  code : Bits
deriving DecidableEq, Repr

/-- A byte buffer: the bytes written since draw `epoch`, addresses strictly rising; an unlisted address holds
the free value of that draw (log 5). -/
structure Memory where
  cells : List Host.Cell
  epoch : Nat
deriving DecidableEq, Repr

/-- What the host may do (R59): whole-word CSR accesses at a word index (byte offset 4·i, R52), single-byte buffer
accesses (R53), and RST_N driven low and released (R135). -/
inductive HostMove where
  | csrRead (i : BitVec 6)
  | csrWrite (i : BitVec 6) (w : Word)
  | ibufRead (a : Word)
  | ibufWrite (a : Word) (v : Byte)
  | obufRead (a : Word)
  | obufWrite (a : Word) (v : Byte)
  | resetPin
deriving DecidableEq, Repr

/-- Which agent moves next (R10): the host, with its move, or the block (log 1). -/
inductive Turn where
  | host (m : HostMove)
  | block
deriving DecidableEq, Repr

/-- The machine. Registers stand in the order of R137's table. -/
structure State where
  /-- IBUF_SIZE and OBUF_SIZE (R6, R41); never written. -/
  params : Params
  /-- CTRL.IE (R23). -/
  ie : Bool
  /-- PENDING (R47), present exactly while STATUS.BUSY = 1 (R24, R114; log 3). -/
  pending : Option Word
  /-- STATUS.DONE (R24). -/
  done : Bool
  /-- STATUS.ERR (R24, R119). -/
  err : Bool
  /-- STATUS.OVR (R24, R120). -/
  ovr : Bool
  /-- STATUS.TREE_VALID (R45). -/
  treeValid : Bool
  /-- STATUS.TABLE_VALID (R45). -/
  tableValid : Bool
  /-- STATUS.ERRCODE (R24, R115). -/
  errcode : Byte
  /-- ERR_INFO (R26). -/
  errInfo : Word
  /-- SRC_ADDR (R27). -/
  srcAddr : Word
  /-- SRC_LEN (R28). -/
  srcLen : Word
  /-- DST_ADDR (R29). -/
  dstAddr : Word
  /-- ARG (R30). -/
  arg : Word
  /-- RESULT (R31). -/
  result : Word
  /-- ORIG_LEN (R32). -/
  origLen : Word
  /-- HTOTAL (R33). -/
  htotal : Word
  /-- SYMCOUNT[8:0] (R34). -/
  symcount : BitVec 9
  /-- NODE_COUNT[8:0] (R35). -/
  nodeCount : BitVec 9
  /-- ROOT[8:0] (R36). -/
  root : NodeIdx
  /-- OPTR (R37). -/
  optr : Word
  /-- PSTATE.ACC (R38). -/
  acc : BitVec 8
  /-- PSTATE.ACC_N (R38). -/
  accN : BitVec 4
  /-- IPTR (R39). -/
  iptr : Word
  /-- IEND (R39). -/
  iend : Word
  /-- USTATE.IBIT (R40). -/
  ibit : BitVec 3
  /-- IDX[8:0] (R42). -/
  idx : BitVec 9
  /-- HIST (R43). -/
  hist : Vector Word 256
  /-- NODE (R44). -/
  node : Vector Node 511
  /-- CTAB (R46). -/
  ctab : Vector CodeEntry 256
  /-- PQ (R47, R74): the indices held, no order, no repeats. -/
  pq : List NodeIdx
  /-- WSTACK (R47, R80): the top first. -/
  wstack : List (NodeIdx × Bits)
  /-- DACC (R47, R105). -/
  dacc : Bits
  /-- IBUF (R50). -/
  ibuf : Memory
  /-- OBUF (R50). -/
  obuf : Memory
  /-- The model's own: the turns to come (log 1). -/
  turns : List Turn
  /-- The model's own: what the host's last read returned (log 11). -/
  rdata : Word
  /-- The model's own: the number of the next draw of free values (log 6). -/
  draws : Nat
  /-- The model's own: the host wrote a buffer while the running command was running (R58, log 9). -/
  raced : Bool
deriving DecidableEq, Repr

/-- Why the machine stops. -/
inductive Fault where
  /-- Raised by a host byte access at an address outside IBUF or OBUF (R59, U7: the spec gives it no transition).
  Safe: the model stops where no behaviour is stated (log 12). -/
  | hostAddressOutsideBuffer
deriving DecidableEq, Repr

/-- Why an instruction is refused. -/
inductive Refusal where
  /-- Raised by an arm of `exec` whose instruction has no meaning yet. Safe: nothing is claimed of it. No arm does. -/
  | notModelled (mnemonic : String)
deriving DecidableEq, Repr

/-- A vector tabulated from a function of the index. -/
def tabulate {α : Type} (n : Nat) (f : Nat → α) : Vector α n :=
  ⟨⟨(List.range n).map f⟩, by simp⟩

/-- An invalid CTAB entry: valid 0, len 0, code ε (R46). -/
def CodeEntry.invalid : CodeEntry := ⟨false, []⟩

/-- The unspecified content of NODE slot `i` at draw `d` (R117, R137). -/
def freeNode (d i : Nat) : Node :=
  { kind := if freeNodeIsLeaf d i then .leaf else .internal
    sym := freeNodeSym d i
    freq := freeNodeFreq d i
    left := freeNodeLeft d i
    right := freeNodeRight d i }

/-- A buffer of which every byte is the free value of draw `d` (R117, R132, R135). -/
def Memory.drawn (d : Nat) : Memory := ⟨[], d⟩

/-- The instance of State.reset: IBUF_SIZE = OBUF_SIZE = 4096, the sizes of 95_test_vectors.md (log 4). -/
def resetParams : Params := ⟨4096, 4096, by decide, by decide, by decide, by decide⟩

/-- The machine right after power-on reset (R135, R137). -/
def State.reset : State :=
  { params := resetParams
    ie := false, pending := none, done := false, err := false, ovr := false
    treeValid := false, tableValid := false, errcode := 0, errInfo := 0
    srcAddr := 0, srcLen := 0, dstAddr := 0, arg := 0, result := 0, origLen := 0, htotal := 0
    symcount := 0, nodeCount := 0, root := nilIdx, optr := 0, acc := 0, accN := 0
    iptr := 0, iend := 0, ibit := 0, idx := 0
    hist := Vector.replicate 256 0
    node := tabulate 511 (freeNode 0)
    ctab := Vector.replicate 256 CodeEntry.invalid
    pq := [], wstack := [], dacc := []
    ibuf := Memory.drawn 0, obuf := Memory.drawn 0
    turns := [], rdata := 0, draws := 1, raced := false }

end Sys2Proof.Machine
end

