-- ==== Sys2Proof/Syntax.lean ====
section
/-! DEFINITION. The 18 commands of spec/opcode_table.json (30_encoding.md R63), one constructor each. -/

namespace Sys2Proof

/-- A command. The only immediate operand is the 6-bit field N of format FN (R62, R65); every other operand
is a CSR read when the command executes (R60). -/
inductive Instr where
  | nop
  | sreset
  | hclr
  | count
  | build
  | gen
  | pinit
  | putb (n : BitVec 6)
  | psym
  | pflush
  | uinit
  | getb (n : BitVec 6)
  | ualign
  | thdr
  | parse
  | dsym
  | encode
  | decode
deriving DecidableEq, Repr

end Sys2Proof
end

