-- ==== Sys2Proof/Machine/Flags.lean ====
section
/-! DEFINITION. STATUS and its flags (R24), the interrupt (R123), acceptance and completion (R114), and the error
table (R115). -/

namespace Sys2Proof.Machine

open Sys2Proof Config

/-- STATUS.BUSY: 1 from the acceptance of a command until its completion (R24). -/
def State.busy (s : State) : Bool := s.pending.isSome

/-- The STATUS word (R24): ERRCODE in bits 15:8, then TABLE_VALID, TREE_VALID, OVR, ERR, DONE, BUSY in bits 5..0. -/
def State.statusWord (s : State) : Word :=
  0#16 ++ s.errcode ++ 0#2 ++ BitVec.ofBool s.tableValid ++ BitVec.ofBool s.treeValid ++ BitVec.ofBool s.ovr
    ++ BitVec.ofBool s.err ++ BitVec.ofBool s.done ++ BitVec.ofBool s.busy

/-- The level output IRQ = CTRL.IE ∧ STATUS.DONE (R123). -/
def State.irq (s : State) : Bool := s.ie && s.done

/-- Acceptance of a command word (R114): DONE <- 0, BUSY <- 1, PENDING <- w. -/
def State.accept (s : State) (w : Word) : State := { s with done := false, pending := some w, raced := false }

/-- Completion of a command, with or without an error (R114): BUSY <- 0, DONE <- 1. -/
def State.complete (s : State) : State := { s with pending := none, done := true, raced := false }

/-- The code STATUS.ERRCODE receives (R115). -/
def errorNumber : ErrorCode → Byte
  | .illegalCmd => 0x01#8
  | .range => 0x02#8
  | .countOverflow => 0x03#8
  | .noTree => 0x04#8
  | .noTable => 0x05#8
  | .tableMiss => 0x06#8
  | .obufOverflow => 0x07#8
  | .inExhausted => 0x08#8
  | .fmtTruncated => 0x10#8
  | .fmtCount => 0x11#8
  | .fmtDupSymbol => 0x12#8
  | .fmtZeroLen => 0x13#8
  | .fmtNotPrefixFree => 0x14#8
  | .fmtEmptyTable => 0x15#8
  | .payTruncated => 0x16#8
  | .payBadCode => 0x17#8

/-- Kind E of R115: an execution error (R117). The others are precondition errors (R116). -/
def isExecutionError : ErrorCode → Bool
  | .illegalCmd => false
  | .range => false
  | .countOverflow => false
  | .noTree => false
  | .noTable => false
  | .tableMiss => true
  | .obufOverflow => true
  | .inExhausted => true
  | .fmtTruncated => true
  | .fmtCount => true
  | .fmtDupSymbol => true
  | .fmtZeroLen => true
  | .fmtNotPrefixFree => true
  | .fmtEmptyTable => true
  | .payTruncated => true
  | .payBadCode => true

/-- The column "raised by" of R115, read by command: the errors a command can raise. (ILLEGAL_CMD is raised by
the words that are no command.) -/
def raisable : Instr → List ErrorCode
  | .nop => []
  | .sreset => []
  | .hclr => []
  | .count => [.range, .countOverflow]
  | .build => []
  | .gen => [.noTree]
  | .pinit => []
  | .putb _ => [.obufOverflow]
  | .psym => [.noTable, .range, .tableMiss, .obufOverflow]
  | .pflush => [.obufOverflow]
  | .uinit => [.range]
  | .getb _ => [.inExhausted]
  | .ualign => []
  | .thdr => [.noTable, .obufOverflow]
  | .parse => [.fmtTruncated, .fmtCount, .fmtDupSymbol, .fmtZeroLen, .fmtNotPrefixFree, .fmtEmptyTable]
  | .dsym => [.noTable, .obufOverflow, .payTruncated, .payBadCode]
  | .encode => [.range, .obufOverflow]
  | .decode => [.range, .obufOverflow, .fmtTruncated, .fmtCount, .fmtDupSymbol, .fmtZeroLen, .fmtNotPrefixFree,
      .fmtEmptyTable, .payTruncated, .payBadCode]

end Sys2Proof.Machine
end

