-- ==== Sys2Proof/Machine/Operands.lean ====
section
/-! DEFINITION. Operand forms: bit sequences (R8), the source range of SRC_ADDR and SRC_LEN (R28, R54), and the
reads of CSR and memory operands. -/

namespace Sys2Proof.Machine

open Sys2Proof Config

/-- `bits_msb(v, n)`: the low n bits of v, most significant first (R8). -/
def bitsMsb (v : Nat) : Nat → Bits
  | 0 => []
  | n + 1 => v.testBit n :: bitsMsb v n

/-- `zeros(k)`: k zero bits (R88). -/
def zeros (k : Nat) : Bits := List.replicate k false

/-- The unsigned integer of a bit sequence, first bit most significant (R96). -/
def natOfBits (bs : Bits) : Nat := bs.foldl (fun r v => 2 * r + v.toNat) 0

/-- `prefix(s, t)` (R8). -/
def isPrefix (s t : Bits) : Bool := s.isPrefixOf t

/-- Bits in the minimum number of whole bytes that hold l bits: 8·ceil(l/8) (R101). -/
def wholeBytes (l : Nat) : Nat := 8 * ((l + 7) / 8)

/-- The byte values 0..255 in ascending order. -/
def allBytes : List Byte := (List.range 256).map (BitVec.ofNat 8)

/-- MAX_CODE_LEN: the width of a CTAB code register (R5, R46). -/
def maxCodeLen : Nat := 255

/-- `len` of a CTAB entry (R46). -/
def CodeEntry.len (e : CodeEntry) : BitVec 8 := BitVec.ofNat 8 e.code.length

/-- HIST[b] (R9, R43). -/
def State.histAt (s : State) (b : Byte) : Word := s.hist[b.toNat]'b.isLt

/-- CTAB[b] (R9, R46). -/
def State.ctabAt (s : State) (b : Byte) : CodeEntry := s.ctab[b.toNat]'b.isLt

/-- NODE[i] (R9, R44). There is no slot at NIL; no state a race-free run reaches reads it (log 18). -/
def State.nodeAt (s : State) (i : NodeIdx) : Node :=
  if h : i.toNat < 511 then s.node[i.toNat] else freeNode 0 511

/-- The valid entries of a code table in ascending byte value: each byte with its code. -/
def validCodes (ctab : Vector CodeEntry 256) : List (Byte × Bits) :=
  ctab.toList.zipIdx.filterMap fun (e, b) => if e.valid then some (BitVec.ofNat 8 b, e.code) else none

/-- SRC_ADDR + SRC_LEN, exact (R54). -/
def State.srcEnd (s : State) : Nat := s.srcAddr.toNat + s.srcLen.toNat

/-- The range check SRC_ADDR + SRC_LEN ≤ IBUF_SIZE (R28, R54). -/
abbrev State.srcInRange (s : State) : Prop := s.srcEnd ≤ s.params.ibufSize

end Sys2Proof.Machine
end

