-- ==== Sys2Proof/Machine/Ops.lean ====
section
/-! DEFINITION. The shared operations: buffers (R50, R53), raising an error and leaving it (R116 to R118, R124),
resets (R135, R136), the tree builder's queue and allocator (R74, R75), the packer (R87 to R89) and the unpacker
(R95, R96). -/

namespace Sys2Proof.Machine

open Sys2Proof Config

/-! ### Buffers -/

/-- Write one cell, keeping the addresses strictly rising. -/
def insertCell (a : Nat) (v : Byte) : List Host.Cell → List Host.Cell
  | [] => [(a, v)]
  | (b, u) :: rest =>
    if a < b then (a, v) :: (b, u) :: rest
    else if a = b then (a, v) :: rest
    else (b, u) :: insertCell a v rest

/-- The canonical form of a buffer of `size` bytes: addresses strictly rising and inside the buffer (R50; log 5). -/
abbrev Memory.wf (size : Nat) (m : Memory) : Prop :=
  m.cells.Pairwise (fun x y => x.1 < y.1) ∧ ∀ c ∈ m.cells, c.1 < size

/-- The byte at address a; an unlisted address holds its free value (log 5). -/
def Memory.get (free : Nat → Nat → Byte) (m : Memory) (a : Nat) : Byte :=
  (m.cells.lookup a).getD (free m.epoch a)

/-- Write byte v at address a: only that byte changes (R53). -/
def Memory.set (m : Memory) (a : Nat) (v : Byte) : Memory := { m with cells := insertCell a v m.cells }

/-- `MemRead(IBUF, a, 1)` (R9). At a ≥ IBUF_SIZE, where R9 defines no read, it is the free byte of that address: DESIGN
CHOICE, log 27. -/
def State.ibufByte (s : State) (a : Nat) : Byte := s.ibuf.get freeIbuf a

/-- The byte of OBUF at address a, as the host reads it while BUSY = 0 (R53). -/
def State.obufByte (s : State) (a : Nat) : Byte := s.obuf.get freeObuf a

/-! ### Errors -/

/-- An error on its way: `raise E(info)` (R9). -/
structure Raise where
  code : ErrorCode
  info : Word
deriving DecidableEq, Repr

/-- `raise E(info)` (R9): no later statement of the command runs. -/
def raise {α : Type} (e : ErrorCode) (info : Word) : Except Raise α := .error ⟨e, info⟩

/-- `if c: raise E(info)`. -/
def raiseIf (c : Prop) [Decidable c] (e : ErrorCode) (info : Word) : Except Raise Unit :=
  if c then raise e info else .ok ()

/-- The bookkeeping of a raise (R118): ERR <- 1, ERRCODE <- code(E), ERR_INFO <- info. -/
def State.recordError (s : State) (e : ErrorCode) (info : Word) : State :=
  { s with err := true, errcode := errorNumber e, errInfo := info }

/-- Everything R117 calls unspecified after an execution error takes a free value, drawn once. -/
def State.drawDatapath (s : State) : State :=
  let d := s.draws
  { s with
    hist := tabulate 256 (freeHist d)
    htotal := freeReg d .htotal
    origLen := freeReg d .origLen
    node := tabulate 511 (freeNode d)
    nodeCount := (freeReg d .nodeCount).setWidth 9
    root := (freeReg d .root).setWidth 9
    symcount := (freeReg d .symcount).setWidth 9
    ctab := tabulate 256 fun b => ⟨freeCodeValid d b, (freeCode d b).take maxCodeLen⟩
    treeValid := freeFlag d .treeValid
    tableValid := freeFlag d .tableValid
    result := freeReg d .result
    optr := freeReg d .optr
    acc := (freeReg d .acc).setWidth 8
    accN := (freeReg d .accN).setWidth 4
    iptr := freeReg d .iptr
    iend := freeReg d .iend
    ibit := (freeReg d .ibit).setWidth 3
    obuf := Memory.drawn d
    draws := d + 1 }

/-- Taking an error, the whole "trap entry" (R124), from the state `s` the command started in: a precondition error
changes nothing but the bookkeeping (R116); after an execution error the datapath and OBUF are unspecified (R117). -/
def State.takeError (s : State) (r : Raise) : State :=
  (if isExecutionError r.code then s.drawDatapath else s).recordError r.code r.info

/-- The end of a command's execute phase: its result, or the error it raised taken. -/
def State.finish (s : State) (r : Except Raise State) : Host.Outcome State Fault Refusal :=
  match r with
  | .ok t => .next t
  | .error e => .next (s.takeError e)

/-! ### Reset -/

/-- Every piece of state but the buffers takes the value of R137. The NODE slots are unspecified (log 7); params,
the turns to come and the host's read data are no state of R137. -/
def State.resetRegs (s : State) : State :=
  { s with
    ie := false, pending := none, done := false, err := false, ovr := false
    treeValid := false, tableValid := false, errcode := 0, errInfo := 0
    srcAddr := 0, srcLen := 0, dstAddr := 0, arg := 0, result := 0, origLen := 0, htotal := 0
    symcount := 0, nodeCount := 0, root := nilIdx, optr := 0, acc := 0, accN := 0
    iptr := 0, iend := 0, ibit := 0, idx := 0
    hist := Vector.replicate 256 0
    node := tabulate 511 (freeNode s.draws)
    ctab := Vector.replicate 256 CodeEntry.invalid
    pq := [], wstack := [], dacc := []
    draws := s.draws + 1, raced := false }

/-- `apply_reset(SOFT)` (R71, R136), the return from the error state (R124): the buffers keep their contents. An
OBUF that an abandoned command left unspecified was drawn when the command was abandoned (`State.abandon`). -/
def State.softReset (s : State) : State := s.resetRegs

/-- Power-on reset by RST_N (R135): as R137, and the contents of both buffers unspecified. -/
def State.powerOn (s : State) : State :=
  { s.resetRegs with ibuf := Memory.drawn s.draws, obuf := Memory.drawn s.draws }

/-! ### Histogram, arena and table -/

/-- HIST[b] <- v. -/
def State.setHist (s : State) (b : Byte) (v : Word) : State := { s with hist := s.hist.set b.toNat v b.isLt }

/-- NODE[i] <- n. -/
def State.setNode (s : State) (i : NodeIdx) (n : Node) : State := { s with node := s.node.setIfInBounds i.toNat n }

/-- CTAB[b] <- {valid: 1, len: |c|, code: c}; the code register holds 255 bits (R46). -/
def State.setCode (s : State) (b : Byte) (c : Bits) : State :=
  { s with ctab := s.ctab.set b.toNat ⟨true, c.take maxCodeLen⟩ b.isLt }

/-- for b in 0..255: CTAB[b] <- {valid: 0, len: 0, code: ε}. -/
def State.clearTable (s : State) : State := { s with ctab := Vector.replicate 256 CodeEntry.invalid }

/-- `alloc()` (R75): the current NODE_COUNT, which is then incremented. -/
def State.alloc (s : State) : NodeIdx × State := (s.nodeCount, { s with nodeCount := s.nodeCount + 1 })

/-- key(i) = (NODE[i].freq, i), ordered lexicographically (R74): is key(i) less than key(j)? -/
def State.keyLess (s : State) (i j : NodeIdx) : Bool :=
  decide ((s.nodeAt i).freq.toNat < (s.nodeAt j).freq.toNat ∨
    ((s.nodeAt i).freq.toNat = (s.nodeAt j).freq.toNat ∧ i.toNat < j.toNat))

/-- `PQ.insert(i)` (R74). -/
def State.pqInsert (s : State) (i : NodeIdx) : State := { s with pq := i :: s.pq }

/-- The index with the least key among `m` and `rest`. -/
def State.leastKey (s : State) (m : NodeIdx) : List NodeIdx → NodeIdx
  | [] => m
  | j :: rest => s.leastKey (if s.keyLess j m then j else m) rest

/-- `PQ.extract_min()` (R74): remove and return the index with the least key; nothing to extract from an empty queue
(93_implementation_defined.md I6: never applied to one). -/
def State.extractMin (s : State) : Option (NodeIdx × State) :=
  match s.pq with
  | [] => none
  | i :: rest =>
    let m := s.leastKey i rest
    some (m, { s with pq := s.pq.erase m })

/-! ### Packer -/

/-- `append_bit(v)` (R87): shift one bit in, and emit a byte when eight are held. A race can leave ACC_N above 7,
which then counts on modulo 16, or ACC ≥ 2^ACC_N, of which the shift keeps the low 8 bits (DESIGN CHOICE, log 27). -/
def appendBit (v : Bool) (s : State) : Except Raise State :=
  let acc := (s.acc <<< 1) ||| (BitVec.ofBool v).setWidth 8
  let accN := s.accN + 1
  if accN = 8 then do
    raiseIf (s.params.obufSize ≤ s.optr.toNat) .obufOverflow s.optr
    .ok { s with obuf := s.obuf.set s.optr.toNat acc, optr := s.optr + 1, acc := 0, accN := 0 }
  else .ok { s with acc := acc, accN := accN }

/-- `append_bits(s)` (R88): append_bit on each bit in order. -/
def appendBits : Bits → State → Except Raise State
  | [], s => .ok s
  | v :: rest, s => do appendBits rest (← appendBit v s)

/-- `flush()` (R89): complete a partial byte with zero padding. -/
def flush (s : State) : Except Raise State :=
  if s.accN ≠ 0 then appendBits (zeros (8 - s.accN.toNat)) s else .ok s

/-! ### Unpacker -/

/-- `read_bit()` (R95): the next bit, or EXHAUSTED with IPTR and IBIT unchanged; EXHAUSTED carries IPTR, which the
callers report (R98, R103). A race can leave IEND above IBUF_SIZE; a read beyond IBUF then takes the free byte of its
address (DESIGN CHOICE, log 27). -/
def readBit (s : State) : Except Word (Bool × State) :=
  if s.iend.toNat ≤ s.iptr.toNat then .error s.iptr
  else
    let v := (s.ibufByte s.iptr.toNat).getLsbD (7 - s.ibit.toNat)
    if s.ibit = 7 then .ok (v, { s with ibit := 0, iptr := s.iptr + 1 })
    else .ok (v, { s with ibit := s.ibit + 1 })

/-- The loop of `read_bits` (R96) from the partial result r. -/
def readBitsFrom (r : Nat) : Nat → State → Except Word (Nat × State)
  | 0, s => .ok (r, s)
  | n + 1, s => do
    let (v, s) ← readBit s
    readBitsFrom (2 * r + v.toNat) n s

/-- `read_bits(n)` (R96): n bits as an unsigned integer, first bit most significant. -/
def readBits (n : Nat) (s : State) : Except Word (Nat × State) := readBitsFrom 0 n s

/-- A caller's own error for EXHAUSTED, with ERR_INFO = IPTR at that moment (R95, R122). -/
def orRaise {α : Type} (e : ErrorCode) (r : Except Word α) : Except Raise α :=
  match r with
  | .ok x => .ok x
  | .error iptr => raise e iptr

end Sys2Proof.Machine
end

