-- ==== Sys2Proof/Machine/Container.lean ====
section
/-! DEFINITION. Container codec (spec 46_container.md): THDR, PARSE, DSYM. -/

namespace Sys2Proof.Machine

open Sys2Proof

/-- The bits of one table entry (R101): the byte, the code length, the code, low-order zero padding. -/
def entryBits (e : Byte × Bits) : Bits :=
  let l := e.2.length
  bitsMsb e.1.toNat 8 ++ bitsMsb l 8 ++ e.2 ++ zeros (wholeBytes l - l)

/-- The bits of a container header (R100): entry count, entries, original length. -/
def headerBits (table : List (Byte × Bits)) (origLen : Nat) : Bits :=
  bitsMsb table.length 16 ++ table.flatMap entryBits ++ bitsMsb origLen 32

/-- The body of THDR (R102): the entries in ascending byte value. -/
def bodyThdr (s : State) : Except Raise State := do
  raiseIf (s.tableValid = false) .noTable 0
  appendBits (headerBits (validCodes s.ctab) s.origLen.toNat) s

/-- THDR (R102). -/
def execThdr (s : State) : Host.Outcome State Fault Refusal := s.finish (bodyThdr s)

/-- The code bits of an entry in PARSE (R103): m more bits from position j; those at l and above are padding and are
ignored (R108). -/
def readCode (l : Nat) (c : Bits) (j : Nat) : Nat → State → Except Word (Bits × State)
  | 0, s => .ok (c, s)
  | m + 1, s => do
    let (v, s) ← readBit s
    readCode l (if j < l then c ++ [v] else c) (j + 1) m s

/-- One entry of PARSE's loop (R103), in a container of cnt entries. -/
def parseEntry (cnt : Nat) (s : State) : Except Raise State := do
  let (b, s) ← orRaise .fmtTruncated (readBits 8 s)
  raiseIf ((s.ctabAt (BitVec.ofNat 8 b)).valid = true) .fmtDupSymbol (BitVec.ofNat 32 b)
  let (l, s) ← orRaise .fmtTruncated (readBits 8 s)
  raiseIf (l = 0 ∧ cnt ≠ 1) .fmtZeroLen (BitVec.ofNat 32 b)
  let (c, s) ← orRaise .fmtTruncated (readCode l [] 0 (wholeBytes l) s)
  .ok (s.setCode (BitVec.ofNat 8 b) c)

/-- PARSE's loop over the entries (R103). -/
def parseEntries (cnt : Nat) : Nat → State → Except Raise State
  | 0, s => .ok s
  | n + 1, s => do parseEntries cnt n (← parseEntry cnt s)

/-- One code is a prefix of the other (R104). -/
def clash (c d : Bits) : Bool := isPrefix c d || isPrefix d c

/-- The first offending pair of R104: b1 and b2 in lexicographic order, over the valid entries in ascending byte
value. -/
def firstClash : List (Byte × Bits) → Option (Byte × Byte)
  | [] => none
  | (b1, c1) :: rest =>
    match rest.find? fun e => clash c1 e.2 with
    | some (b2, _) => some (b1, b2)
    | none => firstClash rest

/-- `check_prefix_free()` (R104): ERR_INFO is b1 + 256·b2 of the first offending pair. -/
def checkPrefixFree (s : State) : Except Raise Unit :=
  match firstClash (validCodes s.ctab) with
  | some (b1, b2) => raise .fmtNotPrefixFree (BitVec.ofNat 32 (b1.toNat + 256 * b2.toNat))
  | none => .ok ()

/-- The body of PARSE (R103). -/
def bodyParse (s : State) : Except Raise State := do
  let (cnt, s) ← orRaise .fmtTruncated (readBits 16 s.clearTable)
  raiseIf (cnt > 256) .fmtCount (BitVec.ofNat 32 cnt)
  let s ← parseEntries cnt cnt s
  checkPrefixFree s
  let (orig, s) ← orRaise .fmtTruncated (readBits 32 s)
  raiseIf (cnt = 0 ∧ orig ≠ 0) .fmtEmptyTable (BitVec.ofNat 32 orig)
  .ok { s with origLen := BitVec.ofNat 32 orig, symcount := BitVec.ofNat 9 cnt, tableValid := true }

/-- PARSE (R103). -/
def execParse (s : State) : Host.Outcome State Fault Refusal := s.finish (bodyParse s)

/-- The length of the longest code of a table: 0 for an empty one. -/
def longestCode (table : List (Byte × Bits)) : Nat := table.foldl (fun m e => max m e.2.length) 0

/-- The loop of `decode_symbol(k)` (R105), at most n rounds. |DACC| grows by one each round, and no code continues a
DACC longer than the longest code, so longestCode + 2 rounds always reach a result (log 19). -/
def decodeLoop (table : List (Byte × Bits)) (k : Word) : Nat → State → Except Raise (Byte × State)
  | 0, _ => raise .payBadCode k
  | n + 1, s =>
    match table.find? fun e => e.2 == s.dacc with
    | some (b, _) => .ok (b, s)
    | none => do
      raiseIf (table.any (fun e => isPrefix s.dacc e.2) = false) .payBadCode k
      let (v, s) ←
        match readBit s with
        | .ok x => .ok x
        | .error _ => raise .payTruncated k
      decodeLoop table k n { s with dacc := s.dacc ++ [v] }

/-- `decode_symbol(k)` (R105): DACC starts empty, the root-equivalent state. -/
def decodeSymbol (table : List (Byte × Bits)) (k : Nat) (s : State) : Except Raise (Byte × State) :=
  decodeLoop table (BitVec.ofNat 32 k) (longestCode table + 2) { s with dacc := [] }

/-- DSYM's loop (R106): n more symbols from index k. -/
def decodeFrom (table : List (Byte × Bits)) (k : Nat) : Nat → State → Except Raise State
  | 0, s => .ok s
  | n + 1, s => do
    let (b, s) ← decodeSymbol table k s
    decodeFrom table (k + 1) n (← appendBits (bitsMsb b.toNat 8) s)

/-- The body of DSYM (R106): exactly ORIG_LEN symbols (R107). DACC is empty outside DSYM (R47). -/
def bodyDsym (s : State) : Except Raise State := do
  raiseIf (s.tableValid = false) .noTable 0
  let t ← decodeFrom (validCodes s.ctab) 0 s.origLen.toNat s
  .ok { t with dacc := [] }

/-- DSYM (R106). -/
def execDsym (s : State) : Host.Outcome State Fault Refusal := s.finish (bodyDsym s)

end Sys2Proof.Machine
end

