-- ==== Sys2Proof/Machine/Histogram.lean ====
section
/-! DEFINITION. Frequency counter (spec 41_histogram.md): HCLR, COUNT. -/

namespace Sys2Proof.Machine

open Sys2Proof Config

/-- The body of HCLR (R72). -/
def bodyHclr (s : State) : Except Raise State :=
  .ok { s with hist := Vector.replicate 256 0, htotal := 0, origLen := 0, treeValid := false }

/-- HCLR (R72). -/
def execHclr (s : State) : Host.Outcome State Fault Refusal := s.finish (bodyHclr s)

/-- COUNT's loop (R73): one more occurrence of each of the n bytes from address a upward. -/
def countFrom (a : Nat) : Nat → State → State
  | 0, s => s
  | n + 1, s =>
    let b := s.ibufByte a
    countFrom (a + 1) n (s.setHist b (s.histAt b + 1))

/-- The body of COUNT (R73). -/
def bodyCount (s : State) : Except Raise State := do
  raiseIf (¬ s.srcInRange) .range s.srcAddr
  raiseIf (s.htotal.toNat + s.srcLen.toNat > maxTotal) .countOverflow s.htotal
  let t := countFrom s.srcAddr.toNat s.srcLen.toNat s
  let total := t.htotal + t.srcLen
  .ok { t with htotal := total, origLen := total, treeValid := false }

/-- COUNT (R73). -/
def execCount (s : State) : Host.Outcome State Fault Refusal := s.finish (bodyCount s)

end Sys2Proof.Machine
end

