-- ==== Sys2Proof/Machine/Packer.lean ====
section
/-! DEFINITION. Bit packer (spec 44_bit_packer.md): PINIT, PUTB, PSYM, PFLUSH. -/

namespace Sys2Proof.Machine

open Sys2Proof

/-- The body of PINIT (R90). -/
def bodyPinit (s : State) : Except Raise State := .ok { s with optr := s.dstAddr, acc := 0, accN := 0 }

/-- PINIT (R90). -/
def execPinit (s : State) : Host.Outcome State Fault Refusal := s.finish (bodyPinit s)

/-- PUTB n (R91): the low n bits of ARG, most significant first. -/
def execPutb (n : BitVec 6) (s : State) : Host.Outcome State Fault Refusal :=
  s.finish (appendBits (bitsMsb s.arg.toNat n.toNat) s)

/-- PSYM's loop (R92): the codes of the n bytes from address a upward. -/
def packFrom (a : Nat) : Nat → State → Except Raise State
  | 0, s => .ok s
  | n + 1, s => do
    let e := s.ctabAt (s.ibufByte a)
    raiseIf (e.valid = false) .tableMiss (BitVec.ofNat 32 a)
    packFrom (a + 1) n (← appendBits e.code s)

/-- The body of PSYM (R92). -/
def bodyPsym (s : State) : Except Raise State := do
  raiseIf (s.tableValid = false) .noTable 0
  raiseIf (¬ s.srcInRange) .range s.srcAddr
  packFrom s.srcAddr.toNat s.srcLen.toNat s

/-- PSYM (R92). -/
def execPsym (s : State) : Host.Outcome State Fault Refusal := s.finish (bodyPsym s)

/-- PFLUSH (R93). -/
def execPflush (s : State) : Host.Outcome State Fault Refusal := s.finish (flush s)

end Sys2Proof.Machine
end

