-- ==== Sys2Proof/Machine/TreeBuilder.lean ====
section
/-! DEFINITION. Huffman tree builder (spec 42_tree_builder.md): BUILD. -/

namespace Sys2Proof.Machine

open Sys2Proof Config

/-- One step of the seeding loop (R76): a leaf for byte b if it is present. -/
def seedLeaf (s : State) (b : Byte) : State :=
  if s.histAt b ≠ 0 then
    let (i, t) := s.alloc
    (t.setNode i { kind := .leaf, sym := b, freq := s.histAt b, left := nilIdx, right := nilIdx }).pqInsert i
  else s

/-- One merge (R76): the first extracted becomes left, the second right. -/
def mergeTwo (s : State) : State :=
  match s.extractMin with
  | none => s
  | some (a, s) =>
    match s.extractMin with
    | none => s
    | some (c, s) =>
      let (i, t) := s.alloc
      (t.setNode i { kind := .internal, sym := 0, freq := (s.nodeAt a).freq + (s.nodeAt c).freq, left := a, right := c }).pqInsert i

/-- `while |PQ| >= 2` (R76); each merge takes one index out of the queue, so |PQ| bounds the merges. -/
def mergeLoop : Nat → State → State
  | 0, s => s
  | n + 1, s => if 2 ≤ s.pq.length then mergeLoop n (mergeTwo s) else s

/-- The end of BUILD's else branch (R76): exactly one node remains, the root. -/
def takeRoot (s : State) : State :=
  match s.extractMin with
  | none => { s with root := nilIdx }
  | some (r, s) => { s with root := r }

/-- BUILD up to the leaves (R76): the queue and the arena emptied, a leaf for each present byte, SYMCOUNT. -/
def seedTree (s : State) : State :=
  let t := allBytes.foldl seedLeaf { s with pq := [], nodeCount := 0 }
  { t with symcount := t.nodeCount }

/-- The body of BUILD (R76). The empty frequency map gives the empty tree (R79). -/
def bodyBuild (s : State) : Except Raise State :=
  let t := seedTree s
  let u := if t.pq = [] then { t with root := nilIdx } else takeRoot (mergeLoop t.pq.length t)
  .ok { u with treeValid := true, tableValid := false }

/-- BUILD (R76). -/
def execBuild (s : State) : Host.Outcome State Fault Refusal := s.finish (bodyBuild s)

end Sys2Proof.Machine
end

