-- ==== Sys2Proof/Machine/TreeWalker.lean ====
section
/-! DEFINITION. Code table generator (spec 43_tree_walker.md): GEN. -/

namespace Sys2Proof.Machine

open Sys2Proof Config

/-- SINGLE_CODE_LEN = 1: the code of a lone leaf is [0] (R5, R84). -/
def singleCode : Bits := [false]

/-- The walk of R80 from the stack as it stands, at most n visits. -/
def walkStack : Nat → State → State
  | 0, s => s
  | n + 1, s =>
    match s.wstack with
    | [] => s
    | (i, p) :: rest =>
      let nd := s.nodeAt i
      match nd.kind with
      | .leaf => walkStack n ({ s with wstack := rest }.setCode nd.sym p)
      | .internal => walkStack n { s with wstack := (nd.left, p ++ [false]) :: (nd.right, p ++ [true]) :: rest }

/-- `walk(root)` (R80); R133 bounds it by 511 visits, which a tree never exceeds (log 18). -/
def walk (root : NodeIdx) (s : State) : State :=
  { walkStack maxVisits { s with wstack := [(root, [])] } with wstack := [] }

/-- The table GEN fills, after clearing it (R81): empty tree, lone leaf, or the walk. -/
def genTable (s : State) : State :=
  let t := s.clearTable
  if t.root = nilIdx then { t with symcount := 0 }
  else
    match (t.nodeAt t.root).kind with
    | .leaf => { t.setCode (t.nodeAt t.root).sym singleCode with symcount := 1 }
    | .internal =>
      let u := walk t.root t
      { u with symcount := BitVec.ofNat 9 (validCodes u.ctab).length }

/-- The body of GEN (R81). -/
def bodyGen (s : State) : Except Raise State := do
  raiseIf (s.treeValid = false) .noTree 0
  .ok { genTable s with tableValid := true }

/-- GEN (R81). -/
def execGen (s : State) : Host.Outcome State Fault Refusal := s.finish (bodyGen s)

end Sys2Proof.Machine
end

