-- ==== Sys2Proof/Machine/Unpacker.lean ====
section
/-! DEFINITION. Bit unpacker (spec 45_bit_unpacker.md): UINIT, GETB, UALIGN. -/

namespace Sys2Proof.Machine

open Sys2Proof

/-- The body of UINIT (R97). -/
def bodyUinit (s : State) : Except Raise State := do
  raiseIf (¬ s.srcInRange) .range s.srcAddr
  .ok { s with iptr := s.srcAddr, iend := s.srcAddr + s.srcLen, ibit := 0 }

/-- UINIT (R97). -/
def execUinit (s : State) : Host.Outcome State Fault Refusal := s.finish (bodyUinit s)

/-- The body of GETB n (R98). -/
def bodyGetb (n : Nat) (s : State) : Except Raise State := do
  let (r, t) ← orRaise .inExhausted (readBits n s)
  .ok { t with result := BitVec.ofNat 32 r }

/-- GETB n (R98). -/
def execGetb (n : BitVec 6) (s : State) : Host.Outcome State Fault Refusal := s.finish (bodyGetb n.toNat s)

/-- UALIGN (R99): skip to the next byte boundary of the input. -/
def execUalign (s : State) : Host.Outcome State Fault Refusal :=
  .next (if s.ibit ≠ 0 then { s with ibit := 0, iptr := s.iptr + 1 } else s)

end Sys2Proof.Machine
end

