-- ==== Sys2Proof/Machine/Composite.lean ====
section
/-! DEFINITION. Composite commands (spec 47_composite.md): ENCODE, DECODE. -/

namespace Sys2Proof.Machine

open Sys2Proof

/-- The body of ENCODE (R110): the bodies named there, in order. -/
def bodyEncode (s : State) : Except Raise State := do
  raiseIf (¬ s.srcInRange) .range s.srcAddr
  let s ← bodyHclr s
  let s ← bodyCount s
  let s ← bodyBuild s
  let s ← bodyGen s
  let s ← bodyPinit s
  let s ← bodyThdr s
  let s ← bodyPsym s
  flush s

/-- ENCODE (R110). -/
def execEncode (s : State) : Host.Outcome State Fault Refusal := s.finish (bodyEncode s)

/-- The body of DECODE (R111): the bodies named there, in order. -/
def bodyDecode (s : State) : Except Raise State := do
  raiseIf (¬ s.srcInRange) .range s.srcAddr
  let s ← bodyUinit s
  let s ← bodyPinit s
  let s ← bodyParse s
  bodyDsym s

/-- DECODE (R111). -/
def execDecode (s : State) : Host.Outcome State Fault Refusal := s.finish (bodyDecode s)

end Sys2Proof.Machine
end

