-- ==== Sys2Proof/Machine/Control.lean ====
section
/-! DEFINITION. Control commands (spec 40_control.md): NOP, SRESET. -/

namespace Sys2Proof.Machine

open Sys2Proof

/-- NOP (R70): nothing. -/
def execNop (s : State) : Host.Outcome State Fault Refusal := .next s

/-- SRESET (R71): `apply_reset(SOFT)`. -/
def execSreset (s : State) : Host.Outcome State Fault Refusal := .next s.softReset

end Sys2Proof.Machine
end

