-- ==== Sys2Proof/Machine/Dispatch.lean ====
section
/-! DEFINITION. exec: one arm for each constructor of Instr (spec/opcode_table.json). -/

namespace Sys2Proof.Machine

open Sys2Proof

def exec (i : Instr) (s : State) : Host.Outcome State Fault Refusal :=
  match i with
  | .nop => Sys2Proof.Machine.execNop s
  | .sreset => Sys2Proof.Machine.execSreset s
  | .hclr => Sys2Proof.Machine.execHclr s
  | .count => Sys2Proof.Machine.execCount s
  | .build => Sys2Proof.Machine.execBuild s
  | .gen => Sys2Proof.Machine.execGen s
  | .pinit => Sys2Proof.Machine.execPinit s
  | .putb n => Sys2Proof.Machine.execPutb n s
  | .psym => Sys2Proof.Machine.execPsym s
  | .pflush => Sys2Proof.Machine.execPflush s
  | .uinit => Sys2Proof.Machine.execUinit s
  | .getb n => Sys2Proof.Machine.execGetb n s
  | .ualign => Sys2Proof.Machine.execUalign s
  | .thdr => Sys2Proof.Machine.execThdr s
  | .parse => Sys2Proof.Machine.execParse s
  | .dsym => Sys2Proof.Machine.execDsym s
  | .encode => Sys2Proof.Machine.execEncode s
  | .decode => Sys2Proof.Machine.execDecode s

end Sys2Proof.Machine
end

