-- ==== Sys2Proof/WellFormed.lean ====
section
/-! DEFINITION. Well-formed commands: the bit count N of format FN is 1..32 (30_encoding.md R62, R65). -/

namespace Sys2Proof

/-- The legal bit counts of format FN: 1 ≤ N ≤ 32 (R62). -/
def countLegal (n : BitVec 6) : Bool := decide (1 ≤ n.toNat ∧ n.toNat ≤ 32)

/-- A command the encoding admits. A command of format F0 has no operand that could be wrong (R61). -/
def Instr.wellFormed : Instr → Bool
  | .putb n => countLegal n
  | .getb n => countLegal n
  | .nop => true
  | .sreset => true
  | .hclr => true
  | .count => true
  | .build => true
  | .gen => true
  | .pinit => true
  | .psym => true
  | .pflush => true
  | .uinit => true
  | .ualign => true
  | .thdr => true
  | .parse => true
  | .dsym => true
  | .encode => true
  | .decode => true

end Sys2Proof
end

