-- ==== Sys2Proof/Decode.lean ====
section
/-! DEFINITION. Decoding of the 32-bit command word (30_encoding.md R60 to R66), then the encoder. -/

namespace Sys2Proof

/-- Why a word is ILLEGAL (R66): its opcode is unassigned, its ZERO field is not zero, or its N is out of range. -/
inductive Illegal where
  | unassignedOpcode
  | nonzeroZeroField
  | countOutOfRange
deriving DecidableEq, Repr

/-- The field w[hi:lo] (R7). -/
def field (w : Word) (hi lo : Nat) : BitVec (hi - lo + 1) := w.extractLsb' lo (hi - lo + 1)

/-- The opcodes of format F0 (R63). -/
def f0Opcodes : List (Byte × Instr) :=
  [(0x00#8, .nop), (0x01#8, .sreset), (0x10#8, .hclr), (0x11#8, .count), (0x20#8, .build), (0x21#8, .gen),
   (0x30#8, .pinit), (0x32#8, .psym), (0x33#8, .pflush), (0x38#8, .uinit), (0x3A#8, .ualign),
   (0x40#8, .thdr), (0x41#8, .parse), (0x42#8, .dsym), (0x50#8, .encode), (0x51#8, .decode)]

/-- A word of format FN (R62): bits 31:14 must be 0 and N must be 1..32. -/
def decodeFN (w : Word) (mk : BitVec 6 → Instr) : Except Illegal Instr :=
  if field w 31 14 ≠ 0 then .error .nonzeroZeroField
  else if countLegal (field w 13 8) then .ok (mk (field w 13 8))
  else .error .countOutOfRange

/-- The decode function of R64: total, every word is exactly one command or ILLEGAL. -/
def decode (w : Word) : Except Illegal Instr :=
  let opc := field w 7 0
  if opc = 0x31#8 then decodeFN w .putb
  else if opc = 0x39#8 then decodeFN w .getb
  else
    match f0Opcodes.lookup opc with
    | some i => if field w 31 8 ≠ 0 then .error .nonzeroZeroField else .ok i
    | none => .error .unassignedOpcode

/-- The decoder on a word numbered as spec/opcode_table.json numbers it: one 32-bit word, bit 0 least significant. -/
def decodeTableWord (_nbits w : Nat) : Option Instr :=
  if w < 2 ^ 32 then (decode (BitVec.ofNat 32 w)).toOption else none

/-- A word of format FN: N in bits 13:8 over the opcode (R62, R63). -/
def encodeFN (opc : Word) (n : BitVec 6) : Word := opc ||| (n.setWidth 32 <<< 8)

/-- The word of a command (R63, last column). -/
def encode : Instr → Word
  | .nop => 0x0000_0000#32
  | .sreset => 0x0000_0001#32
  | .hclr => 0x0000_0010#32
  | .count => 0x0000_0011#32
  | .build => 0x0000_0020#32
  | .gen => 0x0000_0021#32
  | .pinit => 0x0000_0030#32
  | .putb n => encodeFN 0x0000_0031#32 n
  | .psym => 0x0000_0032#32
  | .pflush => 0x0000_0033#32
  | .uinit => 0x0000_0038#32
  | .getb n => encodeFN 0x0000_0039#32 n
  | .ualign => 0x0000_003A#32
  | .thdr => 0x0000_0040#32
  | .parse => 0x0000_0041#32
  | .dsym => 0x0000_0042#32
  | .encode => 0x0000_0050#32
  | .decode => 0x0000_0051#32

end Sys2Proof
end

