-- ==== Sys2Proof/Machine/Unspecified.lean ====
section
/-! DEFINITION. What a command leaves that raced with a host buffer write (R58) or was abandoned (R132): its own results and
OBUF are unspecified, everything else is as its rule says. -/

namespace Sys2Proof.Machine

open Sys2Proof Config

/-- The parts of the state a command writes as its results. OBUF is not among them: R58 and R132 name it whatever the
command is. -/
inductive Part where
  | hist | htotal | origLen | symcount | ctab | treeValid | tableValid | result | iend
  /-- NODE, NODE_COUNT and ROOT. -/
  | tree
  /-- OPTR, ACC and ACC_N. -/
  | packer
  /-- IPTR and IBIT. -/
  | stream
  /-- ERR, ERRCODE, ERR_INFO and OVR. -/
  | errors
  /-- CTRL.IE, SRC_ADDR, SRC_LEN, DST_ADDR, ARG and IDX. -/
  | operands
deriving DecidableEq, Repr

/-- The results of each command: what its rule writes (files 40 to 47, R45). -/
def results : Instr → List Part
  | .nop => []
  | .sreset => [.hist, .htotal, .origLen, .symcount, .ctab, .treeValid, .tableValid, .result, .iend, .tree, .packer, .stream,
    .errors, .operands]
  | .hclr => [.hist, .htotal, .origLen, .treeValid]
  | .count => [.hist, .htotal, .origLen, .treeValid]
  | .build => [.tree, .symcount, .treeValid, .tableValid]
  | .gen => [.ctab, .symcount, .tableValid]
  | .pinit => [.packer]
  | .putb _ => [.packer]
  | .psym => [.packer]
  | .pflush => [.packer]
  | .uinit => [.stream, .iend]
  | .getb _ => [.result, .stream]
  | .ualign => [.stream]
  | .thdr => [.packer]
  | .parse => [.ctab, .origLen, .symcount, .tableValid, .stream]
  | .dsym => [.packer, .stream]
  | .encode => [.hist, .htotal, .origLen, .tree, .symcount, .ctab, .treeValid, .tableValid, .packer]
  | .decode => [.stream, .iend, .ctab, .origLen, .symcount, .tableValid, .packer]

/-- The parts listed, and every OBUF byte, take free values of one draw (R58, R132); all else is kept. ERRCODE stays
0x00 where the ERR drawn is 0 (R24). -/
def State.drawParts (ps : List Part) (s : State) : State :=
  let u := s.drawDatapath
  let d := s.draws
  { s with
    ie := if .operands ∈ ps then freeFlag d .ie else s.ie
    err := if .errors ∈ ps then freeFlag d .err else s.err
    ovr := if .errors ∈ ps then freeFlag d .ovr else s.ovr
    errcode := if .errors ∈ ps then (if freeFlag d .err then (freeReg d .errcode).setWidth 8 else 0) else s.errcode
    errInfo := if .errors ∈ ps then freeReg d .errInfo else s.errInfo
    srcAddr := if .operands ∈ ps then freeReg d .srcAddr else s.srcAddr
    srcLen := if .operands ∈ ps then freeReg d .srcLen else s.srcLen
    dstAddr := if .operands ∈ ps then freeReg d .dstAddr else s.dstAddr
    arg := if .operands ∈ ps then freeReg d .arg else s.arg
    idx := if .operands ∈ ps then (freeReg d .idx).setWidth 9 else s.idx
    hist := if .hist ∈ ps then u.hist else s.hist
    htotal := if .htotal ∈ ps then u.htotal else s.htotal
    origLen := if .origLen ∈ ps then u.origLen else s.origLen
    symcount := if .symcount ∈ ps then u.symcount else s.symcount
    ctab := if .ctab ∈ ps then u.ctab else s.ctab
    treeValid := if .treeValid ∈ ps then u.treeValid else s.treeValid
    tableValid := if .tableValid ∈ ps then u.tableValid else s.tableValid
    result := if .result ∈ ps then u.result else s.result
    iend := if .iend ∈ ps then u.iend else s.iend
    node := if .tree ∈ ps then u.node else s.node
    nodeCount := if .tree ∈ ps then u.nodeCount else s.nodeCount
    root := if .tree ∈ ps then u.root else s.root
    optr := if .packer ∈ ps then u.optr else s.optr
    acc := if .packer ∈ ps then u.acc else s.acc
    accN := if .packer ∈ ps then u.accN else s.accN
    iptr := if .stream ∈ ps then u.iptr else s.iptr
    ibit := if .stream ∈ ps then u.ibit else s.ibit
    obuf := u.obuf
    draws := u.draws }

/-- The checks a command makes before it changes any state (R116), in the order of R121. They read no buffer, so a race
cannot touch them. -/
def preconditions (i : Instr) (s : State) : Except Raise Unit :=
  let range := raiseIf (¬ s.srcInRange) .range s.srcAddr
  let table := raiseIf (s.tableValid = false) .noTable 0
  match i with
  | .count => do
    range
    raiseIf (s.htotal.toNat + s.srcLen.toNat > maxTotal) .countOverflow s.htotal
  | .gen => raiseIf (s.treeValid = false) .noTree 0
  | .psym => do
    table
    range
  | .thdr => table
  | .dsym => table
  | .uinit => range
  | .encode => range
  | .decode => range
  | .nop => .ok ()
  | .sreset => .ok ()
  | .hclr => .ok ()
  | .build => .ok ()
  | .pinit => .ok ()
  | .putb _ => .ok ()
  | .pflush => .ok ()
  | .getb _ => .ok ()
  | .ualign => .ok ()
  | .parse => .ok ()

/-! ### Races (R58) -/

/-- The result of a command that raced with a host buffer write (R58, U3): its results and OBUF are free values, and so is
whether it reports one of the execution errors R115 lists for it, after which R117 holds. A precondition error is raised as
ever, and leaves all but OBUF alone (R116). (log 9) -/
def racedResult (i : Instr) (s : State) : State :=
  match preconditions i s with
  | .error r => (s.drawParts []).recordError r.code r.info
  | .ok () =>
    let t := (if i = .sreset then s.softReset else s).drawParts (results i)
    match freeVerdict s.draws with
    | some (e, info) => if isExecutionError e ∧ e ∈ raisable i then s.takeError ⟨e, info⟩ else t
    | none => t

/-! ### Abandoning a command (R132) -/

/-- TREE_VALID of a command abandoned at an unspecified point: what it was, or what the command writes to it on its way
(R45). `free` says which. For BUILD and ENCODE it is chosen apart from TABLE_VALID's, so the pair may be one that no single
point shows, such as TREE_VALID 0 with TABLE_VALID 1 of an ENCODE begun with both 0 (DESIGN CHOICE, log 10). -/
def abandonedTreeValid (i : Instr) (old free : Bool) : Bool :=
  if i ∈ [Instr.hclr, .count] then old && free
  else if i = .build then old || free
  else if i = .encode then free
  else old

/-- TABLE_VALID of a command abandoned at an unspecified point: what it was, or what the command writes to it on its way
(R45). `free` says which. R45 has PARSE, and PARSE within DECODE, write it on success only; the model does not ask whether
the header could be parsed, so the bit may be 1 after a PARSE or DECODE that could only raise (DESIGN CHOICE, log 10). For
ENCODE and BUILD it is chosen apart from TREE_VALID's (DESIGN CHOICE, log 10). -/
def abandonedTableValid (i : Instr) (old free : Bool) : Bool :=
  if i = .build then old && free
  else if i ∈ [Instr.gen, .parse, .decode] then old || free
  else if i = .encode then free
  else old

/-- `abandon(PENDING)` (R114, R132): the command c ran to an unspecified point, so its results and every OBUF byte are
unspecified; a word that is no command, or a command whose precondition fails, wrote nothing. SRESET is one action
(`apply_reset`, R71), so an abandoned SRESET had applied all of it or none. The soft reset that follows resets all of that
but OBUF. (log 10) -/
def State.abandon (c : Word) (s : State) : State :=
  match decode c with
  | .error _ => s.drawParts []
  | .ok i =>
    match preconditions i s with
    | .error _ => s.drawParts []
    | .ok () =>
      if s.raced then s.drawParts (results i)
      else if i = .sreset then (if freeFlag s.draws .resetDone then s.softReset else s).drawParts []
      else { s.drawParts (results i) with
        treeValid := abandonedTreeValid i s.treeValid (freeFlag s.draws .treeValid)
        tableValid := abandonedTableValid i s.tableValid (freeFlag s.draws .tableValid) }

end Sys2Proof.Machine
end

