-- ==== Sys2Proof/Machine/Block.lean ====
section
/-! DEFINITION. The block's step (R114): decode PENDING, execute it, complete. -/

namespace Sys2Proof.Machine

open Sys2Proof Config

/-- What exec answers, completed (R114). -/
def completed : Host.Outcome State Fault Refusal → Host.Outcome State Fault Refusal
  | .next s => .next s.complete
  | .fault f => .fault f
  | .refused r => .refused r

/-- The block's step on the pending word w (R114). An illegal word raises ILLEGAL_CMD(w) (R64); it
has no results, so a race frees OBUF alone (R58). -/
def blockStep (w : Word) (s : State) : Host.Outcome State Fault Refusal :=
  match decode w with
  | .error _ => .next ((if s.raced then s.drawParts [] else s).takeError ⟨.illegalCmd, w⟩).complete
  | .ok i => if s.raced then .next (racedResult i s).complete else completed (exec i s)

/-- The block's turn: its step is enabled exactly when BUSY = 1 (R114); an idle block keeps all its state (R130). -/
def blockTurn (s : State) : Host.Outcome State Fault Refusal :=
  match s.pending with
  | some w => blockStep w s
  | none => .next s

end Sys2Proof.Machine
end

