-- ==== Sys2Proof/Machine/Csr.lean ====
section
/-! DEFINITION. The CSR window as the host reads it (spec 10_state.md R21 to R42, R49). -/

namespace Sys2Proof.Machine

open Sys2Proof Config

/-- The registers of R21's map; the reserved offsets hold none. -/
inductive Csr where
  | id | ctrl | status | cmd | errInfo | srcAddr | srcLen | dstAddr | arg | result | origLen | htotal | symcount
  | nodeCount | root | optr | pstate | iptr | iend | ustate | idx | histRd | nodeRd0 | nodeRd1 | ctLen
  | ctCode (k : Fin 8) | ibufSz | obufSz
deriving DecidableEq, Repr

/-- The map of R21, by word index (byte offset / 4), 0x00 to 0x88. -/
def csrMap : List Csr :=
  [.id, .ctrl, .status, .cmd, .errInfo, .srcAddr, .srcLen, .dstAddr, .arg, .result, .origLen, .htotal, .symcount,
   .nodeCount, .root, .optr, .pstate, .iptr, .iend, .ustate, .idx, .histRd, .nodeRd0, .nodeRd1, .ctLen,
   .ctCode 0, .ctCode 1, .ctCode 2, .ctCode 3, .ctCode 4, .ctCode 5, .ctCode 6, .ctCode 7, .ibufSz, .obufSz]

/-- The register at a word index; none at the reserved offsets 0x8C to 0xFC (R21). -/
def csrAt (i : BitVec 6) : Option Csr := csrMap[i.toNat]?

/-- PSTATE (R38): ACC in bits 7:0, ACC_N in bits 11:8. -/
def State.pstateWord (s : State) : Word := s.acc.setWidth 32 ||| (s.accN.setWidth 32 <<< 8)

/-- NODE_RD0 (R42), for i = IDX. -/
def State.nodeRd0 (s : State) : Word :=
  let n := s.nodeAt s.idx
  if s.idx.toNat < s.nodeCount.toNat then
    match n.kind with
    | .leaf => (1#32 <<< 31) ||| n.sym.setWidth 32
    | .internal => (1#32 <<< 31) ||| (1#32 <<< 30) ||| (n.right.setWidth 32 <<< 16) ||| n.left.setWidth 32
  else 0

/-- NODE_RD1 (R42), for i = IDX. -/
def State.nodeRd1 (s : State) : Word := if s.idx.toNat < s.nodeCount.toNat then (s.nodeAt s.idx).freq else 0

/-- The byte that IDX[7:0] selects (R42). -/
def State.idxByte (s : State) : Byte := s.idx.setWidth 8

/-- CT_LEN (R42): valid in bit 31, len in the low bits. -/
def State.ctLenWord (s : State) : Word :=
  let e := s.ctabAt s.idxByte
  ((BitVec.ofBool e.valid).setWidth 32 <<< 31) ||| e.len.setWidth 32

/-- CT_CODEk (R42): bit 31 − j is code bit 32k + j where there is one, and 0 otherwise. -/
def State.ctCodeWord (s : State) (k : Nat) : Word :=
  let c := (s.ctabAt s.idxByte).code
  BitVec.ofNat 32 (natOfBits ((List.range 32).map fun j => c.getD (32 * k + j) false))

/-- The exact value of a register (R22 to R42). -/
def State.csrValue (s : State) : Csr → Word
  | .id => idValue
  | .ctrl => (BitVec.ofBool s.ie).setWidth 32
  | .status => s.statusWord
  | .cmd => 0
  | .errInfo => s.errInfo
  | .srcAddr => s.srcAddr
  | .srcLen => s.srcLen
  | .dstAddr => s.dstAddr
  | .arg => s.arg
  | .result => s.result
  | .origLen => s.origLen
  | .htotal => s.htotal
  | .symcount => s.symcount.setWidth 32
  | .nodeCount => s.nodeCount.setWidth 32
  | .root => s.root.setWidth 32
  | .optr => s.optr
  | .pstate => s.pstateWord
  | .iptr => s.iptr
  | .iend => s.iend
  | .ustate => s.ibit.setWidth 32
  | .idx => s.idx.setWidth 32
  | .histRd => s.histAt s.idxByte
  | .nodeRd0 => s.nodeRd0
  | .nodeRd1 => s.nodeRd1
  | .ctLen => s.ctLenWord
  | .ctCode k => s.ctCodeWord k.val
  | .ibufSz => BitVec.ofNat 32 s.params.ibufSize
  | .obufSz => BitVec.ofNat 32 s.params.obufSize

/-- The registers that read their exact value while BUSY = 1 (R49); CMD reads 0 at all times (R25). -/
def exactWhileBusy : Csr → Bool
  | .id => true
  | .ctrl => true
  | .status => true
  | .cmd => true
  | .srcAddr => true
  | .srcLen => true
  | .dstAddr => true
  | .arg => true
  | .idx => true
  | .ibufSz => true
  | .obufSz => true
  | .errInfo => false
  | .result => false
  | .origLen => false
  | .htotal => false
  | .symcount => false
  | .nodeCount => false
  | .root => false
  | .optr => false
  | .pstate => false
  | .iptr => false
  | .iend => false
  | .ustate => false
  | .histRd => false
  | .nodeRd0 => false
  | .nodeRd1 => false
  | .ctLen => false
  | .ctCode _ => false

end Sys2Proof.Machine
end

