-- ==== Sys2Proof/Machine/HostPort.lean ====
section
/-! DEFINITION. The host's moves (R59): CSR reads and writes (R21, R48, R49), offering a command (R114), buffer
accesses (R53, R58) and RST_N (R135). -/

namespace Sys2Proof.Machine

open Sys2Proof Config

/-- The host's read returns `w`; a read has no other effect (R53). -/
def State.answer (s : State) (w : Word) : State := { s with rdata := w }

/-- A read whose value is unspecified: a fresh free value (R49, R58). -/
def State.answerFree (s : State) (w : Word) : State := { s with rdata := w, draws := s.draws + 1 }

/-- A host read of the CSR at word index i: exact, but a free value for a block-written CSR while BUSY (R49); reserved
offsets read 0 (R21). -/
def csrRead (i : BitVec 6) (s : State) : State :=
  match csrAt i with
  | none => s.answer 0
  | some r => if s.busy && !exactWhileBusy r then s.answerFree (freeRead s.draws) else s.answer (s.csrValue r)

/-- A host write of w to CMD (R114): accepted, dropped with OVR while BUSY (R120), or dropped while ERR = 1 (R119). The
SRESET word passes both gates and abandons a running command (R132). -/
def offerCommand (w : Word) (s : State) : State :=
  if w = 0x0000_0001#32 then
    match s.pending with
    | some c => (s.abandon c).accept w
    | none => s.accept w
  else if s.busy then { s with ovr := true }
  else if s.err then s
  else s.accept w

/-- A host write to an operand register: dropped with OVR while BUSY (R48, R120), else `t`. -/
def State.whenIdle (s t : State) : State := if s.busy then { s with ovr := true } else t

/-- A host write of w to a register: CTRL and STATUS at all times (R23, R24), the operand registers while idle (R48),
CMD as a command (R25); every other register is read-only and ignores it (R21). A write to ORIG_LEN takes effect after an
execution error too, and ends its being unspecified there (R32 against R117: DESIGN CHOICE, log 28). -/
def State.csrPut (s : State) (w : Word) : Csr → State
  | .ctrl => { s with ie := w.getLsbD 0 }
  | .status => if w.getLsbD 1 then { s with done := false } else s
  | .cmd => offerCommand w s
  | .srcAddr => s.whenIdle { s with srcAddr := w }
  | .srcLen => s.whenIdle { s with srcLen := w }
  | .dstAddr => s.whenIdle { s with dstAddr := w }
  | .arg => s.whenIdle { s with arg := w }
  | .origLen => s.whenIdle { s with origLen := w }
  | .idx => s.whenIdle { s with idx := w.setWidth 9 }
  | .id => s
  | .errInfo => s
  | .result => s
  | .htotal => s
  | .symcount => s
  | .nodeCount => s
  | .root => s
  | .optr => s
  | .pstate => s
  | .iptr => s
  | .iend => s
  | .ustate => s
  | .histRd => s
  | .nodeRd0 => s
  | .nodeRd1 => s
  | .ctLen => s
  | .ctCode _ => s
  | .ibufSz => s
  | .obufSz => s

/-- A host write of w to the CSR at word index i; the reserved offsets ignore it (R21). -/
def csrWrite (i : BitVec 6) (w : Word) (s : State) : State :=
  match csrAt i with
  | none => s
  | some r => s.csrPut w r

/-- A host read of a buffer byte; a free value while BUSY, where it is a race (R58; log 9). -/
def State.bufferRead (s : State) (v : Byte) : State :=
  if s.busy then s.answerFree ((freeByteRead s.draws).setWidth 32) else s.answer (v.setWidth 32)

/-- A host write of a buffer, done as `s`; while BUSY it is a race with the running command (R58). -/
def State.bufferWritten (s : State) : State := if s.busy then { s with raced := true } else s

/-- The effect of a host move (R59). A byte access outside a buffer has no transition (R59, U7): the named fault. A write
to an OBUF byte takes effect after an execution error too, and ends that byte's being unspecified there (R53 against R117:
DESIGN CHOICE, log 28). -/
def hostMove (m : HostMove) (s : State) : Host.Outcome State Fault Refusal :=
  match m with
  | .csrRead i => .next (csrRead i s)
  | .csrWrite i w => .next (csrWrite i w s)
  | .ibufRead a =>
    if a.toNat < s.params.ibufSize then .next (s.bufferRead (s.ibufByte a.toNat)) else .fault .hostAddressOutsideBuffer
  | .obufRead a =>
    if a.toNat < s.params.obufSize then .next (s.bufferRead (s.obufByte a.toNat)) else .fault .hostAddressOutsideBuffer
  | .ibufWrite a v =>
    if a.toNat < s.params.ibufSize then .next ({ s with ibuf := s.ibuf.set a.toNat v }.bufferWritten)
    else .fault .hostAddressOutsideBuffer
  | .obufWrite a v =>
    if a.toNat < s.params.obufSize then .next ({ s with obuf := s.obuf.set a.toNat v }.bufferWritten)
    else .fault .hostAddressOutsideBuffer
  | .resetPin => .next s.powerOn

end Sys2Proof.Machine
end

