-- ==== Sys2Proof/Machine/Step.lean ====
section
/-! DEFINITION. One step of the machine (R10, R114): the host's move or the block's turn, whichever comes next. -/

namespace Sys2Proof.Machine

open Sys2Proof

/-- One step: the first of the turns to come; with none left the host is silent and the block has the turn (log 1). -/
def step (s : State) : Host.Outcome State Fault Refusal :=
  match s.turns with
  | [] => blockTurn s
  | .block :: rest => blockTurn { s with turns := rest }
  | .host m :: rest => hostMove m { s with turns := rest }

/-- The machine with the table word w accepted as its pending command (R114), and the next turn the block's. HUFF-CORE
fetches nothing (R20): this stands for the host's accepted CMD write (log 2). -/
def State.withFetchWord (s : State) (_nbits w : Nat) : State :=
  { s.accept (BitVec.ofNat 32 w) with turns := .block :: s.turns }

end Sys2Proof.Machine
end

