-- ==== Sys2Proof/Safety.lean ====
section
/-! DEFINITION. What claims about HUFF-CORE are stated in: when the datapath is specified, the invariants of the
registers and memories, Huffman trees, code tables, bit streams in and out, and containers. -/

namespace Sys2Proof.Machine

open Sys2Proof Config

/-! ### When the datapath is specified -/

/-- Nothing has made the datapath unspecified: no error stands (R117) and no soft reset, which may have abandoned a
command (R132), is still pending. -/
def State.specified (s : State) : Prop := s.err = false ∧ s.pending ≠ some 0x0000_0001#32

/-! ### Registers and memories -/

/-- R38: ACC_N is 0..7 and ACC < 2^ACC_N. -/
def State.PackerOk (s : State) : Prop := s.accN.toNat < 8 ∧ s.acc.toNat < 2 ^ s.accN.toNat

/-- R39 and R40: IPTR ≤ IEND ≤ IBUF_SIZE, and IBIT = 0 where IPTR = IEND. -/
def State.UnpackerOk (s : State) : Prop :=
  s.iptr.toNat ≤ s.iend.toNat ∧ s.iend.toNat ≤ s.params.ibufSize ∧ (s.iptr = s.iend → s.ibit = 0)

/-- Σ_b HIST[b], exact. -/
def State.histSum (s : State) : Nat := (s.hist.toList.map BitVec.toNat).sum

/-- R33: HTOTAL is the sum of all HIST entries. -/
def State.HistOk (s : State) : Prop := s.htotal.toNat = s.histSum

/-- Both buffers are in canonical form and inside their sizes (R50). -/
def State.MemoryOk (s : State) : Prop := s.ibuf.wf s.params.ibufSize ∧ s.obuf.wf s.params.obufSize

/-- R47: PQ, WSTACK and DACC are empty between commands. -/
def State.HiddenEmpty (s : State) : Prop := s.pq = [] ∧ s.wstack = [] ∧ s.dacc = []

/-- R24: ERRCODE is 0x00 while ERR = 0. -/
def State.ErrcodeOk (s : State) : Prop := s.err = false → s.errcode = 0

/-- R26: no error since the reset, so ERR_INFO holds its reset value. -/
def State.ErrInfoOk (s : State) : Prop := s.err = false → s.errInfo = 0

/-- R119, R125: while ERR = 1 no command but SRESET is pending. -/
def State.ErrorBlocks (s : State) : Prop := s.err = true → s.pending = none ∨ s.pending = some 0x0000_0001#32

/-- R137: every piece of state but the buffers holds its reset value. (The NODE slots are unspecified; HIST and CTAB are
said entry by entry.) -/
structure State.AtReset (s : State) : Prop where
  ctrl : s.ie = false
  status : s.pending = none ∧ s.done = false ∧ s.err = false ∧ s.ovr = false ∧ s.treeValid = false ∧ s.tableValid = false
  error : s.errcode = 0 ∧ s.errInfo = 0
  operands : s.srcAddr = 0 ∧ s.srcLen = 0 ∧ s.dstAddr = 0 ∧ s.arg = 0 ∧ s.idx = 0
  results : s.result = 0 ∧ s.origLen = 0 ∧ s.htotal = 0
  tree : s.symcount = 0 ∧ s.nodeCount = 0 ∧ s.root = nilIdx
  packer : s.optr = 0 ∧ s.acc = 0 ∧ s.accN = 0
  unpacker : s.iptr = 0 ∧ s.iend = 0 ∧ s.ibit = 0
  hist : ∀ b, s.histAt b = 0
  ctab : ∀ b, s.ctabAt b = CodeEntry.invalid
  hidden : s.HiddenEmpty

/-- `t` differs from `s` at most in what the commands compute: HIST, HTOTAL, ORIG_LEN, NODE, NODE_COUNT, ROOT, SYMCOUNT,
CTAB, the validity bits, RESULT, the packer, the unpacker, the hidden PQ, WSTACK and DACC, and OBUF. -/
def SameButDatapath (s t : State) : Prop :=
  { t with
    hist := s.hist, htotal := s.htotal, origLen := s.origLen, node := s.node, nodeCount := s.nodeCount, root := s.root
    symcount := s.symcount, ctab := s.ctab, treeValid := s.treeValid, tableValid := s.tableValid, result := s.result
    optr := s.optr, acc := s.acc, accN := s.accN, iptr := s.iptr, iend := s.iend, ibit := s.ibit
    pq := s.pq, wstack := s.wstack, dacc := s.dacc, obuf := s.obuf } = s

/-! ### Trees -/

/-- A Huffman tree: the document's Leaf and Internal variants (R12). -/
inductive Tree where
  | leaf (b : Byte)
  | fork (l r : Tree)
deriving DecidableEq, Repr

/-- The bytes at the leaves, left to right. -/
def Tree.leaves : Tree → List Byte
  | .leaf b => [b]
  | .fork l r => l.leaves ++ r.leaves

/-- The leaves with their paths (R80): 0 to the left child, 1 to the right. -/
def Tree.codes (p : Bits) : Tree → List (Byte × Bits)
  | .leaf b => [(b, p)]
  | .fork l r => l.codes (p ++ [false]) ++ r.codes (p ++ [true])

/-- The code table of a tree (R81): the lone leaf gets the code [0], every other leaf its path. -/
def Tree.table : Tree → List (Byte × Bits)
  | .leaf b => [(b, [false])]
  | .fork l r => (Tree.fork l r).codes []

/-- The arena holds tree `t` at index `i` (R44). -/
def State.Represents (s : State) (i : NodeIdx) : Tree → Prop
  | .leaf b => (s.nodeAt i).kind = .leaf ∧ (s.nodeAt i).sym = b
  | .fork l r => (s.nodeAt i).kind = .internal ∧ s.Represents (s.nodeAt i).left l ∧ s.Represents (s.nodeAt i).right r

/-- The bytes present in the frequency map (R43), ascending. -/
def State.present (s : State) : List Byte := allBytes.filter fun b => s.histAt b != 0

/-- The count of the bytes at the leaves below a node: Σ of HIST over the leaves (R77(e)). -/
def State.weight (s : State) (t : Tree) : Nat := (t.leaves.map fun b => (s.histAt b).toNat).sum

/-- The leaf BUILD allocates for byte b (R76). -/
def State.leafNode (s : State) (b : Byte) : Node :=
  { kind := .leaf, sym := b, freq := s.histAt b, left := nilIdx, right := nilIdx }

/-- Node j is a child of the internal node i. -/
def State.ChildOf (s : State) (j i : NodeIdx) : Prop :=
  (s.nodeAt i).kind = .internal ∧ ((s.nodeAt i).left = j ∨ (s.nodeAt i).right = j)

/-- Node j waits in the queue when node i is allocated: it exists by then, and no node before i has taken it. -/
def State.Waiting (s : State) (i j : NodeIdx) : Prop := j.toNat < i.toNat ∧ ∀ k : NodeIdx, k.toNat < i.toNat → ¬ s.ChildOf j k

/-- Node i merges the two waiting nodes of least key (R74, R76): the least is its left child, the next its right. -/
structure State.MergesLeast (s : State) (i : NodeIdx) : Prop where
  kind : (s.nodeAt i).kind = .internal
  sym : (s.nodeAt i).sym = 0
  freq : (s.nodeAt i).freq = (s.nodeAt (s.nodeAt i).left).freq + (s.nodeAt (s.nodeAt i).right).freq
  left : s.Waiting i (s.nodeAt i).left
  right : s.Waiting i (s.nodeAt i).right
  order : s.keyLess (s.nodeAt i).left (s.nodeAt i).right = true
  least : ∀ j, s.Waiting i j → j ≠ (s.nodeAt i).left → j ≠ (s.nodeAt i).right → s.keyLess (s.nodeAt i).right j = true

/-- The arena of a built tree (R77) for a frequency map with at least one byte present. -/
structure State.Built (s : State) : Prop where
  nodeCount : s.nodeCount.toNat + 1 = 2 * s.present.length
  root : s.root.toNat + 2 = 2 * s.present.length
  leaf : ∀ (i : Nat) (h : i < s.present.length), s.nodeAt (BitVec.ofNat 9 i) = s.leafNode s.present[i]
  merge : ∀ i : NodeIdx, s.present.length ≤ i.toNat → i.toNat < s.nodeCount.toNat → s.MergesLeast i
  parent : ∀ j : NodeIdx, j.toNat < s.nodeCount.toNat → j ≠ s.root →
    ∃! i : NodeIdx, i.toNat < s.nodeCount.toNat ∧ s.ChildOf j i

/-- R45: with TREE_VALID the arena holds no tree (ROOT = NIL) or one with distinct bytes at its leaves. -/
def State.TreeOk (s : State) : Prop :=
  s.treeValid = true → s.root = nilIdx ∨ ∃ t, s.Represents s.root t ∧ t.leaves.Nodup

/-! ### Code tables -/

/-- No code of the table is a prefix of another's (R46, R104). -/
def PrefixFree (table : List (Byte × Bits)) : Prop := table.Pairwise fun e f => ¬ e.2 <+: f.2 ∧ ¬ f.2 <+: e.2

/-- R46: an invalid entry has no code, and with TABLE_VALID the codes are prefix-free and SYMCOUNT counts them. -/
def State.TableOk (s : State) : Prop :=
  (∀ b, (s.ctabAt b).valid = false → (s.ctabAt b).code = []) ∧
  (s.tableValid = true → PrefixFree (validCodes s.ctab) ∧ s.symcount.toNat = (validCodes s.ctab).length)

/-- The invariants of the datapath together: R33, R38, R39 and R40, R45, R46, R47. -/
structure State.DatapathOk (s : State) : Prop where
  hist : s.HistOk
  packer : s.PackerOk
  unpacker : s.UnpackerOk
  tree : s.TreeOk
  table : s.TableOk
  hidden : s.HiddenEmpty

/-- The code of b is c (R46). -/
def State.HasCode (s : State) (b : Byte) (c : Bits) : Prop := s.ctabAt b = ⟨true, c⟩

/-! ### Streams -/

/-- The bytes of IBUF[a .. a + n). -/
def State.ibufBytes (s : State) (a n : Nat) : List Byte := (List.range' a n).map s.ibufByte

/-- The input operand IBUF[SRC_ADDR .. SRC_ADDR + SRC_LEN). -/
def State.source (s : State) : List Byte := s.ibufBytes s.srcAddr.toNat s.srcLen.toNat

/-- The bytes of OBUF[a .. a + n). -/
def State.obufBytes (s : State) (a n : Nat) : List Byte := (List.range' a n).map s.obufByte

/-- `unpack`: each byte as 8 bits, most significant first (R51, R94). -/
def unpackBytes (bs : List Byte) : Bits := bs.flatMap fun b => bitsMsb b.toNat 8

/-- The bits the unpacker has still to deliver (R94). -/
def State.inputBits (s : State) : Bits :=
  (unpackBytes (s.ibufBytes s.iptr.toNat (s.iend.toNat - s.iptr.toNat))).drop s.ibit.toNat

/-- The pending bits of the packer, first appended first (R38). -/
def State.pendingBits (s : State) : Bits := bitsMsb s.acc.toNat s.accN.toNat

/-- The number of bytes the packer completes when `bs` is appended. -/
def State.bytesDone (s : State) (bs : Bits) : Nat := (s.accN.toNat + bs.length) / 8

/-- The bytes that appending `bs` completes fit: none, or OPTR + their number ≤ OBUF_SIZE (R87). -/
def State.Room (s : State) (bs : Bits) : Prop :=
  s.bytesDone bs = 0 ∨ s.optr.toNat + s.bytesDone bs ≤ s.params.obufSize

/-- The packer of `t` is that of `s` with `bs` appended (R86, R87): the completed bytes stand at OPTR upward, most
significant bit first; every other byte of OBUF reads as before; the bits left over are pending. -/
def Packed (s t : State) (bs : Bits) : Prop :=
  t.optr.toNat = s.optr.toNat + s.bytesDone bs ∧
  unpackBytes (t.obufBytes s.optr.toNat (s.bytesDone bs)) ++ t.pendingBits = s.pendingBits ++ bs ∧
  t.PackerOk ∧
  ∀ a, a < s.optr.toNat ∨ s.optr.toNat + s.bytesDone bs ≤ a → t.obufByte a = s.obufByte a

/-- `t` differs from `s` at most in the packer's registers and OBUF. -/
def SameButPacker (s t : State) : Prop :=
  { t with optr := s.optr, acc := s.acc, accN := s.accN, obuf := s.obuf } = s

/-- `t` differs from `s` at most in the unpacker's pointer and bit index. -/
def SameButUnpacker (s t : State) : Prop := { t with iptr := s.iptr, ibit := s.ibit } = s

/-! ### Containers -/

/-- One table entry of a container as a reader meets it (R101, R103): the padding may be any bits (R108). -/
structure Entry where
  byte : Byte
  code : Bits
  pad : Bits
deriving DecidableEq, Repr

/-- The bits of an entry. -/
def Entry.bits (e : Entry) : Bits := bitsMsb e.byte.toNat 8 ++ bitsMsb e.code.length 8 ++ e.code ++ e.pad

/-- The bits of a header (R100). -/
def headerStream (es : List Entry) (origLen : Nat) : Bits :=
  bitsMsb es.length 16 ++ es.flatMap Entry.bits ++ bitsMsb origLen 32

/-- The table of a header: each byte with its code. -/
def tableOf (es : List Entry) : List (Byte × Bits) := es.map fun e => (e.byte, e.code)

/-- An entry PARSE accepts by itself in a header of `cnt` entries (R103). -/
structure GoodEntry (cnt : Nat) (e : Entry) : Prop where
  codeLength : e.code.length ≤ 255
  padLength : e.pad.length = wholeBytes e.code.length - e.code.length
  zeroLength : e.code = [] → cnt = 1

/-- A header PARSE accepts (R103, R104). -/
structure LegalHeader (es : List Entry) (origLen : Nat) : Prop where
  count : es.length ≤ 256
  distinct : (es.map Entry.byte).Nodup
  codeLength : ∀ e ∈ es, e.code.length ≤ 255
  padLength : ∀ e ∈ es, e.pad.length = wholeBytes e.code.length - e.code.length
  zeroLength : ∀ e ∈ es, e.code = [] → es.length = 1
  prefixFree : PrefixFree (tableOf es)
  length : origLen < 2 ^ 32
  empty : es = [] → origLen = 0

/-- The code of b in a table, if it has one. -/
def codeIn (table : List (Byte × Bits)) (b : Byte) : Option Bits := table.lookup b

/-- The CTAB of `s` is exactly `table`: its entries valid with their codes, every other entry invalid. -/
def State.TableIs (s : State) (table : List (Byte × Bits)) : Prop :=
  ∀ b, s.ctabAt b = match codeIn table b with
    | some c => ⟨true, c⟩
    | none => CodeEntry.invalid

/-- The payload of a byte sequence under a code of each byte: the codes back to back (R92). -/
def payload (code : Byte → Bits) (bs : List Byte) : Bits := bs.flatMap code

/-- CTAB[b].code. -/
def State.codeOf (s : State) (b : Byte) : Bits := (s.ctabAt b).code

/-- The entries of the code table in ascending byte value, each code zero-padded to whole bytes (R101, R102). -/
def State.tableEntries (s : State) : List Entry :=
  (allBytes.filter fun b => (s.ctabAt b).valid).map fun b =>
    { byte := b, code := s.codeOf b, pad := zeros (8 * (((s.codeOf b).length + 7) / 8) - (s.codeOf b).length) }

/-- A stream whose header PARSE rejects, with the error and its ERR_INFO (R103, R104, R115). What stands before the offence
is as PARSE accepts it, and `rest` is whatever follows. -/
inductive BadHeader : Bits → ErrorCode → Nat → Prop
  | count (cnt : Nat) (rest : Bits) (h : 256 < cnt) (h16 : cnt < 2 ^ 16) :
      BadHeader (bitsMsb cnt 16 ++ rest) .fmtCount cnt
  | duplicate (cnt : Nat) (es : List Entry) (b : Byte) (rest : Bits) (hc : cnt ≤ 256) (hn : es.length < cnt)
      (hg : ∀ e ∈ es, GoodEntry cnt e) (hd : (es.map Entry.byte).Nodup) (h : b ∈ es.map Entry.byte) :
      BadHeader (bitsMsb cnt 16 ++ es.flatMap Entry.bits ++ bitsMsb b.toNat 8 ++ rest) .fmtDupSymbol b.toNat
  | zeroLength (cnt : Nat) (es : List Entry) (b : Byte) (rest : Bits) (hc : cnt ≤ 256) (hn : es.length < cnt)
      (hg : ∀ e ∈ es, GoodEntry cnt e) (hd : (es.map Entry.byte).Nodup) (hb : b ∉ es.map Entry.byte) (h : cnt ≠ 1) :
      BadHeader (bitsMsb cnt 16 ++ es.flatMap Entry.bits ++ bitsMsb b.toNat 8 ++ zeros 8 ++ rest) .fmtZeroLen b.toNat
  | clash (es : List Entry) (e f : Entry) (rest : Bits) (hc : es.length ≤ 256) (hg : ∀ e ∈ es, GoodEntry es.length e)
      (hd : (es.map Entry.byte).Nodup) (he : e ∈ es) (hf : f ∈ es) (hlt : e.byte.toNat < f.byte.toNat)
      (h : e.code <+: f.code ∨ f.code <+: e.code)
      (hfirst : ∀ x ∈ es, ∀ y ∈ es, x.byte.toNat < y.byte.toNat → (x.code <+: y.code ∨ y.code <+: x.code) →
        e.byte.toNat < x.byte.toNat ∨ e.byte = x.byte ∧ f.byte.toNat ≤ y.byte.toNat) :
      BadHeader (bitsMsb es.length 16 ++ es.flatMap Entry.bits ++ rest) .fmtNotPrefixFree
        (e.byte.toNat + 256 * f.byte.toNat)
  | emptyTable (orig : Nat) (rest : Bits) (h : 0 < orig) (h32 : orig < 2 ^ 32) :
      BadHeader (zeros 16 ++ bitsMsb orig 32 ++ rest) .fmtEmptyTable orig

/-- The length of a container (R113): the header of R109 and ceil(B/8) payload bytes. -/
def containerLength (table : List (Byte × Bits)) (payloadBits : Nat) : Nat :=
  6 + (table.map fun e => 2 + (e.2.length + 7) / 8).sum + (payloadBits + 7) / 8

/-- The first stage of ENCODE (R110), up to the code table: the bodies of HCLR, COUNT, BUILD and GEN. -/
def tableStage (s : State) : Except Raise State := do
  let s ← bodyHclr s
  let s ← bodyCount s
  let s ← bodyBuild s
  bodyGen s

end Sys2Proof.Machine
end

