-- ==== Sys2Proof/Certificates/Slice0/Obligations.lean ====
section
/-! DEFINITION. The statements for the provers, from the numbered rules of spec/, file by file. -/

open Sys2Proof Sys2Proof.Machine Sys2Proof.Config

/-! ### Encoding (30_encoding.md) -/

/-- R60 to R65: a word decodes to command i exactly when i is well-formed and the word is i's. -/
def Obligations.DecodeEncodeInverse : Prop :=
  ∀ (w : Word) (i : Instr), decode w = .ok i ↔ i.wellFormed = true ∧ encode i = w

/-- R63: each row of the opcode map decodes to its command, and every opcode not listed is unassigned. -/
def Obligations.OpcodeMapDecodes : Prop :=
  decode 0x0000_0000#32 = .ok .nop ∧ decode 0x0000_0001#32 = .ok .sreset ∧ decode 0x0000_0010#32 = .ok .hclr ∧
  decode 0x0000_0011#32 = .ok .count ∧ decode 0x0000_0020#32 = .ok .build ∧ decode 0x0000_0021#32 = .ok .gen ∧
  decode 0x0000_0030#32 = .ok .pinit ∧ decode 0x0000_0032#32 = .ok .psym ∧ decode 0x0000_0033#32 = .ok .pflush ∧
  decode 0x0000_0038#32 = .ok .uinit ∧ decode 0x0000_003A#32 = .ok .ualign ∧ decode 0x0000_0040#32 = .ok .thdr ∧
  decode 0x0000_0041#32 = .ok .parse ∧ decode 0x0000_0042#32 = .ok .dsym ∧ decode 0x0000_0050#32 = .ok .encode ∧
  decode 0x0000_0051#32 = .ok .decode ∧
  (∀ n : BitVec 6, 1 ≤ n.toNat → n.toNat ≤ 32 →
    decode (0x0000_0031#32 ||| n.setWidth 32 <<< 8) = .ok (.putb n) ∧
    decode (0x0000_0039#32 ||| n.setWidth 32 <<< 8) = .ok (.getb n)) ∧
  ∀ w : Word, w.toNat % 256 ∉ [0x00, 0x01, 0x10, 0x11, 0x20, 0x21, 0x30, 0x31, 0x32, 0x33, 0x38, 0x39, 0x3A, 0x40, 0x41,
    0x42, 0x50, 0x51] → decode w = .error .unassignedOpcode

/-- R64: a word is ILLEGAL exactly when its opcode is not assigned, or it is of format FN with a bit of 31:14 set or N
outside 1..32, or it is of format F0 with a bit of 31:8 set. -/
def Obligations.IllegalWordsExactly : Prop :=
  ∀ w : Word, (∃ r, decode w = .error r) ↔
    if w.toNat % 256 ∈ [0x31, 0x39] then
      w.toNat / 2 ^ 14 ≠ 0 ∨ w.toNat / 256 % 64 = 0 ∨ 32 < w.toNat / 256 % 64
    else if w.toNat % 256 ∈ [0x00, 0x01, 0x10, 0x11, 0x20, 0x21, 0x30, 0x32, 0x33, 0x38, 0x3A, 0x40, 0x41, 0x42, 0x50, 0x51]
    then w.toNat / 256 ≠ 0
    else True

/-! ### The step (60_exceptions.md R114, R133) -/

/-- A step runs the decoded command: with word w pending and the block's turn next (or no turn left to the host), the
step is exec of the command w decodes to, and then completion. The machine of `withFetchWord` does just that next. An idle
block keeps all its state (R130). The turns are the model's own choice (log 1), and so is that `withFetchWord` stands for
an accepted CMD write (log 2). -/
def Obligations.StepRunsDecodedCommand : Prop :=
  (∀ (s t : State) (w : Word) (i : Instr), s.pending = some w → decode w = .ok i → s.raced = false →
    (s.turns = [] ∨ s.turns.head? = some .block) → exec i { s with turns := s.turns.tail } = .next t →
      step s = .next { t with pending := none, done := true, raced := false }) ∧
  (∀ (s t : State) (n w : Nat) (i : Instr), decode (BitVec.ofNat 32 w) = .ok i →
    exec i (s.accept (BitVec.ofNat 32 w)) = .next t →
      step (s.withFetchWord n w) = .next { t with pending := none, done := true, raced := false }) ∧
  ∀ s : State, s.pending = none → (s.turns = [] ∨ s.turns.head? = some .block) →
    step s = .next { s with turns := s.turns.tail }

/-- R64, R116: executing an ILLEGAL word raises ILLEGAL_CMD with the word, and changes nothing else but the completion
bits. Where the host raced, every OBUF byte is unspecified as well (R58). (The turns, the race mark and the count of draws
are the model's own, log 1, log 9 and log 6.) -/
def Obligations.IllegalCommandRaises : Prop :=
  ∀ (s : State) (w : Word) (r : Illegal), s.pending = some w → decode w = .error r →
    (s.turns = [] ∨ s.turns.head? = some .block) → ∃ (o : Memory) (d : Nat),
      step s = .next { s with turns := s.turns.tail, err := true, errcode := 0x01#8, errInfo := w, pending := none
                              done := true, raced := false, obuf := o, draws := d } ∧
      (s.raced = false → o = s.obuf ∧ d = s.draws)

/-- R114, R133: the block's step on any pending word completes, with BUSY = 0 and DONE = 1. (The turns are the model's own,
log 1.) -/
def Obligations.EveryCommandCompletes : Prop :=
  ∀ (s : State) (w : Word), s.pending = some w → (s.turns = [] ∨ s.turns.head? = some .block) →
    ∃ t, step s = .next t ∧ t.busy = false ∧ t.pending = none ∧ t.done = true ∧ t.turns = s.turns.tail

/-! ### Control (40_control.md) and reset (70_reset_and_hazards.md) -/

/-- R70: NOP does nothing but complete; while ERR = 1 its word is dropped; a NOP word with a bit of 31:8 set is ILLEGAL.
(The turns are the model's own, log 1.) -/
def Obligations.NopOnlyCompletes : Prop :=
  decode 0x0000_0000#32 = .ok .nop ∧ (∀ s : State, exec .nop s = .next s) ∧
  (∀ s : State, s.pending = none → s.err = false → s.raced = false → (s.turns = [] ∨ s.turns.head? = some .block) →
    step (csrWrite 3 0x0000_0000#32 s) = .next { s with turns := s.turns.tail, done := true }) ∧
  (∀ s : State, s.pending = none → s.err = true → csrWrite 3 0x0000_0000#32 s = s) ∧
  ∀ w : Word, w.toNat % 256 = 0 → w ≠ 0 → decode w = .error .nonzeroZeroField

/-- R71, R135 to R137: SRESET puts every piece of state at its reset value, and keeps IBUF and OBUF; RST_N puts every
piece of state but the buffers at its reset value, with IRQ low and the block idle. (RST_N as one move is the model's
choice, log 15; turns and rdata are the model's own, log 1 and log 11.) -/
def Obligations.ResetsRestoreResetValues : Prop :=
  decode 0x0000_0001#32 = .ok .sreset ∧ ∀ s : State,
    (∃ t, exec .sreset s = .next t ∧ t.AtReset ∧ t.ibuf = s.ibuf ∧ t.obuf = s.obuf ∧ t.params = s.params ∧
      t.turns = s.turns ∧ t.rdata = s.rdata) ∧
    ∃ t, hostMove .resetPin s = .next t ∧ t.AtReset ∧ t.irq = false ∧ t.busy = false ∧ t.done = false ∧
      t.params = s.params ∧ t.turns = s.turns

/-- R132, R136: a SRESET word written while BUSY abandons the running command; the soft reset that follows leaves the
reset state with DONE = 1 and IBUF unchanged. (OBUF is unspecified; nothing is said of it. The turns are the
model's own, log 1.) -/
def Obligations.AbandonedCommandResets : Prop :=
  ∀ s : State, s.busy = true → (s.turns = [] ∨ s.turns.head? = some .block) →
    ∃ t, step (csrWrite 3 0x0000_0001#32 s) = .next t ∧ State.AtReset { t with done := false } ∧ t.done = true ∧
      t.ibuf = s.ibuf ∧ t.params = s.params ∧ t.turns = s.turns.tail

/-- R137: the state after reset, and what the host reads in every CSR then (10_state.md R21). -/
def Obligations.ResetStateReads : Prop :=
  State.reset.AtReset ∧ State.reset.irq = false ∧
  State.reset.csrValue .id = 0x4855_4646#32 ∧ State.reset.csrValue .root = 0x0000_01FF#32 ∧
  State.reset.csrValue .ibufSz = BitVec.ofNat 32 State.reset.params.ibufSize ∧
  State.reset.csrValue .obufSz = BitVec.ofNat 32 State.reset.params.obufSize ∧
  ∀ r, r ≠ .id → r ≠ .root → r ≠ .ibufSz → r ≠ .obufSz → State.reset.csrValue r = 0

/-- R138: after reset GEN raises NO_TREE; PSYM, THDR and DSYM raise NO_TABLE; GETB raises IN_EXHAUSTED; PARSE raises
FMT_TRUNCATED(0); and a COUNT may follow without HCLR. -/
def Obligations.CommandsAfterReset : Prop :=
  ∀ s : State, s.AtReset →
    exec .gen s = .next (s.recordError .noTree 0) ∧ exec .psym s = .next (s.recordError .noTable 0) ∧
    exec .thdr s = .next (s.recordError .noTable 0) ∧ exec .dsym s = .next (s.recordError .noTable 0) ∧
    (∀ n, (Instr.getb n).wellFormed = true → exec (.getb n) s = .next (s.takeError ⟨.inExhausted, 0⟩)) ∧
    exec .parse s = .next (s.takeError ⟨.fmtTruncated, 0⟩) ∧ s.HistOk

/-! ### The CSR window and the host (10_state.md, 20_memory.md, 60_exceptions.md) -/

/-- R21, R23, R24, R25, R48: which register stands at which word offset (byte offset / 4), the reserved offsets 0x8C to
0xFC (read 0, writes ignored), and what a host write to each register does. The operand registers are dropped, with OVR set,
while BUSY; CTRL takes bit 0 and STATUS clears DONE at all times; every other register but CMD ignores the write. (What a read
returns is held in the model's own rdata, log 11. That a write to ORIG_LEN takes effect after an execution error, where R117
leaves it unspecified, is the model's choice, log 28.) -/
def Obligations.RegisterMapAndWrites : Prop :=
  (List.range 35).map (fun i => csrAt (BitVec.ofNat 6 i)) =
    [some .id, some .ctrl, some .status, some .cmd, some .errInfo, some .srcAddr, some .srcLen, some .dstAddr, some .arg,
     some .result, some .origLen, some .htotal, some .symcount, some .nodeCount, some .root, some .optr, some .pstate,
     some .iptr, some .iend, some .ustate, some .idx, some .histRd, some .nodeRd0, some .nodeRd1, some .ctLen,
     some (.ctCode 0), some (.ctCode 1), some (.ctCode 2), some (.ctCode 3), some (.ctCode 4), some (.ctCode 5),
     some (.ctCode 6), some (.ctCode 7), some .ibufSz, some .obufSz] ∧
  (∀ (i : BitVec 6) (w : Word) (s : State), 35 ≤ i.toNat → csrRead i s = { s with rdata := 0 } ∧ csrWrite i w s = s) ∧
  (∀ (i : BitVec 6) (w : Word) (s : State) (r : Csr), csrAt i = some r → csrWrite i w s = s.csrPut w r) ∧
  ∀ (s : State) (w : Word),
    (s.busy = true → ∀ r ∈ [Csr.srcAddr, Csr.srcLen, Csr.dstAddr, Csr.arg, Csr.origLen, Csr.idx],
      s.csrPut w r = { s with ovr := true }) ∧
    (s.busy = false → s.csrPut w .srcAddr = { s with srcAddr := w } ∧ s.csrPut w .srcLen = { s with srcLen := w } ∧
      s.csrPut w .dstAddr = { s with dstAddr := w } ∧ s.csrPut w .arg = { s with arg := w } ∧
      s.csrPut w .origLen = { s with origLen := w } ∧ s.csrPut w .idx = { s with idx := w.setWidth 9 }) ∧
    s.csrPut w .ctrl = { s with ie := w.getLsbD 0 } ∧
    s.csrPut w .status = { s with done := s.done && !w.getLsbD 1 } ∧
    ∀ r, r ∉ [Csr.srcAddr, .srcLen, .dstAddr, .arg, .origLen, .idx, .ctrl, .status, .cmd] → s.csrPut w r = s

/-- R114, R119, R120: what happens to a word written to CMD. Where SRESET's word abandons the command c (R132), IBUF is as
it was; what the host owns, ERR, ERRCODE, ERR_INFO and OVR are too unless c is SRESET itself, and TREE_VALID and TABLE_VALID
unless c is a command that writes them (R45). An abandoned SRESET, if the host did not race with it, left all of those as
they were or reset them all (log 10: the point an abandoned command reaches is the model's choice). -/
def Obligations.CommandAcceptance : Prop :=
  ∀ (s : State) (w : Word),
    (w ≠ 0x0000_0001#32 → s.busy = true → csrWrite 3 w s = { s with ovr := true }) ∧
    (w ≠ 0x0000_0001#32 → s.busy = false → s.err = true → csrWrite 3 w s = s) ∧
    (w ≠ 0x0000_0001#32 → s.busy = false → s.err = false →
      csrWrite 3 w s = { s with done := false, pending := some w, raced := false }) ∧
    (s.busy = false → csrWrite 3 0x0000_0001#32 s = { s with done := false, pending := some 0x0000_0001#32, raced := false }) ∧
    ∀ c : Word, s.pending = some c → ∃ t, csrWrite 3 0x0000_0001#32 s = t ∧ t.pending = some 0x0000_0001#32 ∧
      t.done = false ∧ t.ibuf = s.ibuf ∧ t.params = s.params ∧
      (c ≠ 0x0000_0001#32 → t.err = s.err ∧ t.errcode = s.errcode ∧ t.errInfo = s.errInfo ∧ t.ovr = s.ovr ∧ t.ie = s.ie ∧
        t.srcAddr = s.srcAddr ∧ t.srcLen = s.srcLen ∧ t.dstAddr = s.dstAddr ∧ t.arg = s.arg ∧ t.idx = s.idx) ∧
      (c = 0x0000_0001#32 → s.raced = false →
        (t.err = s.err ∧ t.errcode = s.errcode ∧ t.errInfo = s.errInfo ∧ t.ovr = s.ovr ∧ t.ie = s.ie ∧
          t.srcAddr = s.srcAddr ∧ t.srcLen = s.srcLen ∧ t.dstAddr = s.dstAddr ∧ t.arg = s.arg ∧ t.idx = s.idx ∧
          t.treeValid = s.treeValid ∧ t.tableValid = s.tableValid) ∨
        (t.err = false ∧ t.errcode = 0 ∧ t.errInfo = 0 ∧ t.ovr = false ∧ t.ie = false ∧ t.srcAddr = 0 ∧ t.srcLen = 0 ∧
          t.dstAddr = 0 ∧ t.arg = 0 ∧ t.idx = 0 ∧ t.treeValid = false ∧ t.tableValid = false)) ∧
      ((∀ i ∈ [Instr.hclr, .count, .build, .encode, .sreset], decode c ≠ .ok i) → t.treeValid = s.treeValid) ∧
      ((∀ i ∈ [Instr.build, .gen, .parse, .encode, .decode, .sreset], decode c ≠ .ok i) → t.tableValid = s.tableValid)

/-- R49, R53: a CSR read returns the exact value while idle, and while BUSY for the registers R49 lists; for CMD too, which
R25 has read 0 and R49 does not list (the model's deduction, log 24). It has no side effect (the returned data, log 11, and
the count of free values drawn, log 6, apart, which are the model's own). -/
def Obligations.CsrReadsExact : Prop :=
  ∀ (s : State) (i : BitVec 6) (r : Csr), csrAt i = some r →
    (∃ x d, csrRead i s = { s with rdata := x, draws := d }) ∧
    (s.busy = false ∨ r ∈ [Csr.id, .ctrl, .status, .cmd, .srcAddr, .srcLen, .dstAddr, .arg, .idx, .ibufSz, .obufSz] →
      csrRead i s = { s with rdata := s.csrValue r })

/-- R22 to R42: what each register reads: STATUS, CTRL and PSTATE by their fields, the narrow registers zero-extended, and
the 32-bit registers whole. (The windows are WindowsShowMemories.) -/
def Obligations.RegisterLayouts : Prop :=
  ∀ s : State,
    s.csrValue .id = 0x4855_4646#32 ∧ s.csrValue .cmd = 0 ∧
    (s.csrValue .status).toNat = s.busy.toNat + 2 * s.done.toNat + 4 * s.err.toNat + 8 * s.ovr.toNat +
      16 * s.treeValid.toNat + 32 * s.tableValid.toNat + 256 * s.errcode.toNat ∧
    (s.csrValue .ctrl).toNat = s.ie.toNat ∧ (s.csrValue .pstate).toNat = s.acc.toNat + 256 * s.accN.toNat ∧
    (s.csrValue .symcount).toNat = s.symcount.toNat ∧ (s.csrValue .nodeCount).toNat = s.nodeCount.toNat ∧
    (s.csrValue .root).toNat = s.root.toNat ∧ (s.csrValue .ustate).toNat = s.ibit.toNat ∧
    s.csrValue .errInfo = s.errInfo ∧ s.csrValue .srcAddr = s.srcAddr ∧ s.csrValue .srcLen = s.srcLen ∧
    s.csrValue .dstAddr = s.dstAddr ∧ s.csrValue .arg = s.arg ∧ s.csrValue .result = s.result ∧
    s.csrValue .origLen = s.origLen ∧ s.csrValue .htotal = s.htotal ∧ s.csrValue .optr = s.optr ∧
    s.csrValue .iptr = s.iptr ∧ s.csrValue .iend = s.iend ∧
    (s.csrValue .idx).toNat = s.idx.toNat ∧ (s.csrValue .ibufSz).toNat = s.params.ibufSize ∧
    (s.csrValue .obufSz).toNat = s.params.obufSize

/-- R42: the windows show HIST, NODE and CTAB at IDX: the code left-aligned, first bit in bit 31 of CT_CODE0. -/
def Obligations.WindowsShowMemories : Prop :=
  ∀ (s : State) (b : Byte), b.toNat = s.idx.toNat % 256 →
    s.csrValue .histRd = s.histAt b ∧
    (s.csrValue .ctLen).toNat = 2 ^ 31 * (s.ctabAt b).valid.toNat + (s.ctabAt b).len.toNat ∧
    (∀ (k : Fin 8) (j : Nat), j < 32 →
      (s.csrValue (.ctCode k)).getLsbD (31 - j) = (s.ctabAt b).code.getD (32 * k.val + j) false) ∧
    (s.nodeCount.toNat ≤ s.idx.toNat → s.csrValue .nodeRd0 = 0 ∧ s.csrValue .nodeRd1 = 0) ∧
    (s.idx.toNat < s.nodeCount.toNat → s.csrValue .nodeRd1 = (s.nodeAt s.idx).freq ∧
      ((s.nodeAt s.idx).kind = .leaf → (s.csrValue .nodeRd0).toNat = 2 ^ 31 + (s.nodeAt s.idx).sym.toNat) ∧
      ((s.nodeAt s.idx).kind = .internal → (s.csrValue .nodeRd0).toNat =
        2 ^ 31 + 2 ^ 30 + 2 ^ 16 * (s.nodeAt s.idx).right.toNat + (s.nodeAt s.idx).left.toNat))

/-- R53: while idle a host buffer write changes only the addressed byte, and a host buffer read returns the byte and
changes nothing else but the model's own rdata (log 11). (That a write to an OBUF byte takes effect after an execution error,
where R117 leaves it unspecified, is the model's choice, log 28.) -/
def Obligations.BufferAccesses : Prop :=
  ∀ (s : State) (a : Word) (v : Byte), s.busy = false →
    (a.toNat < s.params.ibufSize →
      hostMove (.ibufRead a) s = .next { s with rdata := (s.ibufByte a.toNat).setWidth 32 } ∧
      ∃ t, hostMove (.ibufWrite a v) s = .next t ∧ t = { s with ibuf := t.ibuf } ∧
        ∀ x, t.ibufByte x = if x = a.toNat then v else s.ibufByte x) ∧
    (a.toNat < s.params.obufSize →
      hostMove (.obufRead a) s = .next { s with rdata := (s.obufByte a.toNat).setWidth 32 } ∧
      ∃ t, hostMove (.obufWrite a v) s = .next t ∧ t = { s with obuf := t.obuf } ∧
        ∀ x, t.obufByte x = if x = a.toNat then v else s.obufByte x)

/-- R123: IRQ = CTRL.IE ∧ STATUS.DONE. It is low while IE = 0; a completion with IE = 1 raises it; a STATUS write with bit
1 set, or the acceptance of a command, takes it low. -/
def Obligations.InterruptLevel : Prop :=
  ∀ s : State, s.irq = (s.ie && s.done) ∧ (s.ie = false → s.irq = false) ∧
    (s.ie = true → s.complete.irq = true) ∧ (∀ w : Word, w.getLsbD 1 = true → (csrWrite 2 w s).irq = false) ∧
    ∀ w : Word, s.busy = false → s.err = false → (csrWrite 3 w s).irq = false

/-! ### Frequency counter (41_histogram.md) -/

/-- R72: HCLR. -/
def Obligations.HclrClearsMap : Prop :=
  decode 0x0000_0010#32 = .ok .hclr ∧ ∀ s : State, ∃ t, exec .hclr s = .next t ∧ (∀ b, t.histAt b = 0) ∧
    t = { s with hist := t.hist, htotal := 0, origLen := 0, treeValid := false }

/-- R73: COUNT adds to each entry the occurrences of its byte in the source, and its errors in their order. -/
def Obligations.CountAddsOccurrences : Prop :=
  decode 0x0000_0011#32 = .ok .count ∧ ∀ s : State,
    (s.params.ibufSize < s.srcAddr.toNat + s.srcLen.toNat → exec .count s = .next (s.recordError .range s.srcAddr)) ∧
    (s.srcAddr.toNat + s.srcLen.toNat ≤ s.params.ibufSize → 2 ^ 32 - 1 < s.htotal.toNat + s.srcLen.toNat →
      exec .count s = .next (s.recordError .countOverflow s.htotal)) ∧
    (s.HistOk → s.srcAddr.toNat + s.srcLen.toNat ≤ s.params.ibufSize → s.htotal.toNat + s.srcLen.toNat ≤ 2 ^ 32 - 1 →
      ∃ t, exec .count s = .next t ∧
        t = { s with hist := t.hist, htotal := t.htotal, origLen := t.htotal, treeValid := false } ∧
        t.htotal.toNat = s.htotal.toNat + s.srcLen.toNat ∧
        ∀ b, (t.histAt b).toNat = (s.histAt b).toNat + s.source.count b)

/-! ### Tree builder (42_tree_builder.md) -/

/-- R74: extract_min removes and returns the index of least key, frequency first and then index; insert adds an index, to
the empty queue too. (The queue as a list is the model's choice, log 22.) -/
def Obligations.ExtractMinTakesLeastKey : Prop :=
  (∀ s : State, s.pq ≠ [] → s.pq.Nodup → ∃ m, s.extractMin = some (m, { s with pq := s.pq.erase m }) ∧ m ∈ s.pq ∧
    (∀ j ∈ s.pq, j ≠ m → (s.nodeAt m).freq.toNat < (s.nodeAt j).freq.toNat ∨
      (s.nodeAt m).freq.toNat = (s.nodeAt j).freq.toNat ∧ m.toNat < j.toNat) ∧
    ∀ j, j ∈ s.pq.erase m ↔ j ∈ s.pq ∧ j ≠ m) ∧
  ∀ (s : State) (i : NodeIdx), ∃ q, s.pqInsert i = { s with pq := q } ∧ ∀ j, j ∈ q ↔ j = i ∨ j ∈ s.pq

/-- R76: BUILD completes in every state. With no byte present the tree is empty; else the leaves stand in ascending byte
order, each merge takes the two waiting nodes of least key, and one root is left. -/
def Obligations.BuildMergesLeast : Prop :=
  decode 0x0000_0020#32 = .ok .build ∧ ∀ s : State, ∃ t, exec .build s = .next t ∧
    t = { s with node := t.node, nodeCount := t.nodeCount, root := t.root, symcount := t.symcount, pq := []
                 treeValid := true, tableValid := false } ∧
    t.symcount.toNat = s.present.length ∧ (s.present = [] → t.nodeCount = 0 ∧ t.root = nilIdx) ∧
    (s.present ≠ [] → t.Built)

/-- R77: the shape of a built tree, (a) to (f). -/
def Obligations.BuiltTreeShape : Prop :=
  ∀ s t : State, s.HistOk → s.present ≠ [] → exec .build s = .next t →
    t.nodeCount.toNat + 1 = 2 * s.present.length ∧
    (∀ (i : Nat) (h : i < s.present.length), (t.nodeAt (BitVec.ofNat 9 i)).kind = .leaf ∧
      (t.nodeAt (BitVec.ofNat 9 i)).sym = s.present[i]) ∧
    (∀ i : NodeIdx, s.present.length ≤ i.toNat → i.toNat < t.nodeCount.toNat → (t.nodeAt i).kind = .internal ∧
      (t.nodeAt i).left.toNat < i.toNat ∧ (t.nodeAt i).right.toNat < i.toNat ∧ (t.nodeAt i).left ≠ (t.nodeAt i).right) ∧
    t.root.toNat + 2 = 2 * s.present.length ∧
    (∀ j : NodeIdx, j.toNat < t.nodeCount.toNat → j ≠ t.root →
      ∃! i : NodeIdx, i.toNat < t.nodeCount.toNat ∧ t.ChildOf j i) ∧
    (∀ i : NodeIdx, i.toNat < t.nodeCount.toNat → ∃ x, t.Represents i x ∧ (t.nodeAt i).freq.toNat = s.weight x ∧
      (t.nodeAt i).freq.toNat ≤ s.htotal.toNat) ∧
    ∃ x, t.Represents t.root x ∧ x.leaves.Perm s.present ∧ ∀ e ∈ x.codes [], e.2.length + 1 ≤ s.present.length

/-- R78: the result of BUILD is a function of HIST alone. -/
def Obligations.BuildDependsOnHistOnly : Prop :=
  ∀ s u t v : State, u.hist = s.hist → exec .build s = .next t → exec .build u = .next v →
    v.root = t.root ∧ v.nodeCount = t.nodeCount ∧ v.symcount = t.symcount ∧
      ∀ i : NodeIdx, i.toNat < t.nodeCount.toNat → v.nodeAt i = t.nodeAt i

/-- R79: the empty map gives the absent tree; a single distinct byte gives its leaf as the root, with no merge. -/
def Obligations.BuildDegenerateInputs : Prop :=
  ∀ s : State,
    (s.present = [] → ∃ t, exec .build s = .next t ∧ t.root = nilIdx ∧ t.treeValid = true ∧ t.nodeCount = 0 ∧
      t.symcount = 0) ∧
    (∀ b, s.present = [b] → ∃ t, exec .build s = .next t ∧ t.root = 0 ∧ t.nodeCount = 1 ∧ t.symcount = 1 ∧
      t.nodeAt 0 = { kind := .leaf, sym := b, freq := s.histAt b, left := nilIdx, right := nilIdx })

/-! ### Code table generator (43_tree_walker.md) -/

/-- R80, R81: GEN writes to CTAB exactly the paths of the leaves: the code [0] for a lone leaf, the empty table for the
empty tree; NO_TREE where there is none. -/
def Obligations.GenWritesPaths : Prop :=
  decode 0x0000_0021#32 = .ok .gen ∧ ∀ s : State,
    (s.treeValid = false → exec .gen s = .next (s.recordError .noTree 0)) ∧
    (s.treeValid = true → ∃ t, exec .gen s = .next t ∧ (s.wstack = [] → t.wstack = []) ∧
      t = { s with ctab := t.ctab, symcount := t.symcount, wstack := t.wstack, tableValid := true }) ∧
    (s.treeValid = true → s.root = nilIdx → ∃ t, exec .gen s = .next t ∧ t.symcount = 0 ∧
      ∀ b, t.ctabAt b = CodeEntry.invalid) ∧
    ∀ x : Tree, s.treeValid = true → s.root ≠ nilIdx → s.Represents s.root x → x.leaves.Nodup →
      ∃ t, exec .gen s = .next t ∧ t.TableIs x.table ∧ t.symcount.toNat = x.leaves.length

/-- R82, R83: after BUILD and GEN exactly the bytes present have a code, the codes are prefix-free, of length 1 to
N − 1 ≤ 255 (1 for N = 1), and for N ≥ 2 complete. -/
def Obligations.GeneratedCodesComplete : Prop :=
  ∀ s : State, ∃ t u, exec .build s = .next t ∧ exec .gen t = .next u ∧
    (∀ b, (u.ctabAt b).valid = true ↔ b ∈ s.present) ∧ PrefixFree (validCodes u.ctab) ∧
    (∀ e ∈ validCodes u.ctab, 1 ≤ e.2.length ∧ e.2.length ≤ 255 ∧
      (e.2.length + 1 ≤ s.present.length ∨ s.present.length = 1 ∧ e.2 = [false])) ∧
    (2 ≤ s.present.length → ∀ q : Bits, ∃ e ∈ validCodes u.ctab, e.2 <+: q ∨ q <+: e.2)

/-! ### Packer (44_bit_packer.md) -/

/-- R90: PINIT. -/
def Obligations.PinitStartsStream : Prop :=
  decode 0x0000_0030#32 = .ok .pinit ∧
    ∀ s : State, exec .pinit s = .next { s with optr := s.dstAddr, acc := 0, accN := 0 }

/-- R91: PUTB n appends the low n bits of ARG, most significant first; OBUF_OVERFLOW where a completed byte falls outside
OBUF. -/
def Obligations.PutbAppendsArg : Prop :=
  ∀ (s : State) (n : BitVec 6), (Instr.putb n).wellFormed = true → s.PackerOk →
    (s.Room (bitsMsb s.arg.toNat n.toNat) → ∃ t, exec (.putb n) s = .next t ∧
      t = { s with optr := t.optr, acc := t.acc, accN := t.accN, obuf := t.obuf } ∧
      Packed s t (bitsMsb s.arg.toNat n.toNat)) ∧
    (¬ s.Room (bitsMsb s.arg.toNat n.toNat) → exec (.putb n) s =
      .next (s.takeError ⟨.obufOverflow, BitVec.ofNat 32 (max s.optr.toNat s.params.obufSize)⟩))

/-- R92: PSYM appends the codes of the source bytes back to back; NO_TABLE, then RANGE; TABLE_MISS at the first byte
without a code; OBUF_OVERFLOW where a completed byte falls outside OBUF before that. -/
def Obligations.PsymPacksSource : Prop :=
  decode 0x0000_0032#32 = .ok .psym ∧ ∀ s : State, s.PackerOk →
    (s.tableValid = false → exec .psym s = .next (s.recordError .noTable 0)) ∧
    (s.tableValid = true → s.params.ibufSize < s.srcAddr.toNat + s.srcLen.toNat →
      exec .psym s = .next (s.recordError .range s.srcAddr)) ∧
    (s.tableValid = true → s.srcAddr.toNat + s.srcLen.toNat ≤ s.params.ibufSize →
      (∀ b ∈ s.source, (s.ctabAt b).valid = true) → s.Room (payload s.codeOf s.source) →
        ∃ t, exec .psym s = .next t ∧ Packed s t (payload s.codeOf s.source) ∧
          t = { s with optr := t.optr, acc := t.acc, accN := t.accN, obuf := t.obuf }) ∧
    ∀ n : Nat, s.tableValid = true → s.srcAddr.toNat + s.srcLen.toNat ≤ s.params.ibufSize → n ≤ s.srcLen.toNat →
      (∀ b ∈ s.source.take n, (s.ctabAt b).valid = true) →
        (s.Room (payload s.codeOf (s.source.take n)) → n < s.srcLen.toNat →
          (s.ctabAt (s.ibufByte (s.srcAddr.toNat + n))).valid = false →
            exec .psym s = .next (s.takeError ⟨.tableMiss, BitVec.ofNat 32 (s.srcAddr.toNat + n)⟩)) ∧
        (¬ s.Room (payload s.codeOf (s.source.take n)) → exec .psym s =
          .next (s.takeError ⟨.obufOverflow, BitVec.ofNat 32 (max s.optr.toNat s.params.obufSize)⟩))

/-- R89, R93: PFLUSH completes a partial byte with zeros, and writes nothing where there is none. -/
def Obligations.PflushPadsByte : Prop :=
  decode 0x0000_0033#32 = .ok .pflush ∧ ∀ s : State, s.PackerOk →
    (s.accN = 0 → exec .pflush s = .next s) ∧
    (s.accN ≠ 0 → s.optr.toNat < s.params.obufSize → ∃ t, exec .pflush s = .next t ∧
      t = { s with optr := t.optr, acc := 0, accN := 0, obuf := t.obuf } ∧ t.optr.toNat = s.optr.toNat + 1 ∧
      Packed s t (zeros (8 - s.accN.toNat))) ∧
    (s.accN ≠ 0 → s.params.obufSize ≤ s.optr.toNat → exec .pflush s = .next (s.takeError ⟨.obufOverflow, s.optr⟩))

/-! ### Unpacker (45_bit_unpacker.md) -/

/-- R94, R97: UINIT sets the range, and the stream then holds the bits of its bytes, each most significant bit first. -/
def Obligations.UinitSetsRange : Prop :=
  decode 0x0000_0038#32 = .ok .uinit ∧ ∀ s : State,
    (s.params.ibufSize < s.srcAddr.toNat + s.srcLen.toNat → exec .uinit s = .next (s.recordError .range s.srcAddr)) ∧
    (s.srcAddr.toNat + s.srcLen.toNat ≤ s.params.ibufSize → ∃ t, exec .uinit s = .next t ∧
      t = { s with iptr := s.srcAddr, iend := t.iend, ibit := 0 } ∧
      t.iend.toNat = s.srcAddr.toNat + s.srcLen.toNat ∧ t.inputBits = unpackBytes s.source)

/-- R95, R96, R98: GETB n takes n bits off the stream into RESULT, zero-extended, the first most significant; with fewer
left it raises IN_EXHAUSTED with IPTR = IEND. -/
def Obligations.GetbReadsBits : Prop :=
  ∀ (s : State) (n : BitVec 6), (Instr.getb n).wellFormed = true → s.UnpackerOk →
    (n.toNat ≤ s.inputBits.length → ∃ t, exec (.getb n) s = .next t ∧
      t = { s with result := t.result, iptr := t.iptr, ibit := t.ibit } ∧
      bitsMsb t.result.toNat 32 = zeros (32 - n.toNat) ++ s.inputBits.take n.toNat ∧
      t.inputBits = s.inputBits.drop n.toNat ∧ t.UnpackerOk) ∧
    (s.inputBits.length < n.toNat → exec (.getb n) s = .next (s.takeError ⟨.inExhausted, s.iend⟩))

/-- R99: UALIGN drops what is left of the byte being read. -/
def Obligations.UalignSkipsToByte : Prop :=
  decode 0x0000_003A#32 = .ok .ualign ∧ ∀ s : State, s.UnpackerOk →
    (s.ibit = 0 → exec .ualign s = .next s) ∧
    (s.ibit ≠ 0 → ∃ t, exec .ualign s = .next t ∧ t = { s with iptr := t.iptr, ibit := 0 } ∧
      t.iptr.toNat = s.iptr.toNat + 1 ∧ t.iptr.toNat ≤ s.iend.toNat ∧
      t.inputBits = s.inputBits.drop (8 - s.ibit.toNat))

/-! ### Container (46_container.md) -/

/-- R100 to R102: THDR appends the entry count, the entries in ascending byte value and ORIG_LEN; NO_TABLE first. -/
def Obligations.ThdrWritesHeader : Prop :=
  decode 0x0000_0040#32 = .ok .thdr ∧ ∀ s : State, s.PackerOk →
    (s.tableValid = false → exec .thdr s = .next (s.recordError .noTable 0)) ∧
    (s.tableValid = true → s.Room (headerStream s.tableEntries s.origLen.toNat) → ∃ t, exec .thdr s = .next t ∧
      t = { s with optr := t.optr, acc := t.acc, accN := t.accN, obuf := t.obuf } ∧
      Packed s t (headerStream s.tableEntries s.origLen.toNat)) ∧
    (s.tableValid = true → ¬ s.Room (headerStream s.tableEntries s.origLen.toNat) → exec .thdr s =
      .next (s.takeError ⟨.obufOverflow, BitVec.ofNat 32 (max s.optr.toNat s.params.obufSize)⟩))

/-- R109: a header THDR writes takes 2 + Σ (2 + ceil(len / 8)) + 4 bytes, leaving ACC_N as it was; and after UINIT at a
container's start and a successful PARSE, IPTR stands just past such a header, with IBIT = 0. -/
def Obligations.HeaderSize : Prop :=
  (∀ s t : State, s.PackerOk → s.tableValid = true → s.Room (headerStream s.tableEntries s.origLen.toNat) →
    exec .thdr s = .next t → t.accN = s.accN ∧
      t.optr.toNat = s.optr.toNat + (2 + (s.tableEntries.map fun e => 2 + (e.code.length + 7) / 8).sum + 4)) ∧
  ∀ (s t u : State) (es : List Entry) (orig : Nat) (rest : Bits),
    s.srcAddr.toNat + s.srcLen.toNat ≤ s.params.ibufSize → LegalHeader es orig →
    unpackBytes s.source = headerStream es orig ++ rest → exec .uinit s = .next t → exec .parse t = .next u →
      u.ibit = 0 ∧
      u.iptr.toNat = s.srcAddr.toNat + (2 + (es.map fun e => 2 + (e.code.length + 7) / 8).sum + 4)

/-- R103, R108: PARSE on a legal header, whatever its entry order and padding bits, loads exactly its table, its length
and its entry count, and leaves the unpacker at the first payload bit. -/
def Obligations.ParseLoadsHeader : Prop :=
  decode 0x0000_0041#32 = .ok .parse ∧
  ∀ (s : State) (es : List Entry) (orig : Nat) (rest : Bits), s.UnpackerOk → LegalHeader es orig →
    s.inputBits = headerStream es orig ++ rest → ∃ t, exec .parse s = .next t ∧
      t = { s with iptr := t.iptr, ibit := t.ibit, ctab := t.ctab, origLen := BitVec.ofNat 32 orig
                   symcount := BitVec.ofNat 9 es.length, tableValid := true } ∧
      t.TableIs (tableOf es) ∧ t.UnpackerOk ∧ t.inputBits = rest

/-- R103, R104: PARSE completes without an error only on a legal header; the codes it then holds are prefix-free. -/
def Obligations.ParseAcceptsOnlyLegal : Prop :=
  ∀ s t : State, s.UnpackerOk → s.err = false → exec .parse s = .next t → t.err = false →
    PrefixFree (validCodes t.ctab) ∧ ∃ es, LegalHeader es t.origLen.toNat ∧
      s.inputBits = headerStream es t.origLen.toNat ++ t.inputBits ∧ t.TableIs (tableOf es)

/-- R103: FMT_TRUNCATED with IPTR = IEND where the header ends before it is complete; FMT_COUNT, FMT_DUP_SYMBOL,
FMT_ZERO_LEN and FMT_EMPTY_TABLE, each with its ERR_INFO. The entries `es` before the
offending one are as PARSE accepts them. -/
def Obligations.ParseFormatErrors : Prop :=
  (∀ (s : State) (es : List Entry) (orig : Nat) (missing : Bits), s.UnpackerOk → LegalHeader es orig →
    s.inputBits ++ missing = headerStream es orig → missing ≠ [] →
      exec .parse s = .next (s.takeError ⟨.fmtTruncated, s.iend⟩)) ∧
  ∀ (s : State) (cnt : Nat) (rest : Bits), s.UnpackerOk → cnt < 2 ^ 16 →
    (256 < cnt → s.inputBits = bitsMsb cnt 16 ++ rest →
      exec .parse s = .next (s.takeError ⟨.fmtCount, BitVec.ofNat 32 cnt⟩)) ∧
    (∀ (es : List Entry) (b : Byte), cnt ≤ 256 → es.length < cnt → (es.map Entry.byte).Nodup →
      (∀ e ∈ es, e.code.length ≤ 255 ∧ e.pad.length = wholeBytes e.code.length - e.code.length ∧
        (e.code = [] → cnt = 1)) →
      (b ∈ es.map Entry.byte → s.inputBits = bitsMsb cnt 16 ++ es.flatMap Entry.bits ++ bitsMsb b.toNat 8 ++ rest →
        exec .parse s = .next (s.takeError ⟨.fmtDupSymbol, b.setWidth 32⟩)) ∧
      (b ∉ es.map Entry.byte → cnt ≠ 1 →
        s.inputBits = bitsMsb cnt 16 ++ es.flatMap Entry.bits ++ bitsMsb b.toNat 8 ++ zeros 8 ++ rest →
          exec .parse s = .next (s.takeError ⟨.fmtZeroLen, b.setWidth 32⟩))) ∧
    ∀ orig : Nat, 0 < orig → orig < 2 ^ 32 → s.inputBits = zeros 16 ++ bitsMsb orig 32 ++ rest →
      exec .parse s = .next (s.takeError ⟨.fmtEmptyTable, BitVec.ofNat 32 orig⟩)

/-- R104: the first offending pair, in lexicographic order, is reported as b1 + 256·b2. -/
def Obligations.ParseReportsFirstClash : Prop :=
  ∀ (s : State) (es : List Entry) (rest : Bits) (e f : Entry), s.UnpackerOk → es.length ≤ 256 →
    (es.map Entry.byte).Nodup →
    (∀ x ∈ es, x.code.length ≤ 255 ∧ x.pad.length = wholeBytes x.code.length - x.code.length ∧
      (x.code = [] → es.length = 1)) →
    s.inputBits = bitsMsb es.length 16 ++ es.flatMap Entry.bits ++ rest → e ∈ es → f ∈ es →
    e.byte.toNat < f.byte.toNat → (e.code <+: f.code ∨ f.code <+: e.code) →
    (∀ x ∈ es, ∀ y ∈ es, x.byte.toNat < y.byte.toNat → (x.code <+: y.code ∨ y.code <+: x.code) →
      e.byte.toNat < x.byte.toNat ∨ e.byte = x.byte ∧ f.byte.toNat ≤ y.byte.toNat) →
      exec .parse s = .next (s.takeError ⟨.fmtNotPrefixFree, BitVec.ofNat 32 (e.byte.toNat + 256 * f.byte.toNat)⟩)

/-- R105 to R107: DSYM decodes exactly ORIG_LEN symbols, whose codes stand at the front of the stream, writes one byte
each, and reads no bit beyond; NO_TABLE first. -/
def Obligations.DsymDecodesSymbols : Prop :=
  decode 0x0000_0042#32 = .ok .dsym ∧ ∀ s : State,
    (s.tableValid = false → exec .dsym s = .next (s.recordError .noTable 0)) ∧
    ∀ (bs : List Byte) (rest : Bits), s.tableValid = true → PrefixFree (validCodes s.ctab) → s.UnpackerOk → s.PackerOk →
      bs.length = s.origLen.toNat → (∀ b ∈ bs, (s.ctabAt b).valid = true) →
      s.inputBits = payload s.codeOf bs ++ rest → s.Room (unpackBytes bs) →
        ∃ t, exec .dsym s = .next t ∧ Packed s t (unpackBytes bs) ∧ t.inputBits = rest ∧
          t = { s with iptr := t.iptr, ibit := t.ibit, dacc := [], optr := t.optr, acc := t.acc, accN := t.accN
                       obuf := t.obuf }

/-- R105, R106: DSYM at a symbol k it cannot complete: PAY_TRUNCATED(k) where the stream ends inside a code,
PAY_BAD_CODE(k) where it leaves every code, and OBUF_OVERFLOW where the k bytes decoded so far do not fit. -/
def Obligations.DsymReportsSymbol : Prop :=
  ∀ (s : State) (bs : List Byte) (rest : Bits), s.tableValid = true → PrefixFree (validCodes s.ctab) → s.UnpackerOk →
    s.PackerOk → (∀ b ∈ bs, (s.ctabAt b).valid = true) → s.inputBits = payload s.codeOf bs ++ rest →
      (s.Room (unpackBytes bs) → bs.length < s.origLen.toNat → (∀ b c, s.HasCode b c → ¬ c <+: rest) →
        (∃ b c, s.HasCode b c ∧ rest <+: c) →
          exec .dsym s = .next (s.takeError ⟨.payTruncated, BitVec.ofNat 32 bs.length⟩)) ∧
      (s.Room (unpackBytes bs) → bs.length < s.origLen.toNat → (∀ b c, s.HasCode b c → ¬ c <+: rest) →
        (∀ b c, s.HasCode b c → ¬ rest <+: c) →
          exec .dsym s = .next (s.takeError ⟨.payBadCode, BitVec.ofNat 32 bs.length⟩)) ∧
      (¬ s.Room (unpackBytes bs) → bs.length ≤ s.origLen.toNat → exec .dsym s =
        .next (s.takeError ⟨.obufOverflow, BitVec.ofNat 32 (max s.optr.toNat s.params.obufSize)⟩))

/-! ### Composite (47_composite.md) -/

/-- R110, R113: ENCODE in range, with the container of its table (a function of the state alone) fitting in OBUF, writes
that container at DST_ADDR: the table prefix-free, with a code for exactly the bytes of the source. -/
def Obligations.EncodeWritesContainer : Prop :=
  decode 0x0000_0050#32 = .ok .encode ∧
  ∀ s : State, s.srcAddr.toNat + s.srcLen.toNat ≤ s.params.ibufSize → ∃ u, tableStage s = .ok u ∧
    PrefixFree (validCodes u.ctab) ∧ (∀ b, (u.ctabAt b).valid = true ↔ b ∈ s.source) ∧
    (∀ b, (u.histAt b).toNat = s.source.count b) ∧
    (payload u.codeOf s.source).length = (allBytes.map fun b => (u.histAt b).toNat * (u.codeOf b).length).sum ∧
    let n := containerLength (validCodes u.ctab) (payload u.codeOf s.source).length
    (s.dstAddr.toNat + n ≤ s.params.obufSize → ∃ t, exec .encode s = .next t ∧
      t = { s with hist := u.hist, htotal := s.srcLen, origLen := s.srcLen, node := u.node, nodeCount := u.nodeCount
                   root := u.root, symcount := u.symcount, ctab := u.ctab, pq := [], wstack := u.wstack
                   treeValid := true, tableValid := true, optr := t.optr, acc := 0, accN := 0, obuf := t.obuf } ∧
      (s.wstack = [] → u.wstack = []) ∧ t.optr.toNat = s.dstAddr.toNat + n ∧
      unpackBytes (t.obufBytes s.dstAddr.toNat n) =
        headerStream u.tableEntries s.srcLen.toNat ++ payload u.codeOf s.source ++
          zeros (8 * (((payload u.codeOf s.source).length + 7) / 8) - (payload u.codeOf s.source).length) ∧
      ∀ a, a < s.dstAddr.toNat ∨ t.optr.toNat ≤ a → t.obufByte a = s.obufByte a)

/-- R110, R121, R145: ENCODE out of range raises RANGE before any change; with a container that does not fit it raises
OBUF_OVERFLOW, its only execution error. -/
def Obligations.EncodeErrors : Prop :=
  ∀ s : State,
    (s.params.ibufSize < s.srcAddr.toNat + s.srcLen.toNat → exec .encode s = .next (s.recordError .range s.srcAddr)) ∧
    ∀ u : State, s.srcAddr.toNat + s.srcLen.toNat ≤ s.params.ibufSize → tableStage s = .ok u →
      s.params.obufSize < s.dstAddr.toNat + containerLength (validCodes u.ctab) (payload u.codeOf s.source).length →
        exec .encode s =
          .next (s.takeError ⟨.obufOverflow, BitVec.ofNat 32 (max s.dstAddr.toNat s.params.obufSize)⟩)

/-- R145: six bytes, 34 for each of 256 entries, and 255 bits a byte bound the container, so ENCODE with that room always
completes. -/
def Obligations.EncodeWithRoomCompletes : Prop :=
  ∀ s : State, s.srcAddr.toNat + s.srcLen.toNat ≤ s.params.ibufSize →
    s.dstAddr.toNat + (6 + 256 * 34 + (255 * s.srcLen.toNat + 7) / 8) ≤ s.params.obufSize →
      ∃ t, exec .encode s = .next t ∧ t.err = s.err ∧ t.tableValid = true ∧ t.origLen = s.srcLen ∧
        t.optr.toNat ≤ s.dstAddr.toNat + (6 + 256 * 34 + (255 * s.srcLen.toNat + 7) / 8)

/-- R84, R110: the empty source gives the six-byte empty container; L copies of one byte give one entry with the code [0]
and ceil(L/8) zero bytes of payload. -/
def Obligations.EncodeDegenerateInputs : Prop :=
  (∀ s : State, s.srcLen = 0 → s.srcAddr.toNat ≤ s.params.ibufSize → s.dstAddr.toNat + 6 ≤ s.params.obufSize →
    ∃ t, exec .encode s = .next t ∧ t.obufBytes s.dstAddr.toNat 6 = [0, 0, 0, 0, 0, 0] ∧
      t.optr.toNat = s.dstAddr.toNat + 6) ∧
  ∀ (s : State) (b : Byte), 0 < s.srcLen.toNat → s.srcAddr.toNat + s.srcLen.toNat ≤ s.params.ibufSize →
    (∀ x ∈ s.source, x = b) → s.dstAddr.toNat + (9 + (s.srcLen.toNat + 7) / 8) ≤ s.params.obufSize →
      ∃ t, exec .encode s = .next t ∧ t.optr.toNat = s.dstAddr.toNat + (9 + (s.srcLen.toNat + 7) / 8) ∧
        unpackBytes (t.obufBytes s.dstAddr.toNat (9 + (s.srcLen.toNat + 7) / 8)) =
          bitsMsb 1 16 ++ bitsMsb b.toNat 8 ++ bitsMsb 1 8 ++ zeros 8 ++ bitsMsb s.srcLen.toNat 32 ++
            zeros (8 * ((s.srcLen.toNat + 7) / 8))

/-- R113(e), R148: the container ENCODE writes is a function of the source alone. -/
def Obligations.EncodeDeterministic : Prop :=
  ∀ s s' t t' : State, s'.source = s.source → s.err = false → s'.err = false → exec .encode s = .next t →
    exec .encode s' = .next t' → t.err = false → t'.err = false → ∃ n,
      t.optr.toNat = s.dstAddr.toNat + n ∧ t'.optr.toNat = s'.dstAddr.toNat + n ∧
      t'.obufBytes s'.dstAddr.toNat n = t.obufBytes s.dstAddr.toNat n

/-- R111: DECODE of a container (legal header, payload of ORIG_LEN codes, whatever follows) writes the decoded bytes, if any,
at DST_ADDR, and loads the table, the length and the entry count. -/
def Obligations.DecodeRecoversBytes : Prop :=
  decode 0x0000_0051#32 = .ok .decode ∧
  ∀ (s : State) (es : List Entry) (code : Byte → Bits) (bs : List Byte) (rest : Bits),
    s.srcAddr.toNat + s.srcLen.toNat ≤ s.params.ibufSize → LegalHeader es bs.length →
    (∀ b ∈ bs, (b, code b) ∈ tableOf es) →
    unpackBytes s.source = headerStream es bs.length ++ payload code bs ++ rest →
    (bs = [] ∨ s.dstAddr.toNat + bs.length ≤ s.params.obufSize) → ∃ t, exec .decode s = .next t ∧
      t = { s with iptr := t.iptr, iend := s.srcAddr + s.srcLen, ibit := t.ibit, ctab := t.ctab
                   origLen := BitVec.ofNat 32 bs.length, symcount := BitVec.ofNat 9 es.length, tableValid := true
                   optr := t.optr, acc := 0, accN := 0, dacc := [], obuf := t.obuf } ∧
      t.TableIs (tableOf es) ∧ t.optr.toNat = s.dstAddr.toNat + bs.length ∧ t.obufBytes s.dstAddr.toNat bs.length = bs ∧
      t.inputBits = rest ∧ ∀ a, a < s.dstAddr.toNat ∨ t.optr.toNat ≤ a → t.obufByte a = s.obufByte a

/-- R111, R115, R134, R145: DECODE out of range raises RANGE before any change; a container cut inside its header raises
FMT_TRUNCATED; one whose header PARSE rejects raises PARSE's error (FMT_COUNT, FMT_DUP_SYMBOL, FMT_ZERO_LEN,
FMT_NOT_PREFIX_FREE, FMT_EMPTY_TABLE). After k symbols of the payload, one cut inside a code raises PAY_TRUNCATED(k), one that
leaves every code raises PAY_BAD_CODE(k), and one whose k bytes do not fit in OBUF raises OBUF_OVERFLOW. -/
def Obligations.DecodeErrors : Prop :=
  ∀ s : State,
    (s.params.ibufSize < s.srcAddr.toNat + s.srcLen.toNat → exec .decode s = .next (s.recordError .range s.srcAddr)) ∧
    (s.srcAddr.toNat + s.srcLen.toNat ≤ s.params.ibufSize → ∀ (e : ErrorCode) (info : Nat),
      BadHeader (unpackBytes s.source) e info → exec .decode s = .next (s.takeError ⟨e, BitVec.ofNat 32 info⟩)) ∧
    ∀ (es : List Entry) (orig : Nat), s.srcAddr.toNat + s.srcLen.toNat ≤ s.params.ibufSize → LegalHeader es orig →
      (∀ missing : Bits, missing ≠ [] → unpackBytes s.source ++ missing = headerStream es orig →
        exec .decode s = .next (s.takeError ⟨.fmtTruncated, s.srcAddr + s.srcLen⟩)) ∧
      ∀ (code : Byte → Bits) (bs : List Byte) (rest : Bits), (∀ b ∈ bs, (b, code b) ∈ tableOf es) →
        unpackBytes s.source = headerStream es orig ++ payload code bs ++ rest →
        (bs.length < orig → (bs = [] ∨ s.dstAddr.toNat + bs.length ≤ s.params.obufSize) →
          (∀ e ∈ tableOf es, ¬ e.2 <+: rest) →
            ((∃ e ∈ tableOf es, rest <+: e.2) →
              exec .decode s = .next (s.takeError ⟨.payTruncated, BitVec.ofNat 32 bs.length⟩)) ∧
            ((∀ e ∈ tableOf es, ¬ rest <+: e.2) →
              exec .decode s = .next (s.takeError ⟨.payBadCode, BitVec.ofNat 32 bs.length⟩))) ∧
        (bs.length ≤ orig → bs ≠ [] → s.params.obufSize < s.dstAddr.toNat + bs.length → exec .decode s =
          .next (s.takeError ⟨.obufOverflow, BitVec.ofNat 32 (max s.dstAddr.toNat s.params.obufSize)⟩))

/-- R112: the round trip. ENCODE of the source of `s` completes without an error where its container, of n bytes, fits.
With those n bytes then in the source of `s'`, DECODE completes without an error and gives back the source of `s`. -/
def Obligations.RoundTrip : Prop :=
  ∀ s u : State, s.err = false → s.srcAddr.toNat + s.srcLen.toNat ≤ s.params.ibufSize → tableStage s = .ok u →
    let n := containerLength (validCodes u.ctab) (payload u.codeOf s.source).length
    s.dstAddr.toNat + n ≤ s.params.obufSize → ∃ t, exec .encode s = .next t ∧ t.err = false ∧
      ∀ s' : State, s'.err = false → s'.srcLen.toNat = n → s'.srcAddr.toNat + n ≤ s'.params.ibufSize →
        s'.source = t.obufBytes s.dstAddr.toNat n → s'.dstAddr.toNat + s.srcLen.toNat ≤ s'.params.obufSize →
          ∃ t', exec .decode s' = .next t' ∧ t'.err = false ∧ t'.obufBytes s'.dstAddr.toNat s.srcLen.toNat = s.source

/-! ### Errors (60_exceptions.md) -/

/-- R115, R121, R133: every command answers a next state, and leaves the error state as it was (SRESET clears it) or takes
one error of those R115 lists for it. -/
def Obligations.CommandsRaiseListedErrors : Prop :=
  ∀ (i : Instr) (s : State), ∃ t, exec i s = .next t ∧
    ((t.err = s.err ∧ t.errcode = s.errcode ∧ t.errInfo = s.errInfo) ∨ (i = .sreset ∧ t.err = false) ∨
      ∃ r : Raise, r.code ∈ raisable i ∧ t = s.takeError r)

/-- R115 to R118: the number of each error code, and taking an error. A precondition error changes nothing but ERR, ERRCODE
and ERR_INFO; after an execution error OVR, CTRL, IBUF and the host-owned registers are exact as well. (What R117 leaves
unspecified takes free values, log 6; nothing is said of it.) -/
def Obligations.ErrorTaken : Prop :=
  [ErrorCode.illegalCmd, .range, .countOverflow, .noTree, .noTable, .tableMiss, .obufOverflow, .inExhausted, .fmtTruncated,
   .fmtCount, .fmtDupSymbol, .fmtZeroLen, .fmtNotPrefixFree, .fmtEmptyTable, .payTruncated, .payBadCode].map errorNumber =
  [0x01#8, 0x02#8, 0x03#8, 0x04#8, 0x05#8, 0x06#8, 0x07#8, 0x08#8, 0x10#8, 0x11#8, 0x12#8, 0x13#8, 0x14#8, 0x15#8, 0x16#8,
   0x17#8] ∧
  ∀ (s : State) (r : Raise),
    (s.takeError r).err = true ∧ (s.takeError r).errcode = errorNumber r.code ∧ (s.takeError r).errInfo = r.info ∧
    (r.code ∈ [ErrorCode.illegalCmd, .range, .countOverflow, .noTree, .noTable] →
      s.takeError r = { s with err := true, errcode := errorNumber r.code, errInfo := r.info }) ∧
    (s.takeError r).ovr = s.ovr ∧ (s.takeError r).ie = s.ie ∧ (s.takeError r).ibuf = s.ibuf ∧
    (s.takeError r).params = s.params ∧ (s.takeError r).srcAddr = s.srcAddr ∧ (s.takeError r).srcLen = s.srcLen ∧
    (s.takeError r).dstAddr = s.dstAddr ∧ (s.takeError r).arg = s.arg ∧ (s.takeError r).idx = s.idx ∧
    (s.takeError r).pending = s.pending ∧ (s.takeError r).done = s.done ∧ (s.takeError r).turns = s.turns

/-- R119: ERR, ERRCODE and ERR_INFO stay until a reset: a step of an erroneous machine that neither drives RST_N nor has
SRESET pending keeps them. (The turns are the model's own, log 1; the premise ErrorBlocks is kept by ErrorStateKept.) -/
def Obligations.ErrorSticky : Prop :=
  ∀ s t : State, s.ErrorBlocks → s.err = true → s.pending ≠ some 0x0000_0001#32 →
    s.turns.head? ≠ some (.host .resetPin) → step s = .next t →
      t.err = true ∧ t.errcode = s.errcode ∧ t.errInfo = s.errInfo

/-! ### Who writes what (10_state.md) -/

/-- R23, R27 to R30, R42, R50: no command but SRESET writes CTRL, SRC_ADDR, SRC_LEN, DST_ADDR, ARG, IDX, OVR or IBUF, nor
does the step of a raced one (R58, which frees its results and OBUF; the turns and the race mark are the model's own, log 1
and log 9). -/
def Obligations.HostOwnedNeverWritten : Prop :=
  ∀ (i : Instr) (s t : State), i ≠ .sreset →
    (exec i s = .next t →
      t.ie = s.ie ∧ t.srcAddr = s.srcAddr ∧ t.srcLen = s.srcLen ∧ t.dstAddr = s.dstAddr ∧ t.arg = s.arg ∧ t.idx = s.idx ∧
      t.ovr = s.ovr ∧ t.ibuf = s.ibuf ∧ t.params = s.params ∧ t.pending = s.pending ∧ t.done = s.done ∧
      t.turns = s.turns) ∧
    ∀ w : Word, s.pending = some w → decode w = .ok i → s.raced = true → (s.turns = [] ∨ s.turns.head? = some .block) →
      step s = .next t →
        t.ie = s.ie ∧ t.srcAddr = s.srcAddr ∧ t.srcLen = s.srcLen ∧ t.dstAddr = s.dstAddr ∧ t.arg = s.arg ∧
        t.idx = s.idx ∧ t.ovr = s.ovr ∧ t.ibuf = s.ibuf ∧ t.params = s.params

/-- R45: how each command that raises no error leaves TREE_VALID and TABLE_VALID, and what requires them. -/
def Obligations.ValidityBits : Prop :=
  (∀ (i : Instr) (s t : State), s.err = false → exec i s = .next t → t.err = false →
    (t.treeValid = if i ∈ [Instr.hclr, .count, .sreset] then false
      else if i ∈ [Instr.build, .encode] then true else s.treeValid) ∧
    (t.tableValid = if i ∈ [Instr.build, .sreset] then false
      else if i ∈ [Instr.gen, .parse, .encode, .decode] then true else s.tableValid)) ∧
  ∀ s : State, (s.treeValid = false → exec .gen s = .next (s.recordError .noTree 0)) ∧
    (s.tableValid = false → ∀ i ∈ [Instr.psym, .thdr, .dsym], exec i s = .next (s.recordError .noTable 0))

/-- R31, R35, R43 to R46: where no error is raised, only HCLR, COUNT (and ENCODE, which runs them) and reset write HIST
and HTOTAL; only BUILD (and ENCODE) and reset the tree; only GEN, PARSE (and ENCODE, DECODE) and reset CTAB; only GETB and
reset RESULT; only the commands that pack and reset OBUF. The same, but for OBUF, of a command that raced (R58), and the
validity bits then change only under the commands R45 lists. (The turns and the race mark are the model's own, log 1 and
log 9.) -/
def Obligations.MemoriesHaveTheirWriters : Prop :=
  ∀ (i : Instr) (s t : State), s.err = false → i ≠ .sreset → t.err = false →
    (exec i s = .next t →
      (i ∉ [Instr.hclr, .count, .encode] → t.hist = s.hist ∧ t.htotal = s.htotal) ∧
      (i ∉ [Instr.build, .encode] → t.node = s.node ∧ t.nodeCount = s.nodeCount ∧ t.root = s.root) ∧
      (i ∉ [Instr.gen, .parse, .encode, .decode] → t.ctab = s.ctab) ∧
      ((∀ n, i ≠ .getb n) → t.result = s.result) ∧
      ((∀ n, i ≠ .putb n) → i ∉ [Instr.psym, .pflush, .thdr, .dsym, .encode, .decode] → t.obuf = s.obuf)) ∧
    ∀ w : Word, s.pending = some w → decode w = .ok i → s.raced = true → (s.turns = [] ∨ s.turns.head? = some .block) →
      step s = .next t →
        (i ∉ [Instr.hclr, .count, .encode] → t.hist = s.hist ∧ t.htotal = s.htotal) ∧
        (i ∉ [Instr.build, .encode] → t.node = s.node ∧ t.nodeCount = s.nodeCount ∧ t.root = s.root) ∧
        (i ∉ [Instr.gen, .parse, .encode, .decode] → t.ctab = s.ctab) ∧
        ((∀ n, i ≠ .getb n) → t.result = s.result) ∧
        (i ∉ [Instr.hclr, .count, .build, .encode] → t.treeValid = s.treeValid) ∧
        (i ∉ [Instr.build, .gen, .parse, .encode, .decode] → t.tableValid = s.tableValid)

/-! ### Invariants -/

/-- R33, R38 to R40, R45 to R47: while the datapath is specified every step keeps HTOTAL = Σ HIST, the packer's and the
unpacker's invariants, the tree, the prefix-free table that SYMCOUNT counts, and the hidden state empty. The host does not
race (R58; the race mark and the turns are the model's own, log 9 and log 1). -/
def Obligations.DatapathInvariantKept : Prop :=
  ∀ s t : State, s.raced = false → (s.specified → s.DatapathOk) → step s = .next t → t.specified → t.DatapathOk

/-- R50: every step keeps both buffers inside their sizes, and in the canonical form the model chose (log 5), even where
the host races. -/
def Obligations.MemoryFormKept : Prop :=
  ∀ s t : State, s.MemoryOk → step s = .next t → t.MemoryOk

/-- R119, R125: while ERR = 1 no command but SRESET is ever pending. R24: ERRCODE is 0 while ERR = 0. R26: ERR_INFO is 0
while ERR = 0, but where the host raced with SRESET, whose results are then free (R58; the race mark is the model's own,
log 9). -/
def Obligations.ErrorStateKept : Prop :=
  ∀ s t : State, step s = .next t → (s.ErrorBlocks → t.ErrorBlocks) ∧ (s.ErrcodeOk → t.ErrcodeOk) ∧
    (¬ (s.raced = true ∧ s.pending = some 0x0000_0001#32) → s.ErrInfoOk → t.ErrInfoOk)

/-- R137: the reset state meets every invariant above. -/
def Obligations.ResetMeetsInvariants : Prop :=
  State.reset.specified ∧ State.reset.raced = false ∧ State.reset.DatapathOk ∧ State.reset.MemoryOk ∧
    State.reset.ErrorBlocks ∧ State.reset.ErrcodeOk ∧ State.reset.ErrInfoOk
end

