-- ==== Sys2Proof/Laws/Bits.lean ====
section
/-! SUPPORT. Bit sequences (R8): bits_msb, its inverse, and the bits of bytes. -/

namespace Sys2Proof.Machine

open Sys2Proof

@[simp] theorem bitsMsb_length (v n : Nat) : (bitsMsb v n).length = n := by
  induction n with
  | zero => rfl
  | succ n ih => simp [bitsMsb, ih]

@[simp] theorem zeros_length (k : Nat) : (zeros k).length = k := by simp [zeros]

theorem bitsMsb_getElem (v n i : Nat) (h : i < (bitsMsb v n).length) :
    (bitsMsb v n)[i] = v.testBit (n - 1 - i) := by
  induction n generalizing i with
  | zero => simp at h
  | succ n ih =>
    cases i with
    | zero => simp [bitsMsb]
    | succ i =>
      simp only [bitsMsb, List.getElem_cons_succ]
      rw [ih]
      congr 1
      omega

/-- bits_msb depends on the low n bits only. -/
theorem bitsMsb_mod (v n m : Nat) (h : n ≤ m) : bitsMsb (v % 2 ^ m) n = bitsMsb v n := by
  apply List.ext_getElem (by simp)
  intro i h1 h2
  rw [bitsMsb_getElem, bitsMsb_getElem, Nat.testBit_mod_two_pow]
  simp at h1
  simp only [decide_eq_true_eq, Bool.and_eq_right_iff_imp, decide_eq_true_eq]
  intro _
  omega

/-- The last bit of bits_msb is bit 0. -/
theorem bitsMsb_snoc (v n : Nat) (b : Bool) : bitsMsb (2 * v + b.toNat) (n + 1) = bitsMsb v n ++ [b] := by
  apply List.ext_getElem (by simp)
  intro i h1 h2
  simp only [bitsMsb_length] at h1
  rw [bitsMsb_getElem, List.getElem_append]
  split
  · rename_i hi
    simp only [bitsMsb_length] at hi
    rw [bitsMsb_getElem]
    have : n + 1 - 1 - i = (n - 1 - i) + 1 := by omega
    rw [this, Nat.testBit_succ]
    congr 1
    cases b <;> simp; omega
  · rename_i hi
    simp only [bitsMsb_length] at hi
    have hi' : i = n := by omega
    subst hi'
    cases b <;> simp [Nat.testBit_zero]

theorem natOfBits_foldl (bs : Bits) (r : Nat) :
    bs.foldl (fun r v => 2 * r + v.toNat) r = r * 2 ^ bs.length + natOfBits bs := by
  induction bs generalizing r with
  | nil => simp [natOfBits]
  | cons b rest ih =>
    simp only [natOfBits, List.foldl_cons, List.length_cons]
    rw [ih, ih (2 * 0 + b.toNat), Nat.pow_succ]
    ring

@[simp] theorem natOfBits_nil : natOfBits [] = 0 := rfl

theorem natOfBits_cons (b : Bool) (rest : Bits) :
    natOfBits (b :: rest) = b.toNat * 2 ^ rest.length + natOfBits rest := by
  rw [natOfBits, List.foldl_cons, natOfBits_foldl]
  simp

theorem natOfBits_snoc (bs : Bits) (b : Bool) : natOfBits (bs ++ [b]) = 2 * natOfBits bs + b.toNat := by
  simp [natOfBits]

theorem natOfBits_lt (bs : Bits) : natOfBits bs < 2 ^ bs.length := by
  induction bs with
  | nil => simp
  | cons b rest ih =>
    rw [natOfBits_cons, List.length_cons, Nat.pow_succ]
    cases b <;> simp <;> omega

theorem natOfBits_bitsMsb (v n : Nat) : natOfBits (bitsMsb v n) = v % 2 ^ n := by
  induction n with
  | zero => simp [bitsMsb, Nat.mod_one]
  | succ n ih =>
    rw [bitsMsb, natOfBits_cons, ih, bitsMsb_length]
    rw [Nat.mod_pow_succ, Nat.testBit_eq_decide_div_mod_eq]
    rcases Nat.mod_two_eq_zero_or_one (v / 2 ^ n) with h | h
    · simp [h]
    · simp [h]; ring

theorem bitsMsb_natOfBits (bs : Bits) : bitsMsb (natOfBits bs) bs.length = bs := by
  induction bs using List.reverseRecOn with
  | nil => rfl
  | append_singleton bs b ih => rw [natOfBits_snoc, List.length_append, List.length_singleton, bitsMsb_snoc, ih]

/-- Two numbers below 2^n with the same n bits are equal. -/
theorem bitsMsb_inj {v w n : Nat} (hv : v < 2 ^ n) (hw : w < 2 ^ n) (h : bitsMsb v n = bitsMsb w n) : v = w := by
  have := congrArg natOfBits h
  rwa [natOfBits_bitsMsb, natOfBits_bitsMsb, Nat.mod_eq_of_lt hv, Nat.mod_eq_of_lt hw] at this

@[simp] theorem bitsMsb_zero (n : Nat) : bitsMsb 0 n = zeros n := by
  induction n with
  | zero => rfl
  | succ n ih => simp [bitsMsb, ih, zeros, List.replicate_succ]

/-! ### Bytes -/

@[simp] theorem unpackBytes_nil : unpackBytes [] = [] := rfl

@[simp] theorem unpackBytes_cons (b : Byte) (bs : List Byte) :
    unpackBytes (b :: bs) = bitsMsb b.toNat 8 ++ unpackBytes bs := rfl

@[simp] theorem unpackBytes_append (bs cs : List Byte) :
    unpackBytes (bs ++ cs) = unpackBytes bs ++ unpackBytes cs := by simp [unpackBytes]

@[simp] theorem unpackBytes_length (bs : List Byte) : (unpackBytes bs).length = 8 * bs.length := by
  induction bs with
  | nil => rfl
  | cons b rest ih => simp [ih]; omega

/-- A byte sequence is determined by its bits. -/
theorem unpackBytes_inj {bs cs : List Byte} (h : unpackBytes bs = unpackBytes cs) : bs = cs := by
  induction bs generalizing cs with
  | nil =>
    have := congrArg List.length h
    simp at this
    exact this.symm
  | cons b rest ih =>
    cases cs with
    | nil => have := congrArg List.length h; simp at this
    | cons c cs =>
      simp only [unpackBytes_cons] at h
      obtain ⟨h1, h2⟩ := List.append_inj h (by simp)
      have := bitsMsb_inj b.isLt c.isLt h1
      rw [BitVec.eq_of_toNat_eq this, ih h2]

theorem wholeBytes_ge (l : Nat) : l ≤ wholeBytes l := by unfold wholeBytes; omega

theorem wholeBytes_mod (l : Nat) : wholeBytes l % 8 = 0 := by unfold wholeBytes; omega

end Sys2Proof.Machine
end

