-- ==== Sys2Proof/Laws/State.lean ====
section
/-! SUPPORT. One lemma for each field of State and each named update of it: what the update leaves in the field. -/

namespace Sys2Proof.Machine

open Sys2Proof Config

variable (s : State)

@[simp] theorem State.softReset_eq : s.softReset = s.resetRegs := rfl
@[simp] theorem State.alloc_fst : s.alloc.1 = s.nodeCount := rfl
@[simp] theorem State.alloc_snd : s.alloc.2 = { s with nodeCount := s.nodeCount + 1 } := rfl

/-! ### accept (R114) -/

@[simp] theorem State.accept_params (w : Word) : (s.accept w).params = s.params := rfl
@[simp] theorem State.accept_ie (w : Word) : (s.accept w).ie = s.ie := rfl
@[simp] theorem State.accept_pending (w : Word) : (s.accept w).pending = some w := rfl
@[simp] theorem State.accept_done (w : Word) : (s.accept w).done = false := rfl
@[simp] theorem State.accept_err (w : Word) : (s.accept w).err = s.err := rfl
@[simp] theorem State.accept_ovr (w : Word) : (s.accept w).ovr = s.ovr := rfl
@[simp] theorem State.accept_treeValid (w : Word) : (s.accept w).treeValid = s.treeValid := rfl
@[simp] theorem State.accept_tableValid (w : Word) : (s.accept w).tableValid = s.tableValid := rfl
@[simp] theorem State.accept_errcode (w : Word) : (s.accept w).errcode = s.errcode := rfl
@[simp] theorem State.accept_errInfo (w : Word) : (s.accept w).errInfo = s.errInfo := rfl
@[simp] theorem State.accept_srcAddr (w : Word) : (s.accept w).srcAddr = s.srcAddr := rfl
@[simp] theorem State.accept_srcLen (w : Word) : (s.accept w).srcLen = s.srcLen := rfl
@[simp] theorem State.accept_dstAddr (w : Word) : (s.accept w).dstAddr = s.dstAddr := rfl
@[simp] theorem State.accept_arg (w : Word) : (s.accept w).arg = s.arg := rfl
@[simp] theorem State.accept_result (w : Word) : (s.accept w).result = s.result := rfl
@[simp] theorem State.accept_origLen (w : Word) : (s.accept w).origLen = s.origLen := rfl
@[simp] theorem State.accept_htotal (w : Word) : (s.accept w).htotal = s.htotal := rfl
@[simp] theorem State.accept_symcount (w : Word) : (s.accept w).symcount = s.symcount := rfl
@[simp] theorem State.accept_nodeCount (w : Word) : (s.accept w).nodeCount = s.nodeCount := rfl
@[simp] theorem State.accept_root (w : Word) : (s.accept w).root = s.root := rfl
@[simp] theorem State.accept_optr (w : Word) : (s.accept w).optr = s.optr := rfl
@[simp] theorem State.accept_acc (w : Word) : (s.accept w).acc = s.acc := rfl
@[simp] theorem State.accept_accN (w : Word) : (s.accept w).accN = s.accN := rfl
@[simp] theorem State.accept_iptr (w : Word) : (s.accept w).iptr = s.iptr := rfl
@[simp] theorem State.accept_iend (w : Word) : (s.accept w).iend = s.iend := rfl
@[simp] theorem State.accept_ibit (w : Word) : (s.accept w).ibit = s.ibit := rfl
@[simp] theorem State.accept_idx (w : Word) : (s.accept w).idx = s.idx := rfl
@[simp] theorem State.accept_hist (w : Word) : (s.accept w).hist = s.hist := rfl
@[simp] theorem State.accept_node (w : Word) : (s.accept w).node = s.node := rfl
@[simp] theorem State.accept_ctab (w : Word) : (s.accept w).ctab = s.ctab := rfl
@[simp] theorem State.accept_pq (w : Word) : (s.accept w).pq = s.pq := rfl
@[simp] theorem State.accept_wstack (w : Word) : (s.accept w).wstack = s.wstack := rfl
@[simp] theorem State.accept_dacc (w : Word) : (s.accept w).dacc = s.dacc := rfl
@[simp] theorem State.accept_ibuf (w : Word) : (s.accept w).ibuf = s.ibuf := rfl
@[simp] theorem State.accept_obuf (w : Word) : (s.accept w).obuf = s.obuf := rfl
@[simp] theorem State.accept_turns (w : Word) : (s.accept w).turns = s.turns := rfl
@[simp] theorem State.accept_rdata (w : Word) : (s.accept w).rdata = s.rdata := rfl
@[simp] theorem State.accept_draws (w : Word) : (s.accept w).draws = s.draws := rfl
@[simp] theorem State.accept_raced (w : Word) : (s.accept w).raced = false := rfl

/-! ### complete (R114) -/

@[simp] theorem State.complete_params : (s.complete).params = s.params := rfl
@[simp] theorem State.complete_ie : (s.complete).ie = s.ie := rfl
@[simp] theorem State.complete_pending : (s.complete).pending = none := rfl
@[simp] theorem State.complete_done : (s.complete).done = true := rfl
@[simp] theorem State.complete_err : (s.complete).err = s.err := rfl
@[simp] theorem State.complete_ovr : (s.complete).ovr = s.ovr := rfl
@[simp] theorem State.complete_treeValid : (s.complete).treeValid = s.treeValid := rfl
@[simp] theorem State.complete_tableValid : (s.complete).tableValid = s.tableValid := rfl
@[simp] theorem State.complete_errcode : (s.complete).errcode = s.errcode := rfl
@[simp] theorem State.complete_errInfo : (s.complete).errInfo = s.errInfo := rfl
@[simp] theorem State.complete_srcAddr : (s.complete).srcAddr = s.srcAddr := rfl
@[simp] theorem State.complete_srcLen : (s.complete).srcLen = s.srcLen := rfl
@[simp] theorem State.complete_dstAddr : (s.complete).dstAddr = s.dstAddr := rfl
@[simp] theorem State.complete_arg : (s.complete).arg = s.arg := rfl
@[simp] theorem State.complete_result : (s.complete).result = s.result := rfl
@[simp] theorem State.complete_origLen : (s.complete).origLen = s.origLen := rfl
@[simp] theorem State.complete_htotal : (s.complete).htotal = s.htotal := rfl
@[simp] theorem State.complete_symcount : (s.complete).symcount = s.symcount := rfl
@[simp] theorem State.complete_nodeCount : (s.complete).nodeCount = s.nodeCount := rfl
@[simp] theorem State.complete_root : (s.complete).root = s.root := rfl
@[simp] theorem State.complete_optr : (s.complete).optr = s.optr := rfl
@[simp] theorem State.complete_acc : (s.complete).acc = s.acc := rfl
@[simp] theorem State.complete_accN : (s.complete).accN = s.accN := rfl
@[simp] theorem State.complete_iptr : (s.complete).iptr = s.iptr := rfl
@[simp] theorem State.complete_iend : (s.complete).iend = s.iend := rfl
@[simp] theorem State.complete_ibit : (s.complete).ibit = s.ibit := rfl
@[simp] theorem State.complete_idx : (s.complete).idx = s.idx := rfl
@[simp] theorem State.complete_hist : (s.complete).hist = s.hist := rfl
@[simp] theorem State.complete_node : (s.complete).node = s.node := rfl
@[simp] theorem State.complete_ctab : (s.complete).ctab = s.ctab := rfl
@[simp] theorem State.complete_pq : (s.complete).pq = s.pq := rfl
@[simp] theorem State.complete_wstack : (s.complete).wstack = s.wstack := rfl
@[simp] theorem State.complete_dacc : (s.complete).dacc = s.dacc := rfl
@[simp] theorem State.complete_ibuf : (s.complete).ibuf = s.ibuf := rfl
@[simp] theorem State.complete_obuf : (s.complete).obuf = s.obuf := rfl
@[simp] theorem State.complete_turns : (s.complete).turns = s.turns := rfl
@[simp] theorem State.complete_rdata : (s.complete).rdata = s.rdata := rfl
@[simp] theorem State.complete_draws : (s.complete).draws = s.draws := rfl
@[simp] theorem State.complete_raced : (s.complete).raced = false := rfl

/-! ### recordError (R118) -/

@[simp] theorem State.recordError_params (e : ErrorCode) (i : Word) : (s.recordError e i).params = s.params := rfl
@[simp] theorem State.recordError_ie (e : ErrorCode) (i : Word) : (s.recordError e i).ie = s.ie := rfl
@[simp] theorem State.recordError_pending (e : ErrorCode) (i : Word) : (s.recordError e i).pending = s.pending := rfl
@[simp] theorem State.recordError_done (e : ErrorCode) (i : Word) : (s.recordError e i).done = s.done := rfl
@[simp] theorem State.recordError_err (e : ErrorCode) (i : Word) : (s.recordError e i).err = true := rfl
@[simp] theorem State.recordError_ovr (e : ErrorCode) (i : Word) : (s.recordError e i).ovr = s.ovr := rfl
@[simp] theorem State.recordError_treeValid (e : ErrorCode) (i : Word) : (s.recordError e i).treeValid = s.treeValid := rfl
@[simp] theorem State.recordError_tableValid (e : ErrorCode) (i : Word) : (s.recordError e i).tableValid = s.tableValid := rfl
@[simp] theorem State.recordError_errcode (e : ErrorCode) (i : Word) : (s.recordError e i).errcode = errorNumber e := rfl
@[simp] theorem State.recordError_errInfo (e : ErrorCode) (i : Word) : (s.recordError e i).errInfo = i := rfl
@[simp] theorem State.recordError_srcAddr (e : ErrorCode) (i : Word) : (s.recordError e i).srcAddr = s.srcAddr := rfl
@[simp] theorem State.recordError_srcLen (e : ErrorCode) (i : Word) : (s.recordError e i).srcLen = s.srcLen := rfl
@[simp] theorem State.recordError_dstAddr (e : ErrorCode) (i : Word) : (s.recordError e i).dstAddr = s.dstAddr := rfl
@[simp] theorem State.recordError_arg (e : ErrorCode) (i : Word) : (s.recordError e i).arg = s.arg := rfl
@[simp] theorem State.recordError_result (e : ErrorCode) (i : Word) : (s.recordError e i).result = s.result := rfl
@[simp] theorem State.recordError_origLen (e : ErrorCode) (i : Word) : (s.recordError e i).origLen = s.origLen := rfl
@[simp] theorem State.recordError_htotal (e : ErrorCode) (i : Word) : (s.recordError e i).htotal = s.htotal := rfl
@[simp] theorem State.recordError_symcount (e : ErrorCode) (i : Word) : (s.recordError e i).symcount = s.symcount := rfl
@[simp] theorem State.recordError_nodeCount (e : ErrorCode) (i : Word) : (s.recordError e i).nodeCount = s.nodeCount := rfl
@[simp] theorem State.recordError_root (e : ErrorCode) (i : Word) : (s.recordError e i).root = s.root := rfl
@[simp] theorem State.recordError_optr (e : ErrorCode) (i : Word) : (s.recordError e i).optr = s.optr := rfl
@[simp] theorem State.recordError_acc (e : ErrorCode) (i : Word) : (s.recordError e i).acc = s.acc := rfl
@[simp] theorem State.recordError_accN (e : ErrorCode) (i : Word) : (s.recordError e i).accN = s.accN := rfl
@[simp] theorem State.recordError_iptr (e : ErrorCode) (i : Word) : (s.recordError e i).iptr = s.iptr := rfl
@[simp] theorem State.recordError_iend (e : ErrorCode) (i : Word) : (s.recordError e i).iend = s.iend := rfl
@[simp] theorem State.recordError_ibit (e : ErrorCode) (i : Word) : (s.recordError e i).ibit = s.ibit := rfl
@[simp] theorem State.recordError_idx (e : ErrorCode) (i : Word) : (s.recordError e i).idx = s.idx := rfl
@[simp] theorem State.recordError_hist (e : ErrorCode) (i : Word) : (s.recordError e i).hist = s.hist := rfl
@[simp] theorem State.recordError_node (e : ErrorCode) (i : Word) : (s.recordError e i).node = s.node := rfl
@[simp] theorem State.recordError_ctab (e : ErrorCode) (i : Word) : (s.recordError e i).ctab = s.ctab := rfl
@[simp] theorem State.recordError_pq (e : ErrorCode) (i : Word) : (s.recordError e i).pq = s.pq := rfl
@[simp] theorem State.recordError_wstack (e : ErrorCode) (i : Word) : (s.recordError e i).wstack = s.wstack := rfl
@[simp] theorem State.recordError_dacc (e : ErrorCode) (i : Word) : (s.recordError e i).dacc = s.dacc := rfl
@[simp] theorem State.recordError_ibuf (e : ErrorCode) (i : Word) : (s.recordError e i).ibuf = s.ibuf := rfl
@[simp] theorem State.recordError_obuf (e : ErrorCode) (i : Word) : (s.recordError e i).obuf = s.obuf := rfl
@[simp] theorem State.recordError_turns (e : ErrorCode) (i : Word) : (s.recordError e i).turns = s.turns := rfl
@[simp] theorem State.recordError_rdata (e : ErrorCode) (i : Word) : (s.recordError e i).rdata = s.rdata := rfl
@[simp] theorem State.recordError_draws (e : ErrorCode) (i : Word) : (s.recordError e i).draws = s.draws := rfl
@[simp] theorem State.recordError_raced (e : ErrorCode) (i : Word) : (s.recordError e i).raced = s.raced := rfl

/-! ### drawDatapath (R117) -/

@[simp] theorem State.drawDatapath_params : (s.drawDatapath).params = s.params := rfl
@[simp] theorem State.drawDatapath_ie : (s.drawDatapath).ie = s.ie := rfl
@[simp] theorem State.drawDatapath_pending : (s.drawDatapath).pending = s.pending := rfl
@[simp] theorem State.drawDatapath_done : (s.drawDatapath).done = s.done := rfl
@[simp] theorem State.drawDatapath_err : (s.drawDatapath).err = s.err := rfl
@[simp] theorem State.drawDatapath_ovr : (s.drawDatapath).ovr = s.ovr := rfl
@[simp] theorem State.drawDatapath_treeValid : (s.drawDatapath).treeValid = freeFlag s.draws .treeValid := rfl
@[simp] theorem State.drawDatapath_tableValid : (s.drawDatapath).tableValid = freeFlag s.draws .tableValid := rfl
@[simp] theorem State.drawDatapath_errcode : (s.drawDatapath).errcode = s.errcode := rfl
@[simp] theorem State.drawDatapath_errInfo : (s.drawDatapath).errInfo = s.errInfo := rfl
@[simp] theorem State.drawDatapath_srcAddr : (s.drawDatapath).srcAddr = s.srcAddr := rfl
@[simp] theorem State.drawDatapath_srcLen : (s.drawDatapath).srcLen = s.srcLen := rfl
@[simp] theorem State.drawDatapath_dstAddr : (s.drawDatapath).dstAddr = s.dstAddr := rfl
@[simp] theorem State.drawDatapath_arg : (s.drawDatapath).arg = s.arg := rfl
@[simp] theorem State.drawDatapath_result : (s.drawDatapath).result = freeReg s.draws .result := rfl
@[simp] theorem State.drawDatapath_origLen : (s.drawDatapath).origLen = freeReg s.draws .origLen := rfl
@[simp] theorem State.drawDatapath_htotal : (s.drawDatapath).htotal = freeReg s.draws .htotal := rfl
@[simp] theorem State.drawDatapath_symcount : (s.drawDatapath).symcount = (freeReg s.draws .symcount).setWidth 9 := rfl
@[simp] theorem State.drawDatapath_nodeCount : (s.drawDatapath).nodeCount = (freeReg s.draws .nodeCount).setWidth 9 := rfl
@[simp] theorem State.drawDatapath_root : (s.drawDatapath).root = (freeReg s.draws .root).setWidth 9 := rfl
@[simp] theorem State.drawDatapath_optr : (s.drawDatapath).optr = freeReg s.draws .optr := rfl
@[simp] theorem State.drawDatapath_acc : (s.drawDatapath).acc = (freeReg s.draws .acc).setWidth 8 := rfl
@[simp] theorem State.drawDatapath_accN : (s.drawDatapath).accN = (freeReg s.draws .accN).setWidth 4 := rfl
@[simp] theorem State.drawDatapath_iptr : (s.drawDatapath).iptr = freeReg s.draws .iptr := rfl
@[simp] theorem State.drawDatapath_iend : (s.drawDatapath).iend = freeReg s.draws .iend := rfl
@[simp] theorem State.drawDatapath_ibit : (s.drawDatapath).ibit = (freeReg s.draws .ibit).setWidth 3 := rfl
@[simp] theorem State.drawDatapath_idx : (s.drawDatapath).idx = s.idx := rfl
@[simp] theorem State.drawDatapath_hist : (s.drawDatapath).hist = tabulate 256 (freeHist s.draws) := rfl
@[simp] theorem State.drawDatapath_node : (s.drawDatapath).node = tabulate 511 (freeNode s.draws) := rfl
@[simp] theorem State.drawDatapath_ctab : (s.drawDatapath).ctab = tabulate 256 fun b => ⟨freeCodeValid s.draws b, (freeCode s.draws b).take maxCodeLen⟩ := rfl
@[simp] theorem State.drawDatapath_pq : (s.drawDatapath).pq = s.pq := rfl
@[simp] theorem State.drawDatapath_wstack : (s.drawDatapath).wstack = s.wstack := rfl
@[simp] theorem State.drawDatapath_dacc : (s.drawDatapath).dacc = s.dacc := rfl
@[simp] theorem State.drawDatapath_ibuf : (s.drawDatapath).ibuf = s.ibuf := rfl
@[simp] theorem State.drawDatapath_obuf : (s.drawDatapath).obuf = Memory.drawn s.draws := rfl
@[simp] theorem State.drawDatapath_turns : (s.drawDatapath).turns = s.turns := rfl
@[simp] theorem State.drawDatapath_rdata : (s.drawDatapath).rdata = s.rdata := rfl
@[simp] theorem State.drawDatapath_draws : (s.drawDatapath).draws = s.draws + 1 := rfl
@[simp] theorem State.drawDatapath_raced : (s.drawDatapath).raced = s.raced := rfl

/-! ### drawParts (R58, R132) -/

@[simp] theorem State.drawParts_params (ps : List Part) : (s.drawParts ps).params = s.params := rfl
@[simp] theorem State.drawParts_ie (ps : List Part) : (s.drawParts ps).ie = if .operands ∈ ps then freeFlag s.draws .ie else s.ie := rfl
@[simp] theorem State.drawParts_pending (ps : List Part) : (s.drawParts ps).pending = s.pending := rfl
@[simp] theorem State.drawParts_done (ps : List Part) : (s.drawParts ps).done = s.done := rfl
@[simp] theorem State.drawParts_err (ps : List Part) : (s.drawParts ps).err = if .errors ∈ ps then freeFlag s.draws .err else s.err := rfl
@[simp] theorem State.drawParts_ovr (ps : List Part) : (s.drawParts ps).ovr = if .errors ∈ ps then freeFlag s.draws .ovr else s.ovr := rfl
@[simp] theorem State.drawParts_treeValid (ps : List Part) : (s.drawParts ps).treeValid = if .treeValid ∈ ps then s.drawDatapath.treeValid else s.treeValid := rfl
@[simp] theorem State.drawParts_tableValid (ps : List Part) : (s.drawParts ps).tableValid = if .tableValid ∈ ps then s.drawDatapath.tableValid else s.tableValid := rfl
@[simp] theorem State.drawParts_errcode (ps : List Part) : (s.drawParts ps).errcode = if .errors ∈ ps then (if freeFlag s.draws .err then (freeReg s.draws .errcode).setWidth 8 else 0) else s.errcode := rfl
@[simp] theorem State.drawParts_errInfo (ps : List Part) : (s.drawParts ps).errInfo = if .errors ∈ ps then freeReg s.draws .errInfo else s.errInfo := rfl
@[simp] theorem State.drawParts_srcAddr (ps : List Part) : (s.drawParts ps).srcAddr = if .operands ∈ ps then freeReg s.draws .srcAddr else s.srcAddr := rfl
@[simp] theorem State.drawParts_srcLen (ps : List Part) : (s.drawParts ps).srcLen = if .operands ∈ ps then freeReg s.draws .srcLen else s.srcLen := rfl
@[simp] theorem State.drawParts_dstAddr (ps : List Part) : (s.drawParts ps).dstAddr = if .operands ∈ ps then freeReg s.draws .dstAddr else s.dstAddr := rfl
@[simp] theorem State.drawParts_arg (ps : List Part) : (s.drawParts ps).arg = if .operands ∈ ps then freeReg s.draws .arg else s.arg := rfl
@[simp] theorem State.drawParts_result (ps : List Part) : (s.drawParts ps).result = if .result ∈ ps then s.drawDatapath.result else s.result := rfl
@[simp] theorem State.drawParts_origLen (ps : List Part) : (s.drawParts ps).origLen = if .origLen ∈ ps then s.drawDatapath.origLen else s.origLen := rfl
@[simp] theorem State.drawParts_htotal (ps : List Part) : (s.drawParts ps).htotal = if .htotal ∈ ps then s.drawDatapath.htotal else s.htotal := rfl
@[simp] theorem State.drawParts_symcount (ps : List Part) : (s.drawParts ps).symcount = if .symcount ∈ ps then s.drawDatapath.symcount else s.symcount := rfl
@[simp] theorem State.drawParts_nodeCount (ps : List Part) : (s.drawParts ps).nodeCount = if .tree ∈ ps then s.drawDatapath.nodeCount else s.nodeCount := rfl
@[simp] theorem State.drawParts_root (ps : List Part) : (s.drawParts ps).root = if .tree ∈ ps then s.drawDatapath.root else s.root := rfl
@[simp] theorem State.drawParts_optr (ps : List Part) : (s.drawParts ps).optr = if .packer ∈ ps then s.drawDatapath.optr else s.optr := rfl
@[simp] theorem State.drawParts_acc (ps : List Part) : (s.drawParts ps).acc = if .packer ∈ ps then s.drawDatapath.acc else s.acc := rfl
@[simp] theorem State.drawParts_accN (ps : List Part) : (s.drawParts ps).accN = if .packer ∈ ps then s.drawDatapath.accN else s.accN := rfl
@[simp] theorem State.drawParts_iptr (ps : List Part) : (s.drawParts ps).iptr = if .stream ∈ ps then s.drawDatapath.iptr else s.iptr := rfl
@[simp] theorem State.drawParts_iend (ps : List Part) : (s.drawParts ps).iend = if .iend ∈ ps then s.drawDatapath.iend else s.iend := rfl
@[simp] theorem State.drawParts_ibit (ps : List Part) : (s.drawParts ps).ibit = if .stream ∈ ps then s.drawDatapath.ibit else s.ibit := rfl
@[simp] theorem State.drawParts_idx (ps : List Part) : (s.drawParts ps).idx = if .operands ∈ ps then (freeReg s.draws .idx).setWidth 9 else s.idx := rfl
@[simp] theorem State.drawParts_hist (ps : List Part) : (s.drawParts ps).hist = if .hist ∈ ps then s.drawDatapath.hist else s.hist := rfl
@[simp] theorem State.drawParts_node (ps : List Part) : (s.drawParts ps).node = if .tree ∈ ps then s.drawDatapath.node else s.node := rfl
@[simp] theorem State.drawParts_ctab (ps : List Part) : (s.drawParts ps).ctab = if .ctab ∈ ps then s.drawDatapath.ctab else s.ctab := rfl
@[simp] theorem State.drawParts_pq (ps : List Part) : (s.drawParts ps).pq = s.pq := rfl
@[simp] theorem State.drawParts_wstack (ps : List Part) : (s.drawParts ps).wstack = s.wstack := rfl
@[simp] theorem State.drawParts_dacc (ps : List Part) : (s.drawParts ps).dacc = s.dacc := rfl
@[simp] theorem State.drawParts_ibuf (ps : List Part) : (s.drawParts ps).ibuf = s.ibuf := rfl
@[simp] theorem State.drawParts_obuf (ps : List Part) : (s.drawParts ps).obuf = Memory.drawn s.draws := rfl
@[simp] theorem State.drawParts_turns (ps : List Part) : (s.drawParts ps).turns = s.turns := rfl
@[simp] theorem State.drawParts_rdata (ps : List Part) : (s.drawParts ps).rdata = s.rdata := rfl
@[simp] theorem State.drawParts_draws (ps : List Part) : (s.drawParts ps).draws = s.draws + 1 := rfl
@[simp] theorem State.drawParts_raced (ps : List Part) : (s.drawParts ps).raced = s.raced := rfl

/-! ### resetRegs (R137) -/

@[simp] theorem State.resetRegs_params : (s.resetRegs).params = s.params := rfl
@[simp] theorem State.resetRegs_ie : (s.resetRegs).ie = false := rfl
@[simp] theorem State.resetRegs_pending : (s.resetRegs).pending = none := rfl
@[simp] theorem State.resetRegs_done : (s.resetRegs).done = false := rfl
@[simp] theorem State.resetRegs_err : (s.resetRegs).err = false := rfl
@[simp] theorem State.resetRegs_ovr : (s.resetRegs).ovr = false := rfl
@[simp] theorem State.resetRegs_treeValid : (s.resetRegs).treeValid = false := rfl
@[simp] theorem State.resetRegs_tableValid : (s.resetRegs).tableValid = false := rfl
@[simp] theorem State.resetRegs_errcode : (s.resetRegs).errcode = 0 := rfl
@[simp] theorem State.resetRegs_errInfo : (s.resetRegs).errInfo = 0 := rfl
@[simp] theorem State.resetRegs_srcAddr : (s.resetRegs).srcAddr = 0 := rfl
@[simp] theorem State.resetRegs_srcLen : (s.resetRegs).srcLen = 0 := rfl
@[simp] theorem State.resetRegs_dstAddr : (s.resetRegs).dstAddr = 0 := rfl
@[simp] theorem State.resetRegs_arg : (s.resetRegs).arg = 0 := rfl
@[simp] theorem State.resetRegs_result : (s.resetRegs).result = 0 := rfl
@[simp] theorem State.resetRegs_origLen : (s.resetRegs).origLen = 0 := rfl
@[simp] theorem State.resetRegs_htotal : (s.resetRegs).htotal = 0 := rfl
@[simp] theorem State.resetRegs_symcount : (s.resetRegs).symcount = 0 := rfl
@[simp] theorem State.resetRegs_nodeCount : (s.resetRegs).nodeCount = 0 := rfl
@[simp] theorem State.resetRegs_root : (s.resetRegs).root = nilIdx := rfl
@[simp] theorem State.resetRegs_optr : (s.resetRegs).optr = 0 := rfl
@[simp] theorem State.resetRegs_acc : (s.resetRegs).acc = 0 := rfl
@[simp] theorem State.resetRegs_accN : (s.resetRegs).accN = 0 := rfl
@[simp] theorem State.resetRegs_iptr : (s.resetRegs).iptr = 0 := rfl
@[simp] theorem State.resetRegs_iend : (s.resetRegs).iend = 0 := rfl
@[simp] theorem State.resetRegs_ibit : (s.resetRegs).ibit = 0 := rfl
@[simp] theorem State.resetRegs_idx : (s.resetRegs).idx = 0 := rfl
@[simp] theorem State.resetRegs_hist : (s.resetRegs).hist = Vector.replicate 256 0 := rfl
@[simp] theorem State.resetRegs_node : (s.resetRegs).node = tabulate 511 (freeNode s.draws) := rfl
@[simp] theorem State.resetRegs_ctab : (s.resetRegs).ctab = Vector.replicate 256 CodeEntry.invalid := rfl
@[simp] theorem State.resetRegs_pq : (s.resetRegs).pq = [] := rfl
@[simp] theorem State.resetRegs_wstack : (s.resetRegs).wstack = [] := rfl
@[simp] theorem State.resetRegs_dacc : (s.resetRegs).dacc = [] := rfl
@[simp] theorem State.resetRegs_ibuf : (s.resetRegs).ibuf = s.ibuf := rfl
@[simp] theorem State.resetRegs_obuf : (s.resetRegs).obuf = s.obuf := rfl
@[simp] theorem State.resetRegs_turns : (s.resetRegs).turns = s.turns := rfl
@[simp] theorem State.resetRegs_rdata : (s.resetRegs).rdata = s.rdata := rfl
@[simp] theorem State.resetRegs_draws : (s.resetRegs).draws = s.draws + 1 := rfl
@[simp] theorem State.resetRegs_raced : (s.resetRegs).raced = false := rfl

/-! ### powerOn (R135) -/

@[simp] theorem State.powerOn_params : (s.powerOn).params = s.params := rfl
@[simp] theorem State.powerOn_ie : (s.powerOn).ie = false := rfl
@[simp] theorem State.powerOn_pending : (s.powerOn).pending = none := rfl
@[simp] theorem State.powerOn_done : (s.powerOn).done = false := rfl
@[simp] theorem State.powerOn_err : (s.powerOn).err = false := rfl
@[simp] theorem State.powerOn_ovr : (s.powerOn).ovr = false := rfl
@[simp] theorem State.powerOn_treeValid : (s.powerOn).treeValid = false := rfl
@[simp] theorem State.powerOn_tableValid : (s.powerOn).tableValid = false := rfl
@[simp] theorem State.powerOn_errcode : (s.powerOn).errcode = 0 := rfl
@[simp] theorem State.powerOn_errInfo : (s.powerOn).errInfo = 0 := rfl
@[simp] theorem State.powerOn_srcAddr : (s.powerOn).srcAddr = 0 := rfl
@[simp] theorem State.powerOn_srcLen : (s.powerOn).srcLen = 0 := rfl
@[simp] theorem State.powerOn_dstAddr : (s.powerOn).dstAddr = 0 := rfl
@[simp] theorem State.powerOn_arg : (s.powerOn).arg = 0 := rfl
@[simp] theorem State.powerOn_result : (s.powerOn).result = 0 := rfl
@[simp] theorem State.powerOn_origLen : (s.powerOn).origLen = 0 := rfl
@[simp] theorem State.powerOn_htotal : (s.powerOn).htotal = 0 := rfl
@[simp] theorem State.powerOn_symcount : (s.powerOn).symcount = 0 := rfl
@[simp] theorem State.powerOn_nodeCount : (s.powerOn).nodeCount = 0 := rfl
@[simp] theorem State.powerOn_root : (s.powerOn).root = nilIdx := rfl
@[simp] theorem State.powerOn_optr : (s.powerOn).optr = 0 := rfl
@[simp] theorem State.powerOn_acc : (s.powerOn).acc = 0 := rfl
@[simp] theorem State.powerOn_accN : (s.powerOn).accN = 0 := rfl
@[simp] theorem State.powerOn_iptr : (s.powerOn).iptr = 0 := rfl
@[simp] theorem State.powerOn_iend : (s.powerOn).iend = 0 := rfl
@[simp] theorem State.powerOn_ibit : (s.powerOn).ibit = 0 := rfl
@[simp] theorem State.powerOn_idx : (s.powerOn).idx = 0 := rfl
@[simp] theorem State.powerOn_hist : (s.powerOn).hist = Vector.replicate 256 0 := rfl
@[simp] theorem State.powerOn_node : (s.powerOn).node = tabulate 511 (freeNode s.draws) := rfl
@[simp] theorem State.powerOn_ctab : (s.powerOn).ctab = Vector.replicate 256 CodeEntry.invalid := rfl
@[simp] theorem State.powerOn_pq : (s.powerOn).pq = [] := rfl
@[simp] theorem State.powerOn_wstack : (s.powerOn).wstack = [] := rfl
@[simp] theorem State.powerOn_dacc : (s.powerOn).dacc = [] := rfl
@[simp] theorem State.powerOn_ibuf : (s.powerOn).ibuf = Memory.drawn s.draws := rfl
@[simp] theorem State.powerOn_obuf : (s.powerOn).obuf = Memory.drawn s.draws := rfl
@[simp] theorem State.powerOn_turns : (s.powerOn).turns = s.turns := rfl
@[simp] theorem State.powerOn_rdata : (s.powerOn).rdata = s.rdata := rfl
@[simp] theorem State.powerOn_draws : (s.powerOn).draws = s.draws + 1 := rfl
@[simp] theorem State.powerOn_raced : (s.powerOn).raced = false := rfl

/-! ### setHist (R43) -/

@[simp] theorem State.setHist_params (b : Byte) (v : Word) : (s.setHist b v).params = s.params := rfl
@[simp] theorem State.setHist_ie (b : Byte) (v : Word) : (s.setHist b v).ie = s.ie := rfl
@[simp] theorem State.setHist_pending (b : Byte) (v : Word) : (s.setHist b v).pending = s.pending := rfl
@[simp] theorem State.setHist_done (b : Byte) (v : Word) : (s.setHist b v).done = s.done := rfl
@[simp] theorem State.setHist_err (b : Byte) (v : Word) : (s.setHist b v).err = s.err := rfl
@[simp] theorem State.setHist_ovr (b : Byte) (v : Word) : (s.setHist b v).ovr = s.ovr := rfl
@[simp] theorem State.setHist_treeValid (b : Byte) (v : Word) : (s.setHist b v).treeValid = s.treeValid := rfl
@[simp] theorem State.setHist_tableValid (b : Byte) (v : Word) : (s.setHist b v).tableValid = s.tableValid := rfl
@[simp] theorem State.setHist_errcode (b : Byte) (v : Word) : (s.setHist b v).errcode = s.errcode := rfl
@[simp] theorem State.setHist_errInfo (b : Byte) (v : Word) : (s.setHist b v).errInfo = s.errInfo := rfl
@[simp] theorem State.setHist_srcAddr (b : Byte) (v : Word) : (s.setHist b v).srcAddr = s.srcAddr := rfl
@[simp] theorem State.setHist_srcLen (b : Byte) (v : Word) : (s.setHist b v).srcLen = s.srcLen := rfl
@[simp] theorem State.setHist_dstAddr (b : Byte) (v : Word) : (s.setHist b v).dstAddr = s.dstAddr := rfl
@[simp] theorem State.setHist_arg (b : Byte) (v : Word) : (s.setHist b v).arg = s.arg := rfl
@[simp] theorem State.setHist_result (b : Byte) (v : Word) : (s.setHist b v).result = s.result := rfl
@[simp] theorem State.setHist_origLen (b : Byte) (v : Word) : (s.setHist b v).origLen = s.origLen := rfl
@[simp] theorem State.setHist_htotal (b : Byte) (v : Word) : (s.setHist b v).htotal = s.htotal := rfl
@[simp] theorem State.setHist_symcount (b : Byte) (v : Word) : (s.setHist b v).symcount = s.symcount := rfl
@[simp] theorem State.setHist_nodeCount (b : Byte) (v : Word) : (s.setHist b v).nodeCount = s.nodeCount := rfl
@[simp] theorem State.setHist_root (b : Byte) (v : Word) : (s.setHist b v).root = s.root := rfl
@[simp] theorem State.setHist_optr (b : Byte) (v : Word) : (s.setHist b v).optr = s.optr := rfl
@[simp] theorem State.setHist_acc (b : Byte) (v : Word) : (s.setHist b v).acc = s.acc := rfl
@[simp] theorem State.setHist_accN (b : Byte) (v : Word) : (s.setHist b v).accN = s.accN := rfl
@[simp] theorem State.setHist_iptr (b : Byte) (v : Word) : (s.setHist b v).iptr = s.iptr := rfl
@[simp] theorem State.setHist_iend (b : Byte) (v : Word) : (s.setHist b v).iend = s.iend := rfl
@[simp] theorem State.setHist_ibit (b : Byte) (v : Word) : (s.setHist b v).ibit = s.ibit := rfl
@[simp] theorem State.setHist_idx (b : Byte) (v : Word) : (s.setHist b v).idx = s.idx := rfl
@[simp] theorem State.setHist_hist (b : Byte) (v : Word) : (s.setHist b v).hist = s.hist.set b.toNat v b.isLt := rfl
@[simp] theorem State.setHist_node (b : Byte) (v : Word) : (s.setHist b v).node = s.node := rfl
@[simp] theorem State.setHist_ctab (b : Byte) (v : Word) : (s.setHist b v).ctab = s.ctab := rfl
@[simp] theorem State.setHist_pq (b : Byte) (v : Word) : (s.setHist b v).pq = s.pq := rfl
@[simp] theorem State.setHist_wstack (b : Byte) (v : Word) : (s.setHist b v).wstack = s.wstack := rfl
@[simp] theorem State.setHist_dacc (b : Byte) (v : Word) : (s.setHist b v).dacc = s.dacc := rfl
@[simp] theorem State.setHist_ibuf (b : Byte) (v : Word) : (s.setHist b v).ibuf = s.ibuf := rfl
@[simp] theorem State.setHist_obuf (b : Byte) (v : Word) : (s.setHist b v).obuf = s.obuf := rfl
@[simp] theorem State.setHist_turns (b : Byte) (v : Word) : (s.setHist b v).turns = s.turns := rfl
@[simp] theorem State.setHist_rdata (b : Byte) (v : Word) : (s.setHist b v).rdata = s.rdata := rfl
@[simp] theorem State.setHist_draws (b : Byte) (v : Word) : (s.setHist b v).draws = s.draws := rfl
@[simp] theorem State.setHist_raced (b : Byte) (v : Word) : (s.setHist b v).raced = s.raced := rfl

/-! ### setNode (R44) -/

@[simp] theorem State.setNode_params (i : NodeIdx) (n : Node) : (s.setNode i n).params = s.params := rfl
@[simp] theorem State.setNode_ie (i : NodeIdx) (n : Node) : (s.setNode i n).ie = s.ie := rfl
@[simp] theorem State.setNode_pending (i : NodeIdx) (n : Node) : (s.setNode i n).pending = s.pending := rfl
@[simp] theorem State.setNode_done (i : NodeIdx) (n : Node) : (s.setNode i n).done = s.done := rfl
@[simp] theorem State.setNode_err (i : NodeIdx) (n : Node) : (s.setNode i n).err = s.err := rfl
@[simp] theorem State.setNode_ovr (i : NodeIdx) (n : Node) : (s.setNode i n).ovr = s.ovr := rfl
@[simp] theorem State.setNode_treeValid (i : NodeIdx) (n : Node) : (s.setNode i n).treeValid = s.treeValid := rfl
@[simp] theorem State.setNode_tableValid (i : NodeIdx) (n : Node) : (s.setNode i n).tableValid = s.tableValid := rfl
@[simp] theorem State.setNode_errcode (i : NodeIdx) (n : Node) : (s.setNode i n).errcode = s.errcode := rfl
@[simp] theorem State.setNode_errInfo (i : NodeIdx) (n : Node) : (s.setNode i n).errInfo = s.errInfo := rfl
@[simp] theorem State.setNode_srcAddr (i : NodeIdx) (n : Node) : (s.setNode i n).srcAddr = s.srcAddr := rfl
@[simp] theorem State.setNode_srcLen (i : NodeIdx) (n : Node) : (s.setNode i n).srcLen = s.srcLen := rfl
@[simp] theorem State.setNode_dstAddr (i : NodeIdx) (n : Node) : (s.setNode i n).dstAddr = s.dstAddr := rfl
@[simp] theorem State.setNode_arg (i : NodeIdx) (n : Node) : (s.setNode i n).arg = s.arg := rfl
@[simp] theorem State.setNode_result (i : NodeIdx) (n : Node) : (s.setNode i n).result = s.result := rfl
@[simp] theorem State.setNode_origLen (i : NodeIdx) (n : Node) : (s.setNode i n).origLen = s.origLen := rfl
@[simp] theorem State.setNode_htotal (i : NodeIdx) (n : Node) : (s.setNode i n).htotal = s.htotal := rfl
@[simp] theorem State.setNode_symcount (i : NodeIdx) (n : Node) : (s.setNode i n).symcount = s.symcount := rfl
@[simp] theorem State.setNode_nodeCount (i : NodeIdx) (n : Node) : (s.setNode i n).nodeCount = s.nodeCount := rfl
@[simp] theorem State.setNode_root (i : NodeIdx) (n : Node) : (s.setNode i n).root = s.root := rfl
@[simp] theorem State.setNode_optr (i : NodeIdx) (n : Node) : (s.setNode i n).optr = s.optr := rfl
@[simp] theorem State.setNode_acc (i : NodeIdx) (n : Node) : (s.setNode i n).acc = s.acc := rfl
@[simp] theorem State.setNode_accN (i : NodeIdx) (n : Node) : (s.setNode i n).accN = s.accN := rfl
@[simp] theorem State.setNode_iptr (i : NodeIdx) (n : Node) : (s.setNode i n).iptr = s.iptr := rfl
@[simp] theorem State.setNode_iend (i : NodeIdx) (n : Node) : (s.setNode i n).iend = s.iend := rfl
@[simp] theorem State.setNode_ibit (i : NodeIdx) (n : Node) : (s.setNode i n).ibit = s.ibit := rfl
@[simp] theorem State.setNode_idx (i : NodeIdx) (n : Node) : (s.setNode i n).idx = s.idx := rfl
@[simp] theorem State.setNode_hist (i : NodeIdx) (n : Node) : (s.setNode i n).hist = s.hist := rfl
@[simp] theorem State.setNode_node (i : NodeIdx) (n : Node) : (s.setNode i n).node = s.node.setIfInBounds i.toNat n := rfl
@[simp] theorem State.setNode_ctab (i : NodeIdx) (n : Node) : (s.setNode i n).ctab = s.ctab := rfl
@[simp] theorem State.setNode_pq (i : NodeIdx) (n : Node) : (s.setNode i n).pq = s.pq := rfl
@[simp] theorem State.setNode_wstack (i : NodeIdx) (n : Node) : (s.setNode i n).wstack = s.wstack := rfl
@[simp] theorem State.setNode_dacc (i : NodeIdx) (n : Node) : (s.setNode i n).dacc = s.dacc := rfl
@[simp] theorem State.setNode_ibuf (i : NodeIdx) (n : Node) : (s.setNode i n).ibuf = s.ibuf := rfl
@[simp] theorem State.setNode_obuf (i : NodeIdx) (n : Node) : (s.setNode i n).obuf = s.obuf := rfl
@[simp] theorem State.setNode_turns (i : NodeIdx) (n : Node) : (s.setNode i n).turns = s.turns := rfl
@[simp] theorem State.setNode_rdata (i : NodeIdx) (n : Node) : (s.setNode i n).rdata = s.rdata := rfl
@[simp] theorem State.setNode_draws (i : NodeIdx) (n : Node) : (s.setNode i n).draws = s.draws := rfl
@[simp] theorem State.setNode_raced (i : NodeIdx) (n : Node) : (s.setNode i n).raced = s.raced := rfl

/-! ### setCode (R46) -/

@[simp] theorem State.setCode_params (b : Byte) (c : Bits) : (s.setCode b c).params = s.params := rfl
@[simp] theorem State.setCode_ie (b : Byte) (c : Bits) : (s.setCode b c).ie = s.ie := rfl
@[simp] theorem State.setCode_pending (b : Byte) (c : Bits) : (s.setCode b c).pending = s.pending := rfl
@[simp] theorem State.setCode_done (b : Byte) (c : Bits) : (s.setCode b c).done = s.done := rfl
@[simp] theorem State.setCode_err (b : Byte) (c : Bits) : (s.setCode b c).err = s.err := rfl
@[simp] theorem State.setCode_ovr (b : Byte) (c : Bits) : (s.setCode b c).ovr = s.ovr := rfl
@[simp] theorem State.setCode_treeValid (b : Byte) (c : Bits) : (s.setCode b c).treeValid = s.treeValid := rfl
@[simp] theorem State.setCode_tableValid (b : Byte) (c : Bits) : (s.setCode b c).tableValid = s.tableValid := rfl
@[simp] theorem State.setCode_errcode (b : Byte) (c : Bits) : (s.setCode b c).errcode = s.errcode := rfl
@[simp] theorem State.setCode_errInfo (b : Byte) (c : Bits) : (s.setCode b c).errInfo = s.errInfo := rfl
@[simp] theorem State.setCode_srcAddr (b : Byte) (c : Bits) : (s.setCode b c).srcAddr = s.srcAddr := rfl
@[simp] theorem State.setCode_srcLen (b : Byte) (c : Bits) : (s.setCode b c).srcLen = s.srcLen := rfl
@[simp] theorem State.setCode_dstAddr (b : Byte) (c : Bits) : (s.setCode b c).dstAddr = s.dstAddr := rfl
@[simp] theorem State.setCode_arg (b : Byte) (c : Bits) : (s.setCode b c).arg = s.arg := rfl
@[simp] theorem State.setCode_result (b : Byte) (c : Bits) : (s.setCode b c).result = s.result := rfl
@[simp] theorem State.setCode_origLen (b : Byte) (c : Bits) : (s.setCode b c).origLen = s.origLen := rfl
@[simp] theorem State.setCode_htotal (b : Byte) (c : Bits) : (s.setCode b c).htotal = s.htotal := rfl
@[simp] theorem State.setCode_symcount (b : Byte) (c : Bits) : (s.setCode b c).symcount = s.symcount := rfl
@[simp] theorem State.setCode_nodeCount (b : Byte) (c : Bits) : (s.setCode b c).nodeCount = s.nodeCount := rfl
@[simp] theorem State.setCode_root (b : Byte) (c : Bits) : (s.setCode b c).root = s.root := rfl
@[simp] theorem State.setCode_optr (b : Byte) (c : Bits) : (s.setCode b c).optr = s.optr := rfl
@[simp] theorem State.setCode_acc (b : Byte) (c : Bits) : (s.setCode b c).acc = s.acc := rfl
@[simp] theorem State.setCode_accN (b : Byte) (c : Bits) : (s.setCode b c).accN = s.accN := rfl
@[simp] theorem State.setCode_iptr (b : Byte) (c : Bits) : (s.setCode b c).iptr = s.iptr := rfl
@[simp] theorem State.setCode_iend (b : Byte) (c : Bits) : (s.setCode b c).iend = s.iend := rfl
@[simp] theorem State.setCode_ibit (b : Byte) (c : Bits) : (s.setCode b c).ibit = s.ibit := rfl
@[simp] theorem State.setCode_idx (b : Byte) (c : Bits) : (s.setCode b c).idx = s.idx := rfl
@[simp] theorem State.setCode_hist (b : Byte) (c : Bits) : (s.setCode b c).hist = s.hist := rfl
@[simp] theorem State.setCode_node (b : Byte) (c : Bits) : (s.setCode b c).node = s.node := rfl
@[simp] theorem State.setCode_ctab (b : Byte) (c : Bits) : (s.setCode b c).ctab = s.ctab.set b.toNat ⟨true, c.take maxCodeLen⟩ b.isLt := rfl
@[simp] theorem State.setCode_pq (b : Byte) (c : Bits) : (s.setCode b c).pq = s.pq := rfl
@[simp] theorem State.setCode_wstack (b : Byte) (c : Bits) : (s.setCode b c).wstack = s.wstack := rfl
@[simp] theorem State.setCode_dacc (b : Byte) (c : Bits) : (s.setCode b c).dacc = s.dacc := rfl
@[simp] theorem State.setCode_ibuf (b : Byte) (c : Bits) : (s.setCode b c).ibuf = s.ibuf := rfl
@[simp] theorem State.setCode_obuf (b : Byte) (c : Bits) : (s.setCode b c).obuf = s.obuf := rfl
@[simp] theorem State.setCode_turns (b : Byte) (c : Bits) : (s.setCode b c).turns = s.turns := rfl
@[simp] theorem State.setCode_rdata (b : Byte) (c : Bits) : (s.setCode b c).rdata = s.rdata := rfl
@[simp] theorem State.setCode_draws (b : Byte) (c : Bits) : (s.setCode b c).draws = s.draws := rfl
@[simp] theorem State.setCode_raced (b : Byte) (c : Bits) : (s.setCode b c).raced = s.raced := rfl

/-! ### clearTable (R81) -/

@[simp] theorem State.clearTable_params : (s.clearTable).params = s.params := rfl
@[simp] theorem State.clearTable_ie : (s.clearTable).ie = s.ie := rfl
@[simp] theorem State.clearTable_pending : (s.clearTable).pending = s.pending := rfl
@[simp] theorem State.clearTable_done : (s.clearTable).done = s.done := rfl
@[simp] theorem State.clearTable_err : (s.clearTable).err = s.err := rfl
@[simp] theorem State.clearTable_ovr : (s.clearTable).ovr = s.ovr := rfl
@[simp] theorem State.clearTable_treeValid : (s.clearTable).treeValid = s.treeValid := rfl
@[simp] theorem State.clearTable_tableValid : (s.clearTable).tableValid = s.tableValid := rfl
@[simp] theorem State.clearTable_errcode : (s.clearTable).errcode = s.errcode := rfl
@[simp] theorem State.clearTable_errInfo : (s.clearTable).errInfo = s.errInfo := rfl
@[simp] theorem State.clearTable_srcAddr : (s.clearTable).srcAddr = s.srcAddr := rfl
@[simp] theorem State.clearTable_srcLen : (s.clearTable).srcLen = s.srcLen := rfl
@[simp] theorem State.clearTable_dstAddr : (s.clearTable).dstAddr = s.dstAddr := rfl
@[simp] theorem State.clearTable_arg : (s.clearTable).arg = s.arg := rfl
@[simp] theorem State.clearTable_result : (s.clearTable).result = s.result := rfl
@[simp] theorem State.clearTable_origLen : (s.clearTable).origLen = s.origLen := rfl
@[simp] theorem State.clearTable_htotal : (s.clearTable).htotal = s.htotal := rfl
@[simp] theorem State.clearTable_symcount : (s.clearTable).symcount = s.symcount := rfl
@[simp] theorem State.clearTable_nodeCount : (s.clearTable).nodeCount = s.nodeCount := rfl
@[simp] theorem State.clearTable_root : (s.clearTable).root = s.root := rfl
@[simp] theorem State.clearTable_optr : (s.clearTable).optr = s.optr := rfl
@[simp] theorem State.clearTable_acc : (s.clearTable).acc = s.acc := rfl
@[simp] theorem State.clearTable_accN : (s.clearTable).accN = s.accN := rfl
@[simp] theorem State.clearTable_iptr : (s.clearTable).iptr = s.iptr := rfl
@[simp] theorem State.clearTable_iend : (s.clearTable).iend = s.iend := rfl
@[simp] theorem State.clearTable_ibit : (s.clearTable).ibit = s.ibit := rfl
@[simp] theorem State.clearTable_idx : (s.clearTable).idx = s.idx := rfl
@[simp] theorem State.clearTable_hist : (s.clearTable).hist = s.hist := rfl
@[simp] theorem State.clearTable_node : (s.clearTable).node = s.node := rfl
@[simp] theorem State.clearTable_ctab : (s.clearTable).ctab = Vector.replicate 256 CodeEntry.invalid := rfl
@[simp] theorem State.clearTable_pq : (s.clearTable).pq = s.pq := rfl
@[simp] theorem State.clearTable_wstack : (s.clearTable).wstack = s.wstack := rfl
@[simp] theorem State.clearTable_dacc : (s.clearTable).dacc = s.dacc := rfl
@[simp] theorem State.clearTable_ibuf : (s.clearTable).ibuf = s.ibuf := rfl
@[simp] theorem State.clearTable_obuf : (s.clearTable).obuf = s.obuf := rfl
@[simp] theorem State.clearTable_turns : (s.clearTable).turns = s.turns := rfl
@[simp] theorem State.clearTable_rdata : (s.clearTable).rdata = s.rdata := rfl
@[simp] theorem State.clearTable_draws : (s.clearTable).draws = s.draws := rfl
@[simp] theorem State.clearTable_raced : (s.clearTable).raced = s.raced := rfl

/-! ### pqInsert (R74) -/

@[simp] theorem State.pqInsert_params (i : NodeIdx) : (s.pqInsert i).params = s.params := rfl
@[simp] theorem State.pqInsert_ie (i : NodeIdx) : (s.pqInsert i).ie = s.ie := rfl
@[simp] theorem State.pqInsert_pending (i : NodeIdx) : (s.pqInsert i).pending = s.pending := rfl
@[simp] theorem State.pqInsert_done (i : NodeIdx) : (s.pqInsert i).done = s.done := rfl
@[simp] theorem State.pqInsert_err (i : NodeIdx) : (s.pqInsert i).err = s.err := rfl
@[simp] theorem State.pqInsert_ovr (i : NodeIdx) : (s.pqInsert i).ovr = s.ovr := rfl
@[simp] theorem State.pqInsert_treeValid (i : NodeIdx) : (s.pqInsert i).treeValid = s.treeValid := rfl
@[simp] theorem State.pqInsert_tableValid (i : NodeIdx) : (s.pqInsert i).tableValid = s.tableValid := rfl
@[simp] theorem State.pqInsert_errcode (i : NodeIdx) : (s.pqInsert i).errcode = s.errcode := rfl
@[simp] theorem State.pqInsert_errInfo (i : NodeIdx) : (s.pqInsert i).errInfo = s.errInfo := rfl
@[simp] theorem State.pqInsert_srcAddr (i : NodeIdx) : (s.pqInsert i).srcAddr = s.srcAddr := rfl
@[simp] theorem State.pqInsert_srcLen (i : NodeIdx) : (s.pqInsert i).srcLen = s.srcLen := rfl
@[simp] theorem State.pqInsert_dstAddr (i : NodeIdx) : (s.pqInsert i).dstAddr = s.dstAddr := rfl
@[simp] theorem State.pqInsert_arg (i : NodeIdx) : (s.pqInsert i).arg = s.arg := rfl
@[simp] theorem State.pqInsert_result (i : NodeIdx) : (s.pqInsert i).result = s.result := rfl
@[simp] theorem State.pqInsert_origLen (i : NodeIdx) : (s.pqInsert i).origLen = s.origLen := rfl
@[simp] theorem State.pqInsert_htotal (i : NodeIdx) : (s.pqInsert i).htotal = s.htotal := rfl
@[simp] theorem State.pqInsert_symcount (i : NodeIdx) : (s.pqInsert i).symcount = s.symcount := rfl
@[simp] theorem State.pqInsert_nodeCount (i : NodeIdx) : (s.pqInsert i).nodeCount = s.nodeCount := rfl
@[simp] theorem State.pqInsert_root (i : NodeIdx) : (s.pqInsert i).root = s.root := rfl
@[simp] theorem State.pqInsert_optr (i : NodeIdx) : (s.pqInsert i).optr = s.optr := rfl
@[simp] theorem State.pqInsert_acc (i : NodeIdx) : (s.pqInsert i).acc = s.acc := rfl
@[simp] theorem State.pqInsert_accN (i : NodeIdx) : (s.pqInsert i).accN = s.accN := rfl
@[simp] theorem State.pqInsert_iptr (i : NodeIdx) : (s.pqInsert i).iptr = s.iptr := rfl
@[simp] theorem State.pqInsert_iend (i : NodeIdx) : (s.pqInsert i).iend = s.iend := rfl
@[simp] theorem State.pqInsert_ibit (i : NodeIdx) : (s.pqInsert i).ibit = s.ibit := rfl
@[simp] theorem State.pqInsert_idx (i : NodeIdx) : (s.pqInsert i).idx = s.idx := rfl
@[simp] theorem State.pqInsert_hist (i : NodeIdx) : (s.pqInsert i).hist = s.hist := rfl
@[simp] theorem State.pqInsert_node (i : NodeIdx) : (s.pqInsert i).node = s.node := rfl
@[simp] theorem State.pqInsert_ctab (i : NodeIdx) : (s.pqInsert i).ctab = s.ctab := rfl
@[simp] theorem State.pqInsert_pq (i : NodeIdx) : (s.pqInsert i).pq = i :: s.pq := rfl
@[simp] theorem State.pqInsert_wstack (i : NodeIdx) : (s.pqInsert i).wstack = s.wstack := rfl
@[simp] theorem State.pqInsert_dacc (i : NodeIdx) : (s.pqInsert i).dacc = s.dacc := rfl
@[simp] theorem State.pqInsert_ibuf (i : NodeIdx) : (s.pqInsert i).ibuf = s.ibuf := rfl
@[simp] theorem State.pqInsert_obuf (i : NodeIdx) : (s.pqInsert i).obuf = s.obuf := rfl
@[simp] theorem State.pqInsert_turns (i : NodeIdx) : (s.pqInsert i).turns = s.turns := rfl
@[simp] theorem State.pqInsert_rdata (i : NodeIdx) : (s.pqInsert i).rdata = s.rdata := rfl
@[simp] theorem State.pqInsert_draws (i : NodeIdx) : (s.pqInsert i).draws = s.draws := rfl
@[simp] theorem State.pqInsert_raced (i : NodeIdx) : (s.pqInsert i).raced = s.raced := rfl

/-! ### answer (R53) -/

@[simp] theorem State.answer_params (w : Word) : (s.answer w).params = s.params := rfl
@[simp] theorem State.answer_ie (w : Word) : (s.answer w).ie = s.ie := rfl
@[simp] theorem State.answer_pending (w : Word) : (s.answer w).pending = s.pending := rfl
@[simp] theorem State.answer_done (w : Word) : (s.answer w).done = s.done := rfl
@[simp] theorem State.answer_err (w : Word) : (s.answer w).err = s.err := rfl
@[simp] theorem State.answer_ovr (w : Word) : (s.answer w).ovr = s.ovr := rfl
@[simp] theorem State.answer_treeValid (w : Word) : (s.answer w).treeValid = s.treeValid := rfl
@[simp] theorem State.answer_tableValid (w : Word) : (s.answer w).tableValid = s.tableValid := rfl
@[simp] theorem State.answer_errcode (w : Word) : (s.answer w).errcode = s.errcode := rfl
@[simp] theorem State.answer_errInfo (w : Word) : (s.answer w).errInfo = s.errInfo := rfl
@[simp] theorem State.answer_srcAddr (w : Word) : (s.answer w).srcAddr = s.srcAddr := rfl
@[simp] theorem State.answer_srcLen (w : Word) : (s.answer w).srcLen = s.srcLen := rfl
@[simp] theorem State.answer_dstAddr (w : Word) : (s.answer w).dstAddr = s.dstAddr := rfl
@[simp] theorem State.answer_arg (w : Word) : (s.answer w).arg = s.arg := rfl
@[simp] theorem State.answer_result (w : Word) : (s.answer w).result = s.result := rfl
@[simp] theorem State.answer_origLen (w : Word) : (s.answer w).origLen = s.origLen := rfl
@[simp] theorem State.answer_htotal (w : Word) : (s.answer w).htotal = s.htotal := rfl
@[simp] theorem State.answer_symcount (w : Word) : (s.answer w).symcount = s.symcount := rfl
@[simp] theorem State.answer_nodeCount (w : Word) : (s.answer w).nodeCount = s.nodeCount := rfl
@[simp] theorem State.answer_root (w : Word) : (s.answer w).root = s.root := rfl
@[simp] theorem State.answer_optr (w : Word) : (s.answer w).optr = s.optr := rfl
@[simp] theorem State.answer_acc (w : Word) : (s.answer w).acc = s.acc := rfl
@[simp] theorem State.answer_accN (w : Word) : (s.answer w).accN = s.accN := rfl
@[simp] theorem State.answer_iptr (w : Word) : (s.answer w).iptr = s.iptr := rfl
@[simp] theorem State.answer_iend (w : Word) : (s.answer w).iend = s.iend := rfl
@[simp] theorem State.answer_ibit (w : Word) : (s.answer w).ibit = s.ibit := rfl
@[simp] theorem State.answer_idx (w : Word) : (s.answer w).idx = s.idx := rfl
@[simp] theorem State.answer_hist (w : Word) : (s.answer w).hist = s.hist := rfl
@[simp] theorem State.answer_node (w : Word) : (s.answer w).node = s.node := rfl
@[simp] theorem State.answer_ctab (w : Word) : (s.answer w).ctab = s.ctab := rfl
@[simp] theorem State.answer_pq (w : Word) : (s.answer w).pq = s.pq := rfl
@[simp] theorem State.answer_wstack (w : Word) : (s.answer w).wstack = s.wstack := rfl
@[simp] theorem State.answer_dacc (w : Word) : (s.answer w).dacc = s.dacc := rfl
@[simp] theorem State.answer_ibuf (w : Word) : (s.answer w).ibuf = s.ibuf := rfl
@[simp] theorem State.answer_obuf (w : Word) : (s.answer w).obuf = s.obuf := rfl
@[simp] theorem State.answer_turns (w : Word) : (s.answer w).turns = s.turns := rfl
@[simp] theorem State.answer_rdata (w : Word) : (s.answer w).rdata = w := rfl
@[simp] theorem State.answer_draws (w : Word) : (s.answer w).draws = s.draws := rfl
@[simp] theorem State.answer_raced (w : Word) : (s.answer w).raced = s.raced := rfl

/-! ### answerFree (R49) -/

@[simp] theorem State.answerFree_params (w : Word) : (s.answerFree w).params = s.params := rfl
@[simp] theorem State.answerFree_ie (w : Word) : (s.answerFree w).ie = s.ie := rfl
@[simp] theorem State.answerFree_pending (w : Word) : (s.answerFree w).pending = s.pending := rfl
@[simp] theorem State.answerFree_done (w : Word) : (s.answerFree w).done = s.done := rfl
@[simp] theorem State.answerFree_err (w : Word) : (s.answerFree w).err = s.err := rfl
@[simp] theorem State.answerFree_ovr (w : Word) : (s.answerFree w).ovr = s.ovr := rfl
@[simp] theorem State.answerFree_treeValid (w : Word) : (s.answerFree w).treeValid = s.treeValid := rfl
@[simp] theorem State.answerFree_tableValid (w : Word) : (s.answerFree w).tableValid = s.tableValid := rfl
@[simp] theorem State.answerFree_errcode (w : Word) : (s.answerFree w).errcode = s.errcode := rfl
@[simp] theorem State.answerFree_errInfo (w : Word) : (s.answerFree w).errInfo = s.errInfo := rfl
@[simp] theorem State.answerFree_srcAddr (w : Word) : (s.answerFree w).srcAddr = s.srcAddr := rfl
@[simp] theorem State.answerFree_srcLen (w : Word) : (s.answerFree w).srcLen = s.srcLen := rfl
@[simp] theorem State.answerFree_dstAddr (w : Word) : (s.answerFree w).dstAddr = s.dstAddr := rfl
@[simp] theorem State.answerFree_arg (w : Word) : (s.answerFree w).arg = s.arg := rfl
@[simp] theorem State.answerFree_result (w : Word) : (s.answerFree w).result = s.result := rfl
@[simp] theorem State.answerFree_origLen (w : Word) : (s.answerFree w).origLen = s.origLen := rfl
@[simp] theorem State.answerFree_htotal (w : Word) : (s.answerFree w).htotal = s.htotal := rfl
@[simp] theorem State.answerFree_symcount (w : Word) : (s.answerFree w).symcount = s.symcount := rfl
@[simp] theorem State.answerFree_nodeCount (w : Word) : (s.answerFree w).nodeCount = s.nodeCount := rfl
@[simp] theorem State.answerFree_root (w : Word) : (s.answerFree w).root = s.root := rfl
@[simp] theorem State.answerFree_optr (w : Word) : (s.answerFree w).optr = s.optr := rfl
@[simp] theorem State.answerFree_acc (w : Word) : (s.answerFree w).acc = s.acc := rfl
@[simp] theorem State.answerFree_accN (w : Word) : (s.answerFree w).accN = s.accN := rfl
@[simp] theorem State.answerFree_iptr (w : Word) : (s.answerFree w).iptr = s.iptr := rfl
@[simp] theorem State.answerFree_iend (w : Word) : (s.answerFree w).iend = s.iend := rfl
@[simp] theorem State.answerFree_ibit (w : Word) : (s.answerFree w).ibit = s.ibit := rfl
@[simp] theorem State.answerFree_idx (w : Word) : (s.answerFree w).idx = s.idx := rfl
@[simp] theorem State.answerFree_hist (w : Word) : (s.answerFree w).hist = s.hist := rfl
@[simp] theorem State.answerFree_node (w : Word) : (s.answerFree w).node = s.node := rfl
@[simp] theorem State.answerFree_ctab (w : Word) : (s.answerFree w).ctab = s.ctab := rfl
@[simp] theorem State.answerFree_pq (w : Word) : (s.answerFree w).pq = s.pq := rfl
@[simp] theorem State.answerFree_wstack (w : Word) : (s.answerFree w).wstack = s.wstack := rfl
@[simp] theorem State.answerFree_dacc (w : Word) : (s.answerFree w).dacc = s.dacc := rfl
@[simp] theorem State.answerFree_ibuf (w : Word) : (s.answerFree w).ibuf = s.ibuf := rfl
@[simp] theorem State.answerFree_obuf (w : Word) : (s.answerFree w).obuf = s.obuf := rfl
@[simp] theorem State.answerFree_turns (w : Word) : (s.answerFree w).turns = s.turns := rfl
@[simp] theorem State.answerFree_rdata (w : Word) : (s.answerFree w).rdata = w := rfl
@[simp] theorem State.answerFree_draws (w : Word) : (s.answerFree w).draws = s.draws + 1 := rfl
@[simp] theorem State.answerFree_raced (w : Word) : (s.answerFree w).raced = s.raced := rfl

end Sys2Proof.Machine
end

