-- ==== Sys2Proof/Laws/Memory.lean ====
section
/-! SUPPORT. Buffers: read after write, and the canonical form (R50, R53). -/

namespace Sys2Proof.Machine

open Sys2Proof Config

/-- Reading after a write: the written byte at the written address, every other address as before. -/
theorem lookup_insertCell (a : Nat) (v : Byte) (cs : List Host.Cell) (x : Nat) :
    (insertCell a v cs).lookup x = if x = a then some v else cs.lookup x := by
  have key : ∀ (y : Nat) (u : Byte) (ds : List Host.Cell),
      List.lookup x ((y, u) :: ds) = if x = y then some u else ds.lookup x := fun y u ds => by
    by_cases h : x = y
    · simp [h]
    · have : (x == y) = false := by simpa using h
      simp [List.lookup, h, this]
  induction cs with
  | nil => rw [insertCell, key]
  | cons c rest ih =>
    obtain ⟨b, u⟩ := c
    unfold insertCell
    split
    · rw [key]
    · split
      · rename_i h
        subst h
        rw [key, key]
        split <;> rfl
      · rename_i h
        rw [key, key, ih]
        by_cases hb : x = b
        · subst hb
          simp [Ne.symm h]
        · simp [hb]

theorem mem_insertCell {a : Nat} {v : Byte} {cs : List Host.Cell} {c : Host.Cell}
    (h : c ∈ insertCell a v cs) : c.1 = a ∨ c ∈ cs := by
  induction cs with
  | nil => left; simpa [insertCell] using congrArg Prod.fst (List.mem_singleton.1 h)
  | cons d rest ih =>
    obtain ⟨b, u⟩ := d
    unfold insertCell at h
    split at h
    · rcases List.mem_cons.1 h with h | h
      · left; rw [h]
      · exact .inr h
    · split at h
      · rcases List.mem_cons.1 h with h | h
        · left; rw [h]
        · exact .inr (List.mem_cons_of_mem _ h)
      · rcases List.mem_cons.1 h with h | h
        · right; rw [h]; exact List.mem_cons_self
        · exact (ih h).imp_right (List.mem_cons_of_mem _)

theorem insertCell_sorted {a : Nat} {v : Byte} {cs : List Host.Cell}
    (h : cs.Pairwise fun x y => x.1 < y.1) : (insertCell a v cs).Pairwise fun x y => x.1 < y.1 := by
  induction cs with
  | nil => simp [insertCell]
  | cons d rest ih =>
    obtain ⟨b, u⟩ := d
    obtain ⟨hb, hrest⟩ := List.pairwise_cons.1 h
    unfold insertCell
    split
    · rename_i hlt
      refine List.pairwise_cons.2 ⟨fun c hc => ?_, h⟩
      rcases List.mem_cons.1 hc with rfl | hc
      · exact hlt
      · exact Nat.lt_trans hlt (hb c hc)
    · split
      · rename_i heq
        exact List.pairwise_cons.2 ⟨fun c hc => heq ▸ hb c hc, hrest⟩
      · rename_i hlt hne
        refine List.pairwise_cons.2 ⟨fun c hc => ?_, ih hrest⟩
        rcases mem_insertCell hc with hc | hc
        · show b < c.1
          omega
        · exact hb c hc

/-- A write reads back, and leaves every other byte (R53). -/
theorem Memory.get_set (free : Nat → Nat → Byte) (m : Memory) (a : Nat) (v : Byte) (x : Nat) :
    (m.set a v).get free x = if x = a then v else m.get free x := by
  unfold Memory.get Memory.set
  simp only [lookup_insertCell]
  split <;> rfl

/-- A write inside the buffer keeps the canonical form. -/
theorem Memory.wf_set {size : Nat} {m : Memory} (h : m.wf size) {a : Nat} (ha : a < size) (v : Byte) :
    (m.set a v).wf size := by
  refine ⟨insertCell_sorted h.1, fun c hc => ?_⟩
  rcases mem_insertCell hc with hc | hc
  · rw [hc]; exact ha
  · exact h.2 c hc

/-- A drawn buffer is in canonical form. -/
@[simp] theorem Memory.wf_drawn (size d : Nat) : (Memory.drawn d).wf size := by simp [Memory.wf, Memory.drawn]

/-- A drawn buffer reads as its free values. -/
@[simp] theorem Memory.get_drawn (free : Nat → Nat → Byte) (d a : Nat) : (Memory.drawn d).get free a = free d a := rfl

end Sys2Proof.Machine
end

