-- ==== Sys2Proof/Laws/Tables.lean ====
section
/-! SUPPORT. HIST, NODE and CTAB: read after write, and the valid entries of a code table. -/

namespace Sys2Proof.Machine

open Sys2Proof Config

theorem tabulate_getElem {α : Type} (n : Nat) (f : Nat → α) (i : Nat) (h : i < n) : (tabulate n f)[i] = f i := by
  simp [tabulate]

/-! ### HIST -/

theorem histAt_of_eq {s t : State} (h : t.hist = s.hist) (b : Byte) : t.histAt b = s.histAt b := by
  simp [State.histAt, h]

theorem histAt_setHist (s : State) (b : Byte) (v : Word) (x : Byte) :
    (s.setHist b v).histAt x = if x = b then v else s.histAt x := by
  unfold State.histAt
  simp only [State.setHist_hist, Vector.getElem_set]
  by_cases h : x = b
  · simp [h]
  · have : b.toNat ≠ x.toNat := fun e => h (BitVec.eq_of_toNat_eq e.symm)
    simp [h, this]

theorem hist_ext {u v : Vector Word 256} (h : ∀ b : Byte, u[b.toNat]'b.isLt = v[b.toNat]'b.isLt) : u = v := by
  refine Vector.ext fun i hi => ?_
  have := h (BitVec.ofNat 8 i)
  simpa [Nat.mod_eq_of_lt hi] using this

/-! ### NODE -/

theorem nodeAt_of_eq {s t : State} (h : t.node = s.node) (i : NodeIdx) : t.nodeAt i = s.nodeAt i := by
  simp [State.nodeAt, h]

theorem nodeAt_setNode (s : State) (i : NodeIdx) (n : Node) (j : NodeIdx) (hi : i.toNat < 511) :
    (s.setNode i n).nodeAt j = if j = i then n else s.nodeAt j := by
  unfold State.nodeAt
  simp only [State.setNode_node, Vector.getElem_setIfInBounds]
  by_cases h : j = i
  · subst h; simp [hi]
  · have : i.toNat ≠ j.toNat := fun e => h (BitVec.eq_of_toNat_eq e.symm)
    simp [h, this]

/-! ### CTAB -/

theorem ctabAt_of_eq {s t : State} (h : t.ctab = s.ctab) (b : Byte) : t.ctabAt b = s.ctabAt b := by
  simp [State.ctabAt, h]

theorem ctabAt_setCode (s : State) (b : Byte) (c : Bits) (x : Byte) :
    (s.setCode b c).ctabAt x = if x = b then ⟨true, c.take maxCodeLen⟩ else s.ctabAt x := by
  unfold State.ctabAt
  simp only [State.setCode_ctab, Vector.getElem_set]
  by_cases h : x = b
  · simp [h]
  · have : b.toNat ≠ x.toNat := fun e => h (BitVec.eq_of_toNat_eq e.symm)
    simp [h, this]

@[simp] theorem ctabAt_clearTable (s : State) (b : Byte) : s.clearTable.ctabAt b = CodeEntry.invalid := by
  simp [State.ctabAt]

theorem ctab_ext {u v : Vector CodeEntry 256} (h : ∀ b : Byte, u[b.toNat]'b.isLt = v[b.toNat]'b.isLt) : u = v := by
  refine Vector.ext fun i hi => ?_
  have := h (BitVec.ofNat 8 i)
  simpa [Nat.mod_eq_of_lt hi] using this

/-! ### All bytes -/

theorem mem_allBytes (b : Byte) : b ∈ allBytes := by
  refine List.mem_map.2 ⟨b.toNat, List.mem_range.2 b.isLt, by simp⟩

theorem allBytes_sorted : allBytes.Pairwise fun x y => x.toNat < y.toNat := by
  refine List.pairwise_map.2 ((List.pairwise_lt_range (n := 256)).imp_of_mem fun {x y} hx hy h => ?_)
  rw [List.mem_range] at hx hy
  simp [Nat.mod_eq_of_lt hx, Nat.mod_eq_of_lt hy, h]

theorem allBytes_nodup : allBytes.Nodup :=
  allBytes_sorted.imp fun h e => by simp [e] at h

theorem allBytes_length : allBytes.length = 256 := by simp [allBytes]

/-! ### The valid entries -/

/-- The valid entries, read off the table one byte at a time. -/
theorem validCodes_eq (ctab : Vector CodeEntry 256) :
    validCodes ctab = allBytes.filterMap fun b =>
      if (ctab[b.toNat]'b.isLt).valid then some (b, (ctab[b.toNat]'b.isLt).code) else none := by
  have hz : ctab.toList.zipIdx =
      allBytes.map fun b => (ctab[b.toNat]'b.isLt, b.toNat) := by
    apply List.ext_getElem
    · simp [allBytes]
    · intro i h1 h2
      have hi : i < 256 := by simpa [allBytes] using h2
      simp [allBytes, Nat.mod_eq_of_lt hi]
  unfold validCodes
  rw [hz, List.filterMap_map]
  congr 1
  funext b
  simp

theorem mem_validCodes {ctab : Vector CodeEntry 256} {b : Byte} {c : Bits} :
    (b, c) ∈ validCodes ctab ↔ ctab[b.toNat]'b.isLt = ⟨true, c⟩ := by
  rw [validCodes_eq, List.mem_filterMap]
  constructor
  · rintro ⟨x, -, hx⟩
    split at hx
    · rename_i hv
      obtain ⟨rfl, rfl⟩ := Prod.mk.inj (Option.some.inj hx)
      rw [← hv]
    · cases hx
  · intro h
    exact ⟨b, mem_allBytes b, by simp [h]⟩


/-- The bytes of the valid entries are in ascending order, so each stands once. -/
theorem validCodes_sorted (ctab : Vector CodeEntry 256) :
    (validCodes ctab).Pairwise fun e f => e.1.toNat < f.1.toNat := by
  rw [validCodes_eq]
  refine allBytes_sorted.filterMap _ fun x y hxy e he f hf => ?_
  split at he <;> split at hf <;> first | (cases he; done) | (cases hf; done) | skip
  obtain rfl := Option.some.inj he
  obtain rfl := Option.some.inj hf
  exact hxy

theorem validCodes_nodup (ctab : Vector CodeEntry 256) : ((validCodes ctab).map Prod.fst).Nodup :=
  List.pairwise_map.2 ((validCodes_sorted ctab).imp fun h e => by simp [e] at h)

theorem validCodes_length_le (ctab : Vector CodeEntry 256) : (validCodes ctab).length ≤ 256 := by
  rw [validCodes_eq]
  exact (List.length_filterMap_le _ _).trans allBytes_length.le

end Sys2Proof.Machine
end

