-- ==== Sys2Proof/Laws/Unpacker.lean ====
section
/-! SUPPORT. The unpacker (R94 to R96): reading takes bits off the front of the input stream. -/

namespace Sys2Proof.Machine

open Sys2Proof Config

theorem SameButUnpacker.refl (s : State) : SameButUnpacker s s := rfl

theorem SameButUnpacker.eq {s t : State} (h : SameButUnpacker s t) : t = { s with iptr := t.iptr, ibit := t.ibit } := by
  unfold SameButUnpacker at h
  rw [← h]

theorem SameButUnpacker.trans {s t u : State} (h : SameButUnpacker s t) (k : SameButUnpacker t u) :
    SameButUnpacker s u := by
  unfold SameButUnpacker at *
  rw [← h, ← k]

theorem ibufBytes_length (s : State) (a n : Nat) : (s.ibufBytes a n).length = n := by simp [State.ibufBytes]

theorem ibufBytes_congr {s t : State} (h : t.ibuf = s.ibuf) (a n : Nat) : t.ibufBytes a n = s.ibufBytes a n := by
  unfold State.ibufBytes State.ibufByte
  rw [h]

theorem ibufBytes_succ (s : State) (a n : Nat) : s.ibufBytes a (n + 1) = s.ibufByte a :: s.ibufBytes (a + 1) n := by
  simp [State.ibufBytes, List.range'_succ]

theorem inputBits_congr {s t : State} (h : SameButUnpacker s t) (hp : t.iptr = s.iptr) (hb : t.ibit = s.ibit) :
    t = s := by
  rw [h.eq, hp, hb]

theorem inputBits_length (s : State) : s.inputBits.length = 8 * (s.iend.toNat - s.iptr.toNat) - s.ibit.toNat := by
  simp [State.inputBits, ibufBytes_length]

/-- read_bit (R95) at the end of the range: EXHAUSTED, with IPTR = IEND. -/
theorem readBit_exhausted {s : State} (hu : s.UnpackerOk) (h : s.inputBits = []) : readBit s = .error s.iend := by
  have hl := congrArg List.length h
  rw [inputBits_length] at hl
  have hb : s.ibit.toNat < 8 := s.ibit.isLt
  have : s.iptr = s.iend := BitVec.eq_of_toNat_eq (by have := hu.1; simp at hl; omega)
  unfold readBit
  simp [this]

/-- read_bit (R95): the first bit of the input stream, which is taken off it. -/
theorem readBit_ok {s : State} (hu : s.UnpackerOk) {v : Bool} {rest : Bits} (h : s.inputBits = v :: rest) :
    ∃ t, readBit s = .ok (v, t) ∧ SameButUnpacker s t ∧ t.UnpackerOk ∧ t.inputBits = rest := by
  have hl := congrArg List.length h
  rw [inputBits_length, List.length_cons] at hl
  have hb : s.ibit.toNat < 8 := s.ibit.isLt
  have hlt : s.iptr.toNat < s.iend.toNat := by omega
  have hsucc : s.iend.toNat - s.iptr.toNat = (s.iend.toNat - (s.iptr.toNat + 1)) + 1 := by omega
  have hstream : s.inputBits = (bitsMsb (s.ibufByte s.iptr.toNat).toNat 8).drop s.ibit.toNat ++
      unpackBytes (s.ibufBytes (s.iptr.toNat + 1) (s.iend.toNat - (s.iptr.toNat + 1))) := by
    unfold State.inputBits
    rw [hsucc, ibufBytes_succ, unpackBytes_cons, List.drop_append_of_le_length (by simp; omega)]
  have hcons : (bitsMsb (s.ibufByte s.iptr.toNat).toNat 8).drop s.ibit.toNat =
      (s.ibufByte s.iptr.toNat).getLsbD (7 - s.ibit.toNat) ::
        (bitsMsb (s.ibufByte s.iptr.toNat).toNat 8).drop (s.ibit.toNat + 1) := by
    rw [List.drop_eq_getElem_cons (by simp; omega), bitsMsb_getElem]
    congr 1
  rw [hstream, hcons, List.cons_append, List.cons.injEq] at h
  obtain ⟨rfl, hrest⟩ := h
  have hinc : (s.iptr + 1).toNat = s.iptr.toNat + 1 := by
    rw [BitVec.toNat_add]
    have h1 : (1 : Word).toNat = 1 := by decide
    have := s.iend.isLt
    exact Nat.mod_eq_of_lt (by omega)
  unfold readBit
  rw [if_neg (by omega)]
  by_cases h7 : s.ibit = 7
  · rw [if_pos h7]
    refine ⟨_, rfl, ?_, ⟨?_, hu.2.1, fun _ => rfl⟩, ?_⟩
    · rfl
    · show (s.iptr + 1).toNat ≤ s.iend.toNat
      omega
    · have : s.ibit.toNat = 7 := by rw [h7]; rfl
      rw [this, List.drop_of_length_le (by simp), List.nil_append] at hrest
      rw [← hrest]
      show List.drop 0 (unpackBytes (State.ibufBytes _ (s.iptr + 1).toNat (s.iend.toNat - (s.iptr + 1).toNat))) = _
      rw [hinc, List.drop_zero]
      rfl
  · rw [if_neg h7]
    have hi : (s.ibit + 1).toNat = s.ibit.toNat + 1 := by
      have : s.ibit.toNat ≠ 7 := fun e => h7 (BitVec.eq_of_toNat_eq e)
      rw [BitVec.toNat_add]
      have h1 : (1 : BitVec 3).toNat = 1 := by decide
      exact Nat.mod_eq_of_lt (by omega)
    refine ⟨_, rfl, ?_, ⟨hu.1, hu.2.1, fun e => ?_⟩, ?_⟩
    · rfl
    · exfalso
      have e' : s.iptr = s.iend := e
      rw [e'] at hlt
      omega
    · rw [← hrest]
      show List.drop (s.ibit + 1).toNat (unpackBytes (State.ibufBytes s s.iptr.toNat (s.iend.toNat - s.iptr.toNat))) = _
      rw [hi, hsucc, ibufBytes_succ, unpackBytes_cons, List.drop_append_of_le_length (by simp; omega)]

theorem readBitsFrom_ok {bs rest : Bits} {s : State} (hu : s.UnpackerOk) (h : s.inputBits = bs ++ rest) (r : Nat) :
    ∃ t, readBitsFrom r bs.length s = .ok (r * 2 ^ bs.length + natOfBits bs, t) ∧ SameButUnpacker s t ∧ t.UnpackerOk ∧
      t.inputBits = rest := by
  induction bs generalizing s r with
  | nil => exact ⟨s, by simp [readBitsFrom], rfl, hu, h⟩
  | cons v bs ih =>
    obtain ⟨u, hr, hf, huu, hin⟩ := readBit_ok hu (h.trans (List.cons_append ..))
    obtain ⟨t, ht, hft, hut, hint⟩ := ih huu hin (2 * r + v.toNat)
    refine ⟨t, ?_, hf.trans hft, hut, hint⟩
    rw [List.length_cons, readBitsFrom, hr]
    refine ht.trans ?_
    rw [natOfBits_cons, Nat.pow_succ]
    congr 2
    ring

theorem readBitsFrom_exhausted {n : Nat} {s : State} (hu : s.UnpackerOk) (h : s.inputBits.length < n) (r : Nat) :
    readBitsFrom r n s = .error s.iend := by
  induction n generalizing s r with
  | zero => omega
  | succ n ih =>
    rw [readBitsFrom]
    cases hin : s.inputBits with
    | nil => rw [readBit_exhausted hu hin]; rfl
    | cons v rest =>
      obtain ⟨u, hr, hf, huu, hu'⟩ := readBit_ok hu hin
      rw [hr]
      refine (ih huu (by rw [hin, List.length_cons] at h; rw [hu']; omega) (2 * r + v.toNat)).trans ?_
      rw [hf.eq]

/-- read_bits (R96): n bits off the front of the stream, first bit most significant. -/
theorem readBits_ok {n : Nat} {s : State} (hu : s.UnpackerOk) (h : n ≤ s.inputBits.length) :
    ∃ t, readBits n s = .ok (natOfBits (s.inputBits.take n), t) ∧ SameButUnpacker s t ∧ t.UnpackerOk ∧
      t.inputBits = s.inputBits.drop n := by
  obtain ⟨t, ht, hf, hut, hin⟩ := readBitsFrom_ok hu (List.take_append_drop n s.inputBits).symm 0
  rw [List.length_take, Nat.min_eq_left h] at ht
  exact ⟨t, by simpa [readBits] using ht, hf, hut, hin⟩

/-- read_bits (R96) with fewer than n bits left: EXHAUSTED, with IPTR = IEND. -/
theorem readBits_exhausted {n : Nat} {s : State} (hu : s.UnpackerOk) (h : s.inputBits.length < n) :
    readBits n s = .error s.iend := readBitsFrom_exhausted hu h 0

/-- The inverse reading: what a successful read_bits delivered stood at the front of the stream. -/
theorem readBits_inv {n : Nat} {s : State} (hu : s.UnpackerOk) {r : Nat} {t : State} (h : readBits n s = .ok (r, t)) :
    r < 2 ^ n ∧ s.inputBits = bitsMsb r n ++ t.inputBits ∧ SameButUnpacker s t ∧ t.UnpackerOk := by
  by_cases hl : n ≤ s.inputBits.length
  · obtain ⟨u, hr, hf, huu, hin⟩ := readBits_ok hu hl
    rw [hr] at h
    obtain ⟨rfl, rfl⟩ := Prod.mk.inj (Except.ok.inj h)
    have hlen : (s.inputBits.take n).length = n := by simp [hl]
    have hb := bitsMsb_natOfBits (s.inputBits.take n)
    rw [hlen] at hb
    refine ⟨by have := natOfBits_lt (s.inputBits.take n); rwa [hlen] at this, ?_, hf, huu⟩
    rw [hb, hin, List.take_append_drop]
  · rw [readBits_exhausted hu (by omega)] at h
    cases h

end Sys2Proof.Machine
end

