-- ==== Sys2Proof/Laws/Histogram.lean ====
section
/-! SUPPORT. The frequency counter (R72, R73): what COUNT's loop adds, and the sum of HIST (R33). -/

namespace Sys2Proof.Machine

open Sys2Proof Config

/-- COUNT's loop writes HIST only. -/
theorem countFrom_frame (a n : Nat) (s : State) : countFrom a n s = { s with hist := (countFrom a n s).hist } := by
  induction n generalizing a s with
  | zero => rfl
  | succ n ih =>
    rw [countFrom]
    exact ih _ _

/-- COUNT's loop (R73) adds to each byte its occurrences in the range. -/
theorem countFrom_histAt (a n : Nat) (s : State) (b : Byte) :
    (countFrom a n s).histAt b = s.histAt b + BitVec.ofNat 32 ((s.ibufBytes a n).count b) := by
  induction n generalizing a s with
  | zero => simp [countFrom, State.ibufBytes]
  | succ n ih =>
    rw [countFrom, ih, histAt_setHist, ibufBytes_succ,
      ibufBytes_congr (s := s) (State.setHist_ibuf ..), List.count_cons]
    by_cases h : b = s.ibufByte a
    · subst h
      simp [BitVec.ofNat_add, BitVec.add_assoc, BitVec.add_comm 1#32]
    · simp [h, Ne.symm h]

theorem histSum_eq (s : State) : s.histSum = (allBytes.map fun b => (s.histAt b).toNat).sum := by
  have : s.hist.toList = allBytes.map s.histAt := by
    apply List.ext_getElem
    · simp [allBytes]
    · intro i h1 h2
      have hi : i < 256 := by simpa [allBytes] using h2
      simp [allBytes, State.histAt, Nat.mod_eq_of_lt hi]
  rw [State.histSum, this, List.map_map]
  rfl

theorem sum_indicator (x : Byte) (l : List Byte) : (l.map fun b => if x == b then 1 else 0).sum = l.count x := by
  induction l with
  | nil => rfl
  | cons y rest ih =>
    rw [List.map_cons, List.sum_cons, ih, List.count_cons, Nat.add_comm, show (x == y) = (y == x) from Bool.beq_comm]

/-- The occurrences of all bytes add up to the length. -/
theorem sum_count (l : List Byte) : (allBytes.map fun b => l.count b).sum = l.length := by
  induction l with
  | nil => exact List.sum_eq_zero fun x hx => by obtain ⟨b, -, rfl⟩ := List.mem_map.1 hx; rfl
  | cons x rest ih =>
    rw [show (fun b => (x :: rest).count b) = fun b => rest.count b + if x == b then 1 else 0 from
      funext fun b => List.count_cons]
    rw [List.sum_map_add, ih, sum_indicator, List.count_eq_one_of_mem allBytes_nodup (mem_allBytes x)]
    rfl

/-- No entry exceeds the sum. -/
theorem histAt_le_histSum (s : State) (b : Byte) : (s.histAt b).toNat ≤ s.histSum := by
  rw [histSum_eq]
  exact List.single_le_sum (by simp) _ (List.mem_map.2 ⟨b, mem_allBytes b, rfl⟩)

/-- While the total stays below 2^32 the additions are exact, and the sum of HIST grows by the length (R33). -/
theorem countFrom_histSum {a n : Nat} {s : State} (h : s.histSum + n < 2 ^ 32) :
    (∀ b, ((countFrom a n s).histAt b).toNat = (s.histAt b).toNat + (s.ibufBytes a n).count b) ∧
    (countFrom a n s).histSum = s.histSum + n := by
  have hb : ∀ b, ((countFrom a n s).histAt b).toNat = (s.histAt b).toNat + (s.ibufBytes a n).count b := fun b => by
    have h1 := histAt_le_histSum s b
    have h2 : (s.ibufBytes a n).count b ≤ n := List.count_le_length.trans (ibufBytes_length s a n).le
    rw [countFrom_histAt, BitVec.toNat_add, BitVec.toNat_ofNat, Nat.mod_eq_of_lt (a := List.count _ _) (by omega),
      Nat.mod_eq_of_lt (by omega)]
  refine ⟨hb, ?_⟩
  rw [histSum_eq, histSum_eq]
  simp only [hb]
  rw [List.sum_map_add, sum_count, ibufBytes_length]

end Sys2Proof.Machine
end

