-- ==== Sys2Proof/Laws/Trees.lean ====
section
/-! SUPPORT. Huffman trees and their codes (R80, R82, R83): the codes are the paths to the leaves, prefix-free,
complete, and no longer than the leaves are many. -/

namespace Sys2Proof.Machine

open Sys2Proof Config

/-- The nodes of a tree: N leaves and N − 1 internal nodes (R77). -/
def Tree.size : Tree → Nat
  | .leaf _ => 1
  | .fork l r => 1 + l.size + r.size

theorem Tree.leaves_pos (t : Tree) : 0 < t.leaves.length := by
  induction t with
  | leaf b => simp [Tree.leaves]
  | fork l r ihl ihr => simp [Tree.leaves]; omega

theorem Tree.size_eq (t : Tree) : t.size + 1 = 2 * t.leaves.length := by
  induction t with
  | leaf b => simp [Tree.size, Tree.leaves]
  | fork l r ihl ihr => simp [Tree.size, Tree.leaves]; omega

/-- The codes stand for the leaves, in order. -/
theorem Tree.codes_fst (t : Tree) (p : Bits) : (t.codes p).map Prod.fst = t.leaves := by
  induction t generalizing p with
  | leaf b => rfl
  | fork l r ihl ihr => simp [Tree.codes, Tree.leaves, ihl, ihr]

/-- Every code extends the path it starts from. -/
theorem Tree.codes_prefix {t : Tree} {p : Bits} {e : Byte × Bits} (h : e ∈ t.codes p) : p <+: e.2 := by
  induction t generalizing p with
  | leaf b => simp [Tree.codes] at h; simp [h]
  | fork l r ihl ihr =>
    rcases List.mem_append.1 h with h | h
    · exact (List.prefix_append p [false]).trans (ihl h)
    · exact (List.prefix_append p [true]).trans (ihr h)

/-- The depth of a leaf is below the number of leaves (R77(f), R83). -/
theorem Tree.codes_length {t : Tree} {p : Bits} {e : Byte × Bits} (h : e ∈ t.codes p) :
    e.2.length + 1 ≤ p.length + t.leaves.length := by
  induction t generalizing p with
  | leaf b => simp [Tree.codes] at h; simp [h, Tree.leaves]
  | fork l r ihl ihr =>
    have hl := l.leaves_pos
    have hr := r.leaves_pos
    rcases List.mem_append.1 h with h | h
    · have := ihl h; simp [Tree.leaves] at *; omega
    · have := ihr h; simp [Tree.leaves] at *; omega

/-- Two sequences that part at their next bit are no prefixes of one another. -/
theorem not_prefix_of_split {p c d : Bits} (hc : p ++ [false] <+: c) (hd : p ++ [true] <+: d) :
    ¬ c <+: d ∧ ¬ d <+: c := by
  obtain ⟨x, rfl⟩ := hc
  obtain ⟨y, rfl⟩ := hd
  constructor <;> rintro ⟨z, hz⟩ <;> simp at hz

/-- The paths to the leaves are prefix-free (R82(b)). -/
theorem Tree.codes_prefixFree (t : Tree) (p : Bits) : PrefixFree (t.codes p) := by
  induction t generalizing p with
  | leaf b => simp [Tree.codes, PrefixFree]
  | fork l r ihl ihr =>
    refine List.pairwise_append.2 ⟨ihl _, ihr _, fun e he f hf => ?_⟩
    exact not_prefix_of_split (Tree.codes_prefix he) (Tree.codes_prefix hf)

/-- The codes are complete (R82(c)): of a sequence and some code, one continues the other. -/
theorem Tree.codes_complete (t : Tree) (p q : Bits) : ∃ e ∈ t.codes p, e.2 <+: p ++ q ∨ p ++ q <+: e.2 := by
  induction t generalizing p q with
  | leaf b => exact ⟨(b, p), by simp [Tree.codes], .inl (List.prefix_append p q)⟩
  | fork l r ihl ihr =>
    cases q with
    | nil =>
      obtain ⟨e, he, -⟩ := ihl (p ++ [false]) []
      refine ⟨e, List.mem_append_left _ he, .inr ?_⟩
      rw [List.append_nil]
      exact (List.prefix_append p [false]).trans (Tree.codes_prefix he)
    | cons v q =>
      cases v with
      | false =>
        obtain ⟨e, he, h⟩ := ihl (p ++ [false]) q
        exact ⟨e, List.mem_append_left _ he, by simpa using h⟩
      | true =>
        obtain ⟨e, he, h⟩ := ihr (p ++ [true]) q
        exact ⟨e, List.mem_append_right _ he, by simpa using h⟩

/-- Distinct bytes are at most 256. -/
theorem nodup_bytes_length {l : List Byte} (h : l.Nodup) : l.length ≤ 256 :=
  (List.Nodup.subperm h fun b _ => mem_allBytes b).length_le.trans allBytes_length.le

/-! ### Prefix-free tables -/

theorem PrefixFree.perm {t u : List (Byte × Bits)} (h : t.Perm u) (ht : PrefixFree t) : PrefixFree u :=
  h.pairwise ht fun {_ _} hab => ⟨hab.2, hab.1⟩

/-- In a prefix-free table a code that is a prefix of another is that code. -/
theorem PrefixFree.eq_of_prefix {t : List (Byte × Bits)} (ht : PrefixFree t) {e f : Byte × Bits} (he : e ∈ t)
    (hf : f ∈ t) (h : e.2 <+: f.2) : e = f := by
  induction t with
  | nil => cases he
  | cons g rest ih =>
    obtain ⟨hg, hrest⟩ := List.pairwise_cons.1 ht
    rcases List.mem_cons.1 he with he' | he' <;> rcases List.mem_cons.1 hf with hf' | hf'
    · rw [he', hf']
    · exact absurd h (he' ▸ (hg f hf').1)
    · exact absurd h (hf' ▸ (hg e he').2)
    · exact ih hrest he' hf'

/-! ### Representation -/

/-- The tree at an index depends on the arena only. -/
theorem Represents.congr {s u : State} (h : ∀ i, u.nodeAt i = s.nodeAt i) {t : Tree} {i : NodeIdx} :
    u.Represents i t ↔ s.Represents i t := by
  induction t generalizing i with
  | leaf b => simp only [State.Represents, h]
  | fork l r ihl ihr => simp only [State.Represents, h, ihl, ihr]

theorem Represents.of_node {s u : State} (h : u.node = s.node) {t : Tree} {i : NodeIdx} (hr : s.Represents i t) :
    u.Represents i t := (Represents.congr (nodeAt_of_eq h)).2 hr

end Sys2Proof.Machine
end

