-- ==== Sys2Proof/Laws/Builder.lean ====
section
/-! SUPPORT. The tree builder (R74 to R79): extract_min takes the least key, and BUILD makes the tree of R77. -/

namespace Sys2Proof.Machine

open Sys2Proof Config

/-! ### The queue (R74) -/

/-- key(i) as one number: keys are compared as pairs. -/
def State.keyNat (s : State) (i : NodeIdx) : Nat := (s.nodeAt i).freq.toNat * 512 + i.toNat

theorem keyLess_iff (s : State) (i j : NodeIdx) : s.keyLess i j = true ↔ s.keyNat i < s.keyNat j := by
  have hi := i.isLt
  have hj := j.isLt
  unfold State.keyLess State.keyNat
  simp only [decide_eq_true_eq]
  constructor
  · rintro (h | ⟨h, h'⟩)
    · omega
    · omega
  · intro h
    by_cases he : (s.nodeAt i).freq.toNat = (s.nodeAt j).freq.toNat
    · right; omega
    · left; omega

theorem keyNat_inj {s : State} {i j : NodeIdx} (h : s.keyNat i = s.keyNat j) : i = j := by
  have hi := i.isLt
  have hj := j.isLt
  unfold State.keyNat at h
  exact BitVec.eq_of_toNat_eq (by omega)

theorem leastKey_mem (s : State) (m : NodeIdx) (l : List NodeIdx) : s.leastKey m l ∈ m :: l := by
  induction l generalizing m with
  | nil => simp [State.leastKey]
  | cons j rest ih =>
    rw [State.leastKey]
    rcases List.mem_cons.1 (ih (if s.keyLess j m then j else m)) with h | h
    · rw [h]; split <;> simp
    · exact List.mem_cons_of_mem _ (List.mem_cons_of_mem _ h)

theorem leastKey_le (s : State) (m : NodeIdx) (l : List NodeIdx) {j : NodeIdx} (h : j ∈ m :: l) :
    s.keyNat (s.leastKey m l) ≤ s.keyNat j := by
  induction l generalizing m j with
  | nil => rw [List.mem_singleton.1 h]; exact Nat.le_refl _
  | cons x rest ih =>
    rw [State.leastKey]
    have hx := keyLess_iff s x m
    by_cases hk : s.keyLess x m = true
    · have := hx.1 hk
      rw [if_pos hk]
      rcases List.mem_cons.1 h with rfl | h
      · exact (ih x List.mem_cons_self).trans this.le
      · exact ih x h
    · have hle : s.keyNat m ≤ s.keyNat x := Nat.not_lt.1 fun hlt => hk (hx.2 hlt)
      rw [if_neg hk]
      rcases List.mem_cons.1 h with rfl | h
      · exact ih j List.mem_cons_self
      · rcases List.mem_cons.1 h with rfl | h
        · exact (ih m List.mem_cons_self).trans hle
        · exact ih m (List.mem_cons_of_mem _ h)

/-- extract_min (R74) on a queue that is not empty. -/
theorem extractMin_spec {s : State} (h : s.pq ≠ []) :
    ∃ m, s.extractMin = some (m, { s with pq := s.pq.erase m }) ∧ m ∈ s.pq ∧
      ∀ j ∈ s.pq, j ≠ m → s.keyLess m j = true := by
  cases hp : s.pq with
  | nil => exact absurd hp h
  | cons i rest =>
    refine ⟨s.leastKey i rest, ?_, leastKey_mem s i rest, fun j hj hne => ?_⟩
    · unfold State.extractMin
      rw [hp]
    · rw [keyLess_iff]
      exact Nat.lt_of_le_of_ne (leastKey_le s i rest hj) fun e => hne (keyNat_inj e).symm

/-! ### Seeding -/

theorem seedLeaf_absent {s : State} {b : Byte} (h : s.histAt b = 0) : seedLeaf s b = s := by
  unfold seedLeaf
  simp [h]

theorem seedLeaf_present {s : State} {b : Byte} (h : s.histAt b ≠ 0) :
    seedLeaf s b = { s with
      node := s.node.setIfInBounds s.nodeCount.toNat (s.leafNode b)
      nodeCount := s.nodeCount + 1
      pq := s.nodeCount :: s.pq } := by
  unfold seedLeaf
  rw [if_pos h]
  rfl

/-- What seeding over the bytes `bs` leaves (R76). -/
theorem seedFold (bs : List Byte) (s : State) (hc : s.nodeCount.toNat + bs.length ≤ 256) :
    let t := bs.foldl seedLeaf s
    let p := bs.filter fun b => s.histAt b != 0
    t = { s with node := t.node, nodeCount := t.nodeCount, pq := t.pq } ∧
    t.nodeCount.toNat = s.nodeCount.toNat + p.length ∧
    (∀ i : NodeIdx, i.toNat < s.nodeCount.toNat → t.nodeAt i = s.nodeAt i) ∧
    (∀ (k : Nat) (h : k < p.length), t.nodeAt (BitVec.ofNat 9 (s.nodeCount.toNat + k)) = s.leafNode p[k]) ∧
    t.pq = ((List.range' s.nodeCount.toNat p.length).map (BitVec.ofNat 9)).reverse ++ s.pq := by
  induction bs generalizing s with
  | nil => exact ⟨rfl, rfl, fun _ _ => rfl, fun k h => absurd h (by simp), rfl⟩
  | cons b bs ih =>
    rw [List.length_cons] at hc
    by_cases hb : s.histAt b = 0
    · have := ih s (by omega)
      simpa [seedLeaf_absent hb, hb] using this
    · have h1 : (1 : NodeIdx).toNat = 1 := by decide
      have hn : (s.nodeCount + 1).toNat = s.nodeCount.toNat + 1 := by
        rw [BitVec.toNat_add]; omega
      obtain ⟨u, hu⟩ : ∃ u, u = seedLeaf s b := ⟨_, rfl⟩
      have hu' := hu
      rw [seedLeaf_present hb] at hu'
      have huc : u.nodeCount = s.nodeCount + 1 := by rw [hu']
      have huh : ∀ x, u.histAt x = s.histAt x := fun x => by rw [hu']; rfl
      have hul : ∀ x, u.leafNode x = s.leafNode x := fun x => by unfold State.leafNode; rw [huh]
      have hun : ∀ i : NodeIdx, u.nodeAt i = if i = s.nodeCount then s.leafNode b else s.nodeAt i := fun i => by
        rw [← nodeAt_setNode s s.nodeCount (s.leafNode b) i (by omega)]
        exact nodeAt_of_eq (by rw [hu']; rfl) i
      obtain ⟨hf, hcnt, hold, hnew, hpq⟩ := ih u (by rw [huc, hn]; omega)
      simp only [huh] at hcnt hnew hpq
      rw [huc, hn] at hcnt hpq
      have hfil : (b :: bs).filter (fun b => s.histAt b != 0) = b :: bs.filter fun b => s.histAt b != 0 :=
        List.filter_cons_of_pos (by simpa using hb)
      simp only [List.foldl_cons, ← hu, hfil, List.length_cons]
      refine ⟨?_, by omega, fun i hi => ?_, fun k hk => ?_, ?_⟩
      · rw [hf, hu']
      · rw [hold i (by rw [huc, hn]; omega), hun, if_neg]
        rintro rfl
        exact Nat.lt_irrefl _ hi
      · cases k with
        | zero =>
          have : BitVec.ofNat 9 (s.nodeCount.toNat + 0) = s.nodeCount := by simp
          rw [this, hold _ (by rw [huc, hn]; omega), hun, if_pos rfl]
          rfl
        | succ k =>
          have := hnew k (by omega)
          rw [huc, hn, hul] at this
          rw [show s.nodeCount.toNat + (k + 1) = s.nodeCount.toNat + 1 + k by omega, this]
          rfl
      · rw [hpq, List.range'_succ, hu']
        simp

/-! ### One merge -/

/-- The node a merge of a and c allocates (R76). -/
def State.mergedNode (s : State) (a c : NodeIdx) : Node :=
  { kind := .internal, sym := 0, freq := (s.nodeAt a).freq + (s.nodeAt c).freq, left := a, right := c }

/-- One merge with at least two nodes waiting (R76): the least key, then the next least, become the children. -/
theorem mergeTwo_eq {s : State} (h : 2 ≤ s.pq.length) (hd : s.pq.Nodup) :
    ∃ a c, mergeTwo s = { s with
        node := s.node.setIfInBounds s.nodeCount.toNat (s.mergedNode a c)
        nodeCount := s.nodeCount + 1
        pq := s.nodeCount :: (s.pq.erase a).erase c } ∧
      s.pq.Perm (a :: c :: (s.pq.erase a).erase c) ∧ s.keyLess a c = true ∧
      ∀ j ∈ (s.pq.erase a).erase c, s.keyLess c j = true := by
  obtain ⟨a, ha, ham, hal⟩ := extractMin_spec (s := s) (by rintro e; simp [e] at h)
  have hl : (s.pq.erase a).length = s.pq.length - 1 := List.length_erase_of_mem ham
  obtain ⟨c, hc, hcm, hcl⟩ := extractMin_spec (s := { s with pq := s.pq.erase a }) (by
    intro e
    have e' : s.pq.erase a = [] := e
    rw [e', List.length_nil] at hl
    omega)
  have hcm' : c ∈ s.pq.erase a := hcm
  have hda : (s.pq.erase a).Nodup := hd.erase a
  refine ⟨a, c, ?_, ?_, ?_, fun j hj => ?_⟩
  · unfold mergeTwo
    rw [ha]
    dsimp only
    rw [hc]
    rfl
  · exact (List.perm_cons_erase ham).trans ((List.perm_cons_erase hcm').cons a)
  · exact hal c (List.mem_of_mem_erase hcm') ((hd.mem_erase_iff).1 hcm').1
  · obtain ⟨hne, hj⟩ := (hda.mem_erase_iff).1 hj
    exact hcl j hj hne

/-! ### The forest in the queue -/

/-- The tree at an index depends on the nodes below the bound only, where children lie below it too. -/
theorem Represents.of_agree {s u : State} {n : Nat} (hu : ∀ i : NodeIdx, i.toNat < n → u.nodeAt i = s.nodeAt i)
    (hc : ∀ i : NodeIdx, i.toNat < n → (s.nodeAt i).kind = .internal →
      (s.nodeAt i).left.toNat < n ∧ (s.nodeAt i).right.toNat < n)
    {t : Tree} {i : NodeIdx} (hi : i.toNat < n) (h : s.Represents i t) : u.Represents i t := by
  induction t generalizing i with
  | leaf b => rw [State.Represents, hu i hi]; exact h
  | fork l r ihl ihr =>
    obtain ⟨hk, hl, hr⟩ := h
    have := hc i hi hk
    rw [State.Represents, hu i hi]
    exact ⟨hk, ihl this.1 hl, ihr this.2 hr⟩

/-- What holds at each turn of BUILD's loop: `ps` are the bytes present, `F` the tree at each node. -/
structure Forest (s : State) (ps : List Byte) (F : NodeIdx → Tree) : Prop where
  count : s.nodeCount.toNat + s.pq.length = 2 * ps.length
  some : s.pq ≠ []
  small : ps.length ≤ 256
  seeded : ps.length ≤ s.nodeCount.toNat
  nodup : s.pq.Nodup
  queue : ∀ j, j ∈ s.pq ↔ s.Waiting s.nodeCount j
  leaf : ∀ (k : Nat) (h : k < ps.length), s.nodeAt (BitVec.ofNat 9 k) = s.leafNode ps[k]
  merge : ∀ i : NodeIdx, ps.length ≤ i.toNat → i.toNat < s.nodeCount.toNat → s.MergesLeast i
  tree : ∀ i : NodeIdx, i.toNat < s.nodeCount.toNat → s.Represents i (F i)
  leaves : (s.pq.flatMap fun i => (F i).leaves).Perm ps
  weight : (ps.map fun b => (s.histAt b).toNat).sum < 2 ^ 32 →
    ∀ i : NodeIdx, i.toNat < s.nodeCount.toNat → (s.nodeAt i).freq.toNat = s.weight (F i)
  le : ∀ i : NodeIdx, i.toNat < s.nodeCount.toNat → s.weight (F i) ≤ (ps.map fun b => (s.histAt b).toNat).sum

/-- Children lie below their parent (R77(c)). -/
theorem Forest.child_lt {s : State} {ps : List Byte} {F : NodeIdx → Tree} (h : Forest s ps F) {j i : NodeIdx}
    (hi : i.toNat < s.nodeCount.toNat) (hc : s.ChildOf j i) : ps.length ≤ i.toNat ∧ j.toNat < i.toNat := by
  by_cases hp : i.toNat < ps.length
  · have := h.leaf i.toNat hp
    rw [BitVec.ofNat_toNat, BitVec.setWidth_eq] at this
    have hk := hc.1
    rw [this] at hk
    cases hk
  · have hm := h.merge i (by omega) hi
    refine ⟨by omega, ?_⟩
    rcases hc.2 with rfl | rfl
    · exact hm.left.1
    · exact hm.right.1

/-- A merge keeps the forest. -/
theorem Forest.mergeTwo {s : State} {ps : List Byte} {F : NodeIdx → Tree} (h : Forest s ps F) (h2 : 2 ≤ s.pq.length) :
    ∃ F', Forest (Machine.mergeTwo s) ps F' := by
  obtain ⟨a, c, ht, hperm, hac, hleast⟩ := mergeTwo_eq h2 h.nodup
  have hcount := h.count
  have hsmall := h.small
  have hlen := hperm.length_eq
  simp only [List.length_cons] at hlen
  have h1 : (1 : NodeIdx).toNat = 1 := by decide
  have hn : (s.nodeCount + 1).toNat = s.nodeCount.toNat + 1 := by rw [BitVec.toNat_add]; omega
  obtain ⟨t, rfl⟩ : ∃ t, t = Machine.mergeTwo s := ⟨_, rfl⟩
  generalize Machine.mergeTwo s = t at ht ⊢
  have htc : t.nodeCount = s.nodeCount + 1 := by rw [ht]
  have htq : t.pq = s.nodeCount :: (s.pq.erase a).erase c := by rw [ht]
  have hth : ∀ x, t.histAt x = s.histAt x := fun x => by rw [ht]; rfl
  have htl : ∀ x, t.leafNode x = s.leafNode x := fun x => by unfold State.leafNode; rw [hth]
  have hat : ∀ i : NodeIdx, t.nodeAt i = if i = s.nodeCount then s.mergedNode a c else s.nodeAt i := fun i => by
    rw [← nodeAt_setNode s s.nodeCount _ i (by omega)]
    exact nodeAt_of_eq (by rw [ht]; rfl) i
  have hold : ∀ i : NodeIdx, i.toNat < s.nodeCount.toNat → t.nodeAt i = s.nodeAt i := fun i hi => by
    rw [hat, if_neg]
    rintro rfl
    exact Nat.lt_irrefl _ hi
  have hnew : t.nodeAt s.nodeCount = s.mergedNode a c := by rw [hat, if_pos rfl]
  have hcold : ∀ i j : NodeIdx, i.toNat < s.nodeCount.toNat → (t.ChildOf j i ↔ s.ChildOf j i) := fun i j hi => by
    unfold State.ChildOf
    rw [hold i hi]
  have hcnew : ∀ j : NodeIdx, t.ChildOf j s.nodeCount ↔ a = j ∨ c = j := fun j => by
    unfold State.ChildOf
    rw [hnew]
    simp [State.mergedNode]
  have hwold : ∀ i j : NodeIdx, i.toNat ≤ s.nodeCount.toNat → (t.Waiting i j ↔ s.Waiting i j) := fun i j hi => by
    unfold State.Waiting
    constructor <;> rintro ⟨hj, hk⟩ <;> refine ⟨hj, fun k hki => ?_⟩
    · exact fun hc => hk k hki ((hcold k j (by omega)).2 hc)
    · exact fun hc => hk k hki ((hcold k j (by omega)).1 hc)
  have hkold : ∀ i j : NodeIdx, i.toNat < s.nodeCount.toNat → j.toNat < s.nodeCount.toNat →
      t.keyLess i j = s.keyLess i j := fun i j hi hj => by
    unfold State.keyLess
    rw [hold i hi, hold j hj]
  have hmem : ∀ j, j ∈ s.pq → j.toNat < s.nodeCount.toNat := fun j hj => ((h.queue j).1 hj).1
  have ham : a ∈ s.pq := hperm.mem_iff.2 (by simp)
  have hcm : c ∈ s.pq := hperm.mem_iff.2 (by simp)
  have ha := hmem a ham
  have hc := hmem c hcm
  have hdp := hperm.nodup_iff.1 h.nodup
  have hne : a ≠ c := fun e => by simp [e] at hdp
  have hrest : ∀ j, j ∈ (s.pq.erase a).erase c ↔ j ∈ s.pq ∧ j ≠ a ∧ j ≠ c := fun j => by
    rw [(h.nodup.erase a).mem_erase_iff, h.nodup.mem_erase_iff]
    tauto
  have hchild : ∀ i : NodeIdx, i.toNat < s.nodeCount.toNat → (s.nodeAt i).kind = .internal →
      (s.nodeAt i).left.toNat < s.nodeCount.toNat ∧ (s.nodeAt i).right.toNat < s.nodeCount.toNat := fun i hi hk => by
    have hl := (h.child_lt hi ⟨hk, .inl rfl⟩).2
    have hr := (h.child_lt hi ⟨hk, .inr rfl⟩).2
    omega
  have hrep : ∀ i : NodeIdx, i.toNat < s.nodeCount.toNat → t.Represents i (F i) := fun i hi =>
    Represents.of_agree hold hchild hi (h.tree i hi)
  have hcase : ∀ i : NodeIdx, i.toNat < t.nodeCount.toNat → i.toNat < s.nodeCount.toNat ∨ i = s.nodeCount := fun i hi => by
    rw [htc, hn] at hi
    by_cases he : i.toNat = s.nodeCount.toNat
    · exact .inr (BitVec.eq_of_toNat_eq he)
    · exact .inl (by omega)
  have hF : ∀ i : NodeIdx, i.toNat < s.nodeCount.toNat →
      Function.update F s.nodeCount (.fork (F a) (F c)) i = F i := fun i hi =>
    Function.update_of_ne (fun e => by rw [e] at hi; exact Nat.lt_irrefl _ hi) _ _
  have hFn : Function.update F s.nodeCount (.fork (F a) (F c)) s.nodeCount = .fork (F a) (F c) :=
    Function.update_self _ _ _
  have hleaves : ((F a).leaves ++ ((F c).leaves ++ ((s.pq.erase a).erase c).flatMap fun i => (F i).leaves)).Perm ps := by
    refine .trans ?_ h.leaves
    have := (hperm.flatMap_right fun i => (F i).leaves).symm
    simpa using this
  have hwt : ∀ x, t.weight x = s.weight x := fun x => by unfold State.weight; simp only [hth]
  have hfork : s.weight (.fork (F a) (F c)) = s.weight (F a) + s.weight (F c) := by
    simp [State.weight, Tree.leaves]
  have hle : s.weight (F a) + s.weight (F c) ≤ (ps.map fun b => (s.histAt b).toNat).sum := by
    have := (hleaves.map fun b => (s.histAt b).toNat).sum_eq
    simp only [List.map_append, List.sum_append] at this
    unfold State.weight
    omega
  refine ⟨Function.update F s.nodeCount (.fork (F a) (F c)), ?_, ?_, hsmall, ?_, ?_, fun j => ?_, fun k hk => ?_,
    fun i hi1 hi2 => ?_, fun i hi => ?_, ?_, fun hsum i hi => ?_, fun i hi => ?_⟩
  · rw [htc, htq, hn, List.length_cons]
    omega
  · rw [htq]; simp
  · have := h.seeded; rw [htc, hn]; omega
  · rw [htq]
    refine List.nodup_cons.2 ⟨fun hm => ?_, (h.nodup.erase a).erase c⟩
    exact Nat.lt_irrefl _ (hmem _ ((hrest _).1 hm).1)
  · rw [htq, List.mem_cons, hrest, h.queue, htc]
    constructor
    · rintro (rfl | ⟨hw, hja, hjc⟩)
      · refine ⟨by omega, fun k hk hck => ?_⟩
        rw [hn] at hk
        by_cases hkn : k.toNat < s.nodeCount.toNat
        · have := (h.child_lt hkn ((hcold k _ hkn).1 hck)).2
          omega
        · have hkn : k = s.nodeCount := BitVec.eq_of_toNat_eq (by omega)
          rw [hkn, hcnew] at hck
          rcases hck with rfl | rfl
          · exact Nat.lt_irrefl _ ha
          · exact Nat.lt_irrefl _ hc
      · have hw1 := hw.1
        refine ⟨by omega, fun k hk hck => ?_⟩
        rw [hn] at hk
        by_cases hkn : k.toNat < s.nodeCount.toNat
        · exact hw.2 k hkn ((hcold k _ hkn).1 hck)
        · have hkn : k = s.nodeCount := BitVec.eq_of_toNat_eq (by omega)
          rw [hkn, hcnew] at hck
          rcases hck with rfl | rfl
          · exact hja rfl
          · exact hjc rfl
    · rintro ⟨hj, hw⟩
      rw [hn] at hj
      by_cases hjn : j.toNat = s.nodeCount.toNat
      · exact .inl (BitVec.eq_of_toNat_eq hjn)
      · right
        have hnc := hw s.nodeCount (by omega)
        rw [hcnew] at hnc
        refine ⟨⟨by omega, fun k hk hck => hw k (by omega) ((hcold k j hk).2 hck)⟩, ?_, ?_⟩
        · rintro rfl; exact hnc (.inl rfl)
        · rintro rfl; exact hnc (.inr rfl)
  · have := h.seeded
    rw [hold _ (by rw [BitVec.toNat_ofNat]; omega), htl, h.leaf k hk]
  · rcases hcase i hi2 with hi | rfl
    · have hm := h.merge i hi1 hi
      have hl := hm.left.1
      have hr := hm.right.1
      have hi' := hold i hi
      refine ⟨?_, ?_, ?_, ?_, ?_, ?_, ?_⟩ <;> rw [hi']
      · exact hm.kind
      · exact hm.sym
      · rw [hold _ (by omega), hold _ (by omega)]; exact hm.freq
      · exact (hwold _ _ (by omega)).2 hm.left
      · exact (hwold _ _ (by omega)).2 hm.right
      · rw [hkold _ _ (by omega) (by omega)]; exact hm.order
      · intro j hj hjl hjr
        have hj1 := hj.1
        rw [hkold _ _ (by omega) (by omega)]
        exact hm.least j ((hwold _ _ (by omega)).1 hj) hjl hjr
    · have hwq : ∀ j, t.Waiting s.nodeCount j ↔ j ∈ s.pq := fun j => (hwold _ j (Nat.le_refl _)).trans (h.queue j).symm
      refine ⟨?_, ?_, ?_, ?_, ?_, ?_, ?_⟩ <;> rw [hnew]
      · rfl
      · rfl
      · show _ = (t.nodeAt a).freq + (t.nodeAt c).freq
        rw [hold a ha, hold c hc]; rfl
      · exact (hwq a).2 ham
      · exact (hwq c).2 hcm
      · show t.keyLess a c = true
        rw [hkold _ _ ha hc]; exact hac
      · intro j hj hja hjc
        have hj' := (hwq j).1 hj
        show t.keyLess c j = true
        rw [hkold _ _ hc (hmem j hj')]
        exact hleast j ((hrest j).2 ⟨hj', hja, hjc⟩)
  · rcases hcase i hi with hi | rfl
    · rw [hF i hi]; exact hrep i hi
    · rw [hFn, State.Represents, hnew]
      exact ⟨rfl, hrep a ha, hrep c hc⟩
  · rw [htq, List.flatMap_cons, hFn, Tree.leaves, List.append_assoc]
    refine .trans ?_ hleaves
    refine .append_left _ (.append_left _ ?_)
    rw [List.flatMap_congr fun i hi => ?_]
    rw [hF i (hmem i ((hrest i).1 hi).1)]
  · simp only [hth] at hsum
    rcases hcase i hi with hi | rfl
    · rw [hF i hi, hold i hi, hwt]; exact h.weight hsum i hi
    · rw [hFn, hnew, hwt]
      show ((s.nodeAt a).freq + (s.nodeAt c).freq).toNat = _
      rw [BitVec.toNat_add, h.weight hsum a ha, h.weight hsum c hc]
      rw [hfork]
      exact Nat.mod_eq_of_lt (by omega)
  · simp only [hth]
    rw [hwt]
    rcases hcase i hi with hi | rfl
    · rw [hF i hi]; exact h.le i hi
    · rw [hFn, hfork]; exact hle

/-- A merge writes the arena, NODE_COUNT and the queue only. -/
theorem mergeTwo_frame {s : State} (h : 2 ≤ s.pq.length) (hd : s.pq.Nodup) :
    Machine.mergeTwo s = { s with
      node := (Machine.mergeTwo s).node, nodeCount := (Machine.mergeTwo s).nodeCount, pq := (Machine.mergeTwo s).pq } := by
  obtain ⟨a, c, ht, -⟩ := mergeTwo_eq h hd
  rw [ht]

/-- BUILD's loop ends with one node in the queue (R76). -/
theorem Forest.mergeLoop {n : Nat} {s : State} {ps : List Byte} {F : NodeIdx → Tree} (h : Forest s ps F)
    (hn : s.pq.length ≤ n + 1) :
    let t := Machine.mergeLoop n s
    t = { s with node := t.node, nodeCount := t.nodeCount, pq := t.pq } ∧ (∃ F', Forest t ps F') ∧ t.pq.length = 1 := by
  induction n generalizing s F with
  | zero =>
    have := List.length_pos_iff.2 h.some
    exact ⟨rfl, ⟨F, h⟩, by unfold Machine.mergeLoop; omega⟩
  | succ n ih =>
    have hpos := List.length_pos_iff.2 h.some
    unfold Machine.mergeLoop
    by_cases h2 : 2 ≤ s.pq.length
    · rw [if_pos h2]
      obtain ⟨F', hF'⟩ := h.mergeTwo h2
      have hlen : (Machine.mergeTwo s).pq.length + 1 = s.pq.length := by
        obtain ⟨a, c, ht, hp, -⟩ := mergeTwo_eq h2 h.nodup
        have := hp.length_eq
        rw [ht]
        simp only [List.length_cons] at this ⊢
        omega
      obtain ⟨hf, hF, h1⟩ := ih hF' (by omega)
      have hfr := mergeTwo_frame h2 h.nodup
      refine ⟨?_, hF, h1⟩
      rw [hf, hfr]
    · rw [if_neg h2]
      exact ⟨rfl, ⟨F, h⟩, by omega⟩

/-! ### BUILD -/

theorem present_nodup (s : State) : s.present.Nodup := allBytes_nodup.filter _

theorem present_length_le (s : State) : s.present.length ≤ 256 := nodup_bytes_length (present_nodup s)

theorem present_congr {s t : State} (h : t.hist = s.hist) : t.present = s.present := by
  unfold State.present
  simp only [histAt_of_eq h]

theorem mem_present (s : State) (b : Byte) : b ∈ s.present ↔ s.histAt b ≠ 0 := by
  unfold State.present
  simp [mem_allBytes]

/-- The bytes present carry the whole count. -/
theorem present_sum (s : State) : (s.present.map fun b => (s.histAt b).toNat).sum = s.histSum := by
  rw [histSum_eq, State.present]
  generalize allBytes = l
  induction l with
  | nil => rfl
  | cons b l ih =>
    by_cases hb : s.histAt b = 0
    · rw [List.filter_cons_of_neg (by simpa using hb), List.map_cons, List.sum_cons, ih, hb]
      simp
    · rw [List.filter_cons_of_pos (by simpa using hb), List.map_cons, List.map_cons, List.sum_cons, List.sum_cons, ih]

/-- Seeding (R76) over the bytes `bs`. -/
theorem seedFrom_spec (bs : List Byte) (hb : bs.length ≤ 256) (s : State) :
    ∀ u, u = bs.foldl seedLeaf { s with pq := [], nodeCount := 0 } →
    let t : State := { u with symcount := u.nodeCount }
    let p := bs.filter fun b => s.histAt b != 0
    t = { s with node := t.node, nodeCount := t.nodeCount, symcount := t.symcount, pq := t.pq } ∧
    t.nodeCount.toNat = p.length ∧ t.symcount = t.nodeCount ∧
    t.pq = ((List.range p.length).map (BitVec.ofNat 9)).reverse ∧
    ∀ (k : Nat) (h : k < p.length), t.nodeAt (BitVec.ofNat 9 k) = s.leafNode p[k] := by
  have h0 : (0 : NodeIdx).toNat = 0 := by decide
  have key := seedFold bs { s with pq := [], nodeCount := 0 } (by rw [show BitVec.toNat _ = 0 from h0]; omega)
  intro u hu
  rw [← hu] at key
  obtain ⟨hf, hc, -, hn, hq⟩ := key
  refine ⟨?_, ?_, rfl, ?_, fun k hk => ?_⟩
  · dsimp only
    rw [hf]
  · exact hc.trans (by rw [show BitVec.toNat _ = 0 from h0]; exact Nat.zero_add _)
  · refine hq.trans ?_
    rw [List.append_nil, List.range_eq_range']
    rfl
  · have := hn k hk
    rw [show BitVec.toNat _ = 0 from h0, Nat.zero_add] at this
    exact this

/-- Seeding (R76): a leaf for each byte present, in ascending order, all in the queue. -/
theorem seedTree_spec (s : State) :
    let t := seedTree s
    t = { s with node := t.node, nodeCount := t.nodeCount, symcount := t.symcount, pq := t.pq } ∧
    t.nodeCount.toNat = s.present.length ∧ t.symcount = t.nodeCount ∧
    t.pq = ((List.range s.present.length).map (BitVec.ofNat 9)).reverse ∧
    ∀ (k : Nat) (h : k < s.present.length), t.nodeAt (BitVec.ofNat 9 k) = s.leafNode s.present[k] := by
  unfold seedTree State.present
  exact seedFrom_spec allBytes allBytes_length.le s _ rfl

theorem seedTree_hist (s : State) : (seedTree s).hist = s.hist := by
  have h := (seedTree_spec s).1
  generalize seedTree s = v at h ⊢
  rw [h]

theorem seedTree_forest {s : State} (h : s.present ≠ []) :
    Forest (seedTree s) s.present fun i => .leaf (s.present.getD i.toNat 0) := by
  obtain ⟨hf, hc, -, hq, hn⟩ := seedTree_spec s
  have hsmall := present_length_le s
  have hth : ∀ x, (seedTree s).histAt x = s.histAt x := histAt_of_eq (seedTree_hist s)
  have htl : ∀ x, (seedTree s).leafNode x = s.leafNode x := fun x => by unfold State.leafNode; rw [hth]
  have hget : ∀ i : NodeIdx, (hi : i.toNat < s.present.length) →
      (seedTree s).nodeAt i = s.leafNode s.present[i.toNat] := fun i hi => by
    have := hn i.toNat hi
    rwa [BitVec.ofNat_toNat, BitVec.setWidth_eq] at this
  have hleaf : ∀ i : NodeIdx, i.toNat < s.present.length → ((seedTree s).nodeAt i).kind = .leaf := fun i hi => by
    rw [hget i hi]; rfl
  have hmem : ∀ j, j ∈ (seedTree s).pq ↔ j.toNat < s.present.length := fun j => by
    rw [hq, List.mem_reverse, List.mem_map]
    constructor
    · rintro ⟨k, hk, rfl⟩
      rw [List.mem_range] at hk
      rw [BitVec.toNat_ofNat]
      exact (Nat.mod_le _ _).trans_lt hk
    · exact fun hj => ⟨j.toNat, List.mem_range.2 hj, by simp⟩
  refine ⟨?_, ?_, hsmall, hc.ge, ?_, fun j => ?_, fun k hk => ?_, fun i h1 h2 => ?_, fun i hi => ?_, ?_, fun _ i hi => ?_,
    fun i hi => ?_⟩
  · rw [hq, hc]; simp; omega
  · rw [hq]; simpa using h
  · rw [hq, List.nodup_reverse]
    refine List.Nodup.map_on (fun x hx y hy e => ?_) List.nodup_range
    rw [List.mem_range] at hx hy
    have := congrArg BitVec.toNat e
    rw [BitVec.toNat_ofNat, BitVec.toNat_ofNat, Nat.mod_eq_of_lt (by omega), Nat.mod_eq_of_lt (by omega)] at this
    exact this
  · rw [hmem]
    constructor
    · intro hj
      refine ⟨by omega, fun k hk hck => ?_⟩
      rw [hc] at hk
      have := hck.1
      rw [hleaf k hk] at this
      cases this
    · intro hw; have := hw.1; omega
  · rw [hn k hk, htl]
  · omega
  · rw [hc] at hi
    rw [State.Represents, hget i hi]
    refine ⟨rfl, ?_⟩
    show s.present[i.toNat] = _
    rw [List.getD_eq_getElem _ _ hi]
  · rw [hq]
    refine ((List.reverse_perm _).flatMap_right _).trans ?_
    refine .of_eq ?_
    rw [List.flatMap_map]
    apply List.ext_getElem?
    intro k
    have : (List.range s.present.length).flatMap (fun a =>
        (Tree.leaf (s.present.getD (BitVec.ofNat 9 a).toNat 0)).leaves) =
        (List.range s.present.length).map fun a => s.present.getD (BitVec.ofNat 9 a).toNat 0 := by
      rw [List.map_eq_flatMap]; rfl
    rw [this]
    by_cases hk : k < s.present.length
    · rw [List.getElem?_map, List.getElem?_range hk]
      simp only [Option.map_some, BitVec.toNat_ofNat]
      rw [Nat.mod_eq_of_lt (by omega), List.getD_eq_getElem _ _ hk, List.getElem?_eq_getElem hk]
    · rw [List.getElem?_eq_none (by simpa using hk), List.getElem?_eq_none (by omega)]
  · rw [hc] at hi
    rw [hget i hi, List.getD_eq_getElem _ _ hi]
    simp [State.weight, Tree.leaves, State.leafNode, hth]
  · rw [hc] at hi
    rw [List.getD_eq_getElem _ _ hi]
    refine List.single_le_sum (by simp) _ ?_
    simp only [State.weight, Tree.leaves, List.map_cons, List.map_nil, List.sum_cons, List.sum_nil, Nat.add_zero]
    exact List.mem_map_of_mem (List.getElem_mem hi)

/-- The forest of one tree is a built tree (R77). -/
theorem Forest.built {s : State} {F : NodeIdx → Tree} (h : Forest s s.present F) (h1 : s.pq.length = 1) {r : NodeIdx}
    (hr : s.pq = [r]) : State.Built { s with pq := [], root := r } := by
  have hcount := h.count
  have hseed := h.seeded
  have hsmall := h.small
  have hq : ∀ j, s.Waiting s.nodeCount j ↔ j = r := fun j => by rw [← h.queue, hr]; simp
  have hlast : (BitVec.ofNat 9 (s.nodeCount.toNat - 1)) = r := by
    have hl := s.nodeCount.isLt
    rw [← hq]
    refine ⟨by rw [BitVec.toNat_ofNat, Nat.mod_eq_of_lt (by omega)]; omega, fun k hk hc => ?_⟩
    have := (h.child_lt hk hc).2
    rw [BitVec.toNat_ofNat, Nat.mod_eq_of_lt (by omega)] at this
    omega
  have hrn : r.toNat + 1 = s.nodeCount.toNat := by
    have hl := s.nodeCount.isLt
    rw [← hlast, BitVec.toNat_ofNat, Nat.mod_eq_of_lt (by omega)]; omega
  refine ⟨?_, ?_, h.leaf, fun i hi1 hi2 => ?_, fun j hj hne => ?_⟩
  · show s.nodeCount.toNat + 1 = 2 * s.present.length
    omega
  · show r.toNat + 2 = 2 * s.present.length
    omega
  · obtain ⟨a, b, c, d, e, f, g⟩ := h.merge i hi1 hi2
    exact ⟨a, b, c, d, e, f, g⟩
  · have hj' : j.toNat < s.nodeCount.toNat := hj
    have hne' : j ≠ r := hne
    have hnw : ¬ s.Waiting s.nodeCount j := fun hw => hne' ((hq j).1 hw)
    have : ∃ i : NodeIdx, i.toNat < s.nodeCount.toNat ∧ s.ChildOf j i := by
      by_contra hno
      exact hnw ⟨hj', fun k hk hc => hno ⟨k, hk, hc⟩⟩
    obtain ⟨i, hi, hc⟩ := this
    refine ⟨i, ⟨hi, hc⟩, fun k hk => ?_⟩
    obtain ⟨hk, hck⟩ := hk
    have hck' : s.ChildOf j k := hck
    have hk' : k.toNat < s.nodeCount.toNat := hk
    have key : ∀ x y : NodeIdx, x.toNat < s.nodeCount.toNat → y.toNat < s.nodeCount.toNat → s.ChildOf j x →
        s.ChildOf j y → ¬ x.toNat < y.toNat := fun x y hx hy hcx hcy hlt => by
      have hm := h.merge y (h.child_lt hy hcy).1 hy
      rcases hcy.2 with e | e
      · have hw := hm.left; rw [e] at hw; exact hw.2 x hlt hcx
      · have hw := hm.right; rw [e] at hw; exact hw.2 x hlt hcx
    have a1 := key i k hi hk' hc hck'
    have a2 := key k i hk' hi hck' hc
    exact BitVec.eq_of_toNat_eq (by omega)

/-- Everything BUILD does (R76, R77, R79). -/
theorem build_spec (s : State) :
    ∃ t, bodyBuild s = .ok t ∧
      t = { s with node := t.node, nodeCount := t.nodeCount, root := t.root, symcount := t.symcount, pq := []
                   treeValid := true, tableValid := false } ∧
      t.symcount.toNat = s.present.length ∧
      (s.present = [] → t.nodeCount = 0 ∧ t.root = nilIdx) ∧
      (s.present ≠ [] → t.Built ∧ ∃ F : NodeIdx → Tree,
        (∀ i : NodeIdx, i.toNat < t.nodeCount.toNat → t.Represents i (F i)) ∧ (F t.root).leaves.Perm s.present ∧
        (s.histSum < 2 ^ 32 →
          ∀ i : NodeIdx, i.toNat < t.nodeCount.toNat → (t.nodeAt i).freq.toNat = s.weight (F i)) ∧
        ∀ i : NodeIdx, i.toNat < t.nodeCount.toNat → s.weight (F i) ≤ s.histSum) := by
  obtain ⟨hf, hc, hsym, hq, hn⟩ := seedTree_spec s
  have hfo := seedTree_forest (s := s)
  unfold bodyBuild
  generalize seedTree s = v at hf hc hsym hq hn hfo ⊢
  refine ⟨_, rfl, ?_⟩
  by_cases hp : s.present = []
  · have hq0 : v.pq = [] := by rw [hq, hp]; rfl
    have hc0 : v.nodeCount = 0 := BitVec.eq_of_toNat_eq (by rw [hc, hp]; rfl)
    rw [if_pos hq0]
    refine ⟨?_, ?_, fun _ => ⟨hc0, rfl⟩, fun hne => absurd hp hne⟩
    · dsimp only
      rw [hf]
      simp only [hq0]
    · show v.symcount.toNat = _
      rw [hsym, hc]
  · have hps : 0 < s.present.length := List.length_pos_iff.2 hp
    have hq1 : v.pq ≠ [] := by
      rw [hq]
      intro e
      have := congrArg List.length e
      rw [List.length_reverse, List.length_map, List.length_range, List.length_nil] at this
      omega
    rw [if_neg hq1]
    have hfo := hfo hp
    obtain ⟨hfr, ⟨F, hF⟩, h1⟩ := hfo.mergeLoop (n := v.pq.length) (by omega)
    generalize mergeLoop v.pq.length v = u at hfr hF h1 ⊢
    obtain ⟨r, hr⟩ := List.length_eq_one_iff.1 h1
    have hroot : takeRoot u = { u with pq := [], root := r } := by
      unfold takeRoot State.extractMin
      rw [hr]
      simp [State.leastKey]
    rw [hroot]
    have huh : u.hist = s.hist := by rw [hfr, hf]
    have hup : u.present = s.present := present_congr huh
    have hut : ∀ x, u.weight x = s.weight x := fun x => by unfold State.weight; simp only [histAt_of_eq huh]
    rw [← hup] at hF
    refine ⟨?_, ?_, fun hne => absurd hne hp, fun _ => ⟨?_, F, ?_, ?_, fun hs => ?_, fun i hi => ?_⟩⟩
    · dsimp only
      rw [hfr, hf]
    · show u.symcount.toNat = _
      rw [hfr, hsym, hc]
    · obtain ⟨a, b, c, d, e⟩ := hF.built h1 hr
      refine ⟨a, b, c, fun i hi1 hi2 => ?_, e⟩
      obtain ⟨a, b, c, d, e, f, g⟩ := d i hi1 hi2
      exact ⟨a, b, c, d, e, f, g⟩
    · intro i hi
      refine (Represents.congr (s := u) ?_).2 (hF.tree i hi)
      exact fun _ => rfl
    · have := hF.leaves
      rw [hr, hup, List.flatMap_cons, List.flatMap_nil, List.append_nil] at this
      exact this
    · intro i hi
      have := hF.weight (by rw [present_sum, State.histSum, huh]; exact hs) i hi
      rw [hut] at this
      exact this
    · have := hF.le i hi
      rw [hut, present_sum, State.histSum, huh] at this
      exact this

/-! ### Determinism (R78) -/

theorem leastKey_congr {s u : State} {m : NodeIdx} {l : List NodeIdx}
    (h : ∀ j ∈ m :: l, u.nodeAt j = s.nodeAt j) : u.leastKey m l = s.leastKey m l := by
  induction l generalizing m with
  | nil => rfl
  | cons j rest ih =>
    have hk : u.keyLess j m = s.keyLess j m := by
      unfold State.keyLess
      rw [h j (by simp), h m (by simp)]
    rw [State.leastKey, State.leastKey, hk]
    refine ih fun x hx => ?_
    rcases List.mem_cons.1 hx with rfl | hx
    · split
      · exact h j (by simp)
      · exact h m (by simp)
    · exact h x (by simp [hx])

/-- The builder's part of two states agrees: queue, allocator and every allocated node. -/
structure SameForest (s u : State) : Prop where
  pq : u.pq = s.pq
  nodeCount : u.nodeCount = s.nodeCount
  node : ∀ i : NodeIdx, i.toNat < s.nodeCount.toNat → u.nodeAt i = s.nodeAt i

theorem SameForest.mergeTwo {s u : State} (h : SameForest s u) {ps : List Byte} {F : NodeIdx → Tree} (hs : Forest s ps F)
    (h2 : 2 ≤ s.pq.length) : SameForest (Machine.mergeTwo s) (Machine.mergeTwo u) := by
  have hmem : ∀ j ∈ s.pq, u.nodeAt j = s.nodeAt j := fun j hj => h.node j ((hs.queue j).1 hj).1
  have hcount := hs.count
  have hsmall := hs.small
  obtain ⟨hp, hn, hnode⟩ := h
  cases hpq : s.pq with
  | nil => rw [hpq] at h2; simp at h2
  | cons x rest =>
    have hx : u.extractMin = some (s.leastKey x rest, { u with pq := s.pq.erase (s.leastKey x rest) }) := by
      unfold State.extractMin
      rw [hp, hpq]
      simp only [leastKey_congr (s := s) (u := u) (m := x) (l := rest) fun j hj => hmem j (by rw [hpq]; exact hj)]
    have hxs : s.extractMin = some (s.leastKey x rest, { s with pq := s.pq.erase (s.leastKey x rest) }) := by
      unfold State.extractMin
      rw [hpq]
    have ham : s.leastKey x rest ∈ s.pq := by rw [hpq]; exact leastKey_mem s x rest
    generalize s.leastKey x rest = a at hx hxs ham
    have hl : (s.pq.erase a).length = s.pq.length - 1 := List.length_erase_of_mem ham
    cases hq2 : s.pq.erase a with
    | nil => rw [hq2, List.length_nil] at hl; omega
    | cons y rest2 =>
      rw [hq2] at hx hxs
      have hmem2 : ∀ j ∈ y :: rest2, u.nodeAt j = s.nodeAt j := fun j hj =>
        hmem j (List.mem_of_mem_erase (a := j) (b := a) (by rw [hq2]; exact hj))
      have hy : State.extractMin { u with pq := y :: rest2 } = some (s.leastKey y rest2,
          { u with pq := (y :: rest2).erase (s.leastKey y rest2) }) := by
        unfold State.extractMin
        have : State.leastKey { u with pq := y :: rest2 } y rest2 = s.leastKey y rest2 := leastKey_congr hmem2
        simp only [this]
      have hys : State.extractMin { s with pq := y :: rest2 } = some (s.leastKey y rest2,
          { s with pq := (y :: rest2).erase (s.leastKey y rest2) }) := by
        unfold State.extractMin
        have : State.leastKey { s with pq := y :: rest2 } y rest2 = s.leastKey y rest2 := leastKey_congr fun _ _ => rfl
        simp only [this]
      have hcm := hmem2 _ (leastKey_mem s y rest2)
      generalize s.leastKey y rest2 = c at hy hys hcm
      have e1 : Machine.mergeTwo s = { s with
          node := s.node.setIfInBounds s.nodeCount.toNat (s.mergedNode a c)
          nodeCount := s.nodeCount + 1
          pq := s.nodeCount :: (y :: rest2).erase c } := by
        unfold Machine.mergeTwo
        rw [hxs]
        dsimp only
        rw [hys]
        rfl
      have e2 : Machine.mergeTwo u = { u with
          node := u.node.setIfInBounds u.nodeCount.toNat (u.mergedNode a c)
          nodeCount := u.nodeCount + 1
          pq := u.nodeCount :: (y :: rest2).erase c } := by
        unfold Machine.mergeTwo
        rw [hx]
        dsimp only
        rw [hy]
        rfl
      have hmn : u.mergedNode a c = s.mergedNode a c := by
        unfold State.mergedNode
        rw [hmem a ham, hcm]
      have h1 : (1 : NodeIdx).toNat = 1 := by decide
      have hn1 : (s.nodeCount + 1).toNat = s.nodeCount.toNat + 1 := by rw [BitVec.toNat_add]; omega
      have hat : ∀ i : NodeIdx, (Machine.mergeTwo s).nodeAt i = if i = s.nodeCount then s.mergedNode a c else s.nodeAt i :=
        fun i => by
          rw [← nodeAt_setNode s s.nodeCount _ i (by omega)]
          exact nodeAt_of_eq (by rw [e1]; rfl) i
      have hau : ∀ i : NodeIdx, (Machine.mergeTwo u).nodeAt i = if i = s.nodeCount then s.mergedNode a c else u.nodeAt i :=
        fun i => by
          rw [← nodeAt_setNode u s.nodeCount _ i (by omega)]
          exact nodeAt_of_eq (by rw [e2, hn, hmn]; rfl) i
      refine ⟨?_, ?_, fun i hi => ?_⟩
      · rw [e1, e2]; simp only [hn]
      · rw [e1, e2]; simp only [hn]
      · rw [hat, hau]
        split
        · rfl
        · rename_i hne
          refine hnode i ?_
          have : i.toNat < (s.nodeCount + 1).toNat := by rw [e1] at hi; exact hi
          have : i.toNat ≠ s.nodeCount.toNat := fun e => hne (BitVec.eq_of_toNat_eq e)
          omega

theorem SameForest.mergeLoop {n : Nat} {s u : State} (h : SameForest s u) {ps : List Byte} {F : NodeIdx → Tree}
    (hs : Forest s ps F) : SameForest (Machine.mergeLoop n s) (Machine.mergeLoop n u) := by
  induction n generalizing s u F with
  | zero => exact h
  | succ n ih =>
    unfold Machine.mergeLoop
    rw [h.pq]
    split
    · rename_i h2
      obtain ⟨F', hF'⟩ := hs.mergeTwo h2
      exact ih (h.mergeTwo hs h2) hF'
    · exact h

/-- The nodes BUILD allocates are a function of HIST (R78). -/
theorem build_nodes_congr {s u t v : State} (h : u.hist = s.hist) (hs : bodyBuild s = .ok t) (hu : bodyBuild u = .ok v) :
    ∀ i : NodeIdx, i.toNat < t.nodeCount.toNat → v.nodeAt i = t.nodeAt i := by
  have hp := present_congr h
  obtain ⟨-, c1, y1, q1, n1⟩ := seedTree_spec s
  obtain ⟨-, c2, y2, q2, n2⟩ := seedTree_spec u
  have hf := seedTree_forest (s := s)
  unfold bodyBuild at hs hu
  rw [hp] at c2 q2
  generalize seedTree s = s1 at hs c1 y1 q1 n1 hf
  generalize seedTree u = u1 at hu c2 y2 q2 n2
  have hcc : u1.nodeCount = s1.nodeCount := BitVec.eq_of_toNat_eq (by rw [c1, c2])
  have hqq : u1.pq = s1.pq := by rw [q1, q2]
  have hsame : SameForest s1 u1 := ⟨hqq, hcc, fun i hi => by
    rw [c1] at hi
    have a := n1 i.toNat hi
    have b := n2 i.toNat (by rw [hp]; exact hi)
    rw [BitVec.ofNat_toNat, BitVec.setWidth_eq] at a b
    rw [a, b]
    simp only [hp]
    unfold State.leafNode
    rw [histAt_of_eq h]⟩
  have ht : ∀ w : State, (takeRoot w).node = w.node := fun w => by
    unfold takeRoot State.extractMin
    cases w.pq <;> rfl
  obtain rfl := Except.ok.inj hs
  obtain rfl := Except.ok.inj hu
  intro i hi
  rw [hqq]
  by_cases hq0 : s1.pq = []
  · rw [if_pos hq0] at hi
    rw [if_pos hq0, if_pos hq0]
    exact hsame.node i hi
  · rw [if_neg hq0] at hi
    rw [if_neg hq0, if_neg hq0]
    have hne : s.present ≠ [] := fun e => hq0 (by rw [q1, e]; rfl)
    have hsl := hsame.mergeLoop (n := s1.pq.length) (hf hne)
    refine (nodeAt_of_eq (ht _) i).trans ((hsl.node i ?_).trans (nodeAt_of_eq (ht _) i).symm)
    have hn : ∀ w : State, (takeRoot w).nodeCount = w.nodeCount := fun w => by
      unfold takeRoot State.extractMin
      cases w.pq <;> rfl
    rw [← hn]
    exact hi

/-- The result of BUILD is a function of HIST (R78). -/
theorem build_congr {s u t v : State} (h : u.hist = s.hist) (hs : bodyBuild s = .ok t) (hu : bodyBuild u = .ok v) :
    v.nodeCount = t.nodeCount ∧ v.root = t.root ∧ v.symcount = t.symcount ∧
      ∀ i : NodeIdx, i.toNat < t.nodeCount.toNat → v.nodeAt i = t.nodeAt i := by
  have hp := present_congr h
  obtain ⟨t', ht, tf, t1, t2, t3⟩ := build_spec s
  obtain ⟨v', hv, vf, v1, v2, v3⟩ := build_spec u
  have hnode := build_nodes_congr h hs hu
  rw [hs] at ht
  rw [hu] at hv
  obtain rfl := Except.ok.inj ht
  obtain rfl := Except.ok.inj hv
  rw [hp] at v1 v2 v3
  have tp : t.present = s.present := present_congr (by rw [tf])
  have vp : v.present = s.present := (present_congr (by rw [vf])).trans hp
  by_cases hne : s.present = []
  · refine ⟨?_, ?_, BitVec.eq_of_toNat_eq (by rw [t1, v1]), hnode⟩
    · rw [(t2 hne).1, (v2 hne).1]
    · rw [(t2 hne).2, (v2 hne).2]
  · have tb := (t3 hne).1
    have vb := (v3 hne).1
    have a1 := tb.nodeCount
    have a2 := vb.nodeCount
    have b1 := tb.root
    have b2 := vb.root
    rw [tp] at a1 b1
    rw [vp] at a2 b2
    exact ⟨BitVec.eq_of_toNat_eq (by omega), BitVec.eq_of_toNat_eq (by omega), BitVec.eq_of_toNat_eq (by rw [t1, v1]),
      hnode⟩

end Sys2Proof.Machine
end

