-- ==== Sys2Proof/Laws/Packer.lean ====
section
/-! SUPPORT. The packer (R86 to R89): what appending bits does, and when it raises OBUF_OVERFLOW. -/

namespace Sys2Proof.Machine

open Sys2Proof Config

/-! ### Frames -/

theorem SameButPacker.refl (s : State) : SameButPacker s s := rfl

theorem SameButPacker.trans {s t u : State} (h : SameButPacker s t) (k : SameButPacker t u) : SameButPacker s u := by
  unfold SameButPacker at *
  rw [← h, ← k]

theorem SameButPacker.eq {s t : State} (h : SameButPacker s t) :
    t = { s with optr := t.optr, acc := t.acc, accN := t.accN, obuf := t.obuf } := by
  unfold SameButPacker at h
  rw [← h]

/-- appendBit writes the packer's registers and OBUF only. -/
theorem appendBit_frame {v : Bool} {s t : State} (h : appendBit v s = .ok t) : SameButPacker s t := by
  unfold appendBit raiseIf raise at h
  dsimp only at h
  split at h
  · split at h
    · cases h
    · cases h; rfl
  · cases h; rfl

theorem appendBits_frame {bs : Bits} {s t : State} (h : appendBits bs s = .ok t) : SameButPacker s t := by
  induction bs generalizing s with
  | nil => cases h; rfl
  | cons v rest ih =>
    unfold appendBits at h
    cases hv : appendBit v s with
    | error e => rw [hv] at h; cases h
    | ok u => rw [hv] at h; exact (appendBit_frame hv).trans (ih h)

theorem flush_frame {s t : State} (h : flush s = .ok t) : SameButPacker s t := by
  unfold flush at h
  split at h
  · exact appendBits_frame h
  · cases h; rfl

/-! ### The stream -/

theorem pendingBits_length (s : State) : s.pendingBits.length = s.accN.toNat := by simp [State.pendingBits]

theorem obufBytes_length (s : State) (a n : Nat) : (s.obufBytes a n).length = n := by simp [State.obufBytes]

theorem obufBytes_congr {s t : State} {a n : Nat} (h : ∀ x, a ≤ x → x < a + n → t.obufByte x = s.obufByte x) :
    t.obufBytes a n = s.obufBytes a n := by
  unfold State.obufBytes
  refine List.map_congr_left fun x hx => ?_
  rw [List.mem_range'_1] at hx
  exact h x hx.1 hx.2

theorem obufBytes_add (s : State) (a m n : Nat) : s.obufBytes a (m + n) = s.obufBytes a m ++ s.obufBytes (a + m) n := by
  unfold State.obufBytes
  rw [← List.map_append]
  congr 1
  simp

theorem Packed.refl {s : State} (h : s.PackerOk) : Packed s s [] := by
  have : s.bytesDone [] = 0 := by unfold State.bytesDone; have := h.1; simp; omega
  refine ⟨by rw [this]; rfl, ?_, h, fun a _ => rfl⟩
  rw [this]
  simp [State.obufBytes]

/-- The number of pending bits after an append. -/
theorem Packed.accN {s t : State} {bs : Bits} (h : Packed s t bs) :
    t.accN.toNat + 8 * s.bytesDone bs = s.accN.toNat + bs.length := by
  have := congrArg List.length h.2.1
  simp only [List.length_append, unpackBytes_length, obufBytes_length, pendingBits_length] at this
  omega

theorem Packed.bytesDone {s t : State} {bs : Bits} (h : Packed s t bs) (cs : Bits) :
    s.bytesDone (bs ++ cs) = s.bytesDone bs + t.bytesDone cs := by
  have h1 := h.accN
  have h2 := h.2.2.1.1
  unfold State.bytesDone at *
  simp only [List.length_append]
  omega

/-- Two appends in a row are one append. -/
theorem Packed.trans {s t u : State} {bs cs : Bits} (h : Packed s t bs) (k : Packed t u cs) :
    Packed s u (bs ++ cs) := by
  have hb := h.bytesDone cs
  obtain ⟨h1, h2, -, h4⟩ := h
  obtain ⟨k1, k2, k3, k4⟩ := k
  refine ⟨by rw [hb, k1, h1]; omega, ?_, k3, fun a ha => ?_⟩
  · rw [hb, obufBytes_add, unpackBytes_append, ← h1, List.append_assoc, k2]
    rw [obufBytes_congr fun x _ hx => k4 x (.inl (by omega)), ← List.append_assoc, h2, List.append_assoc]
  · rw [k4 a (by omega), h4 a (by omega)]

theorem SameButPacker.params {s t : State} (h : SameButPacker s t) : t.params = s.params := by rw [h.eq]

theorem Room.head {s : State} {v : Bool} {rest : Bits} (h : s.Room (v :: rest)) : s.Room [v] := by
  unfold State.Room State.bytesDone at *
  simp only [List.length_cons, List.length_nil] at *
  omega

theorem Room.append_iff {s t : State} {bs cs : Bits} (hp : Packed s t bs) (hf : SameButPacker s t) (hr : s.Room bs) :
    s.Room (bs ++ cs) ↔ t.Room cs := by
  have h1 := hp.bytesDone cs
  have h2 := hp.1
  have h3 := hf.params
  unfold State.Room at *
  rw [h1, h2, h3]
  omega

theorem obufByte_set {s t : State} {a : Nat} {v : Byte} (h : t.obuf = s.obuf.set a v) (x : Nat) :
    t.obufByte x = if x = a then v else s.obufByte x := by
  unfold State.obufByte
  rw [h, Memory.get_set]

/-- append_bit (R87): with room, the bit is appended. -/
theorem appendBit_ok {s : State} (hp : s.PackerOk) {v : Bool} (hr : s.Room [v]) :
    ∃ t, appendBit v s = .ok t ∧ Packed s t [v] := by
  obtain ⟨hn, ha⟩ := hp
  have hor : (s.acc <<< 1 ||| (BitVec.ofBool v).setWidth 8).toNat = 2 * s.acc.toNat + v.toNat := by
    have h8 : s.acc.toNat < 2 ^ 7 :=
      Nat.lt_of_lt_of_le ha (Nat.pow_le_pow_right (by omega) (by omega))
    have hs : (s.acc <<< 1).toNat = 2 ^ 1 * s.acc.toNat := by
      rw [BitVec.toNat_shiftLeft, Nat.shiftLeft_eq, Nat.mod_eq_of_lt (by omega)]
      ring
    rw [BitVec.toNat_or, hs, ← Nat.two_pow_add_eq_or_of_lt (by cases v <;> decide)]
    cases v <;> simp
  have hacc : ∀ n, n = s.accN.toNat + 1 →
      bitsMsb (s.acc <<< 1 ||| (BitVec.ofBool v).setWidth 8).toNat n = s.pendingBits ++ [v] := by
    rintro n rfl
    rw [hor, bitsMsb_snoc]
    rfl
  have hN : (s.accN + 1).toNat = s.accN.toNat + 1 := by
    rw [BitVec.toNat_add]
    exact Nat.mod_eq_of_lt (by have : (1 : BitVec 4).toNat = 1 := by decide
                               omega)
  unfold appendBit
  by_cases h8 : s.accN + 1 = 8
  · have h7 : s.accN.toNat = 7 := by
      have := congrArg BitVec.toNat h8
      rw [hN] at this
      simpa using this
    have hd : s.bytesDone [v] = 1 := by unfold State.bytesDone; simp [h7]
    have hroom : s.optr.toNat + 1 ≤ s.params.obufSize := by
      unfold State.Room at hr; rw [hd] at hr; omega
    have hopt : (s.optr + 1).toNat = s.optr.toNat + 1 := by
      rw [BitVec.toNat_add]
      have := s.params.obuf_le
      exact Nat.mod_eq_of_lt (by have : (1 : Word).toNat = 1 := by decide
                                 omega)
    have hno : ¬ s.params.obufSize ≤ s.optr.toNat := by omega
    simp only [h8, if_true, raiseIf, if_neg hno]
    refine ⟨_, rfl, ?_, ?_, ⟨by show (0 : BitVec 4).toNat < 8; decide, by show (0 : BitVec 8).toNat < 2 ^ (0 : BitVec 4).toNat; decide⟩, fun a hx => ?_⟩
    · rw [hd]; exact hopt
    · rw [hd]
      have hb := hacc 8 (by omega)
      simp only [State.obufBytes, List.range'_one, List.map_cons, List.map_nil, unpackBytes_cons, unpackBytes_nil,
        List.append_nil]
      rw [obufByte_set (s := s) (a := s.optr.toNat) rfl, if_pos rfl]
      refine Eq.trans ?_ hb
      show _ ++ bitsMsb 0 0 = _
      rw [bitsMsb, List.append_nil]
    · rw [hd] at hx
      rw [obufByte_set (s := s) (a := s.optr.toNat) rfl, if_neg (by omega)]
  · have hlt : s.accN.toNat + 1 < 8 := by
      have : s.accN.toNat ≠ 7 := fun e => h8 (BitVec.eq_of_toNat_eq (by rw [hN, e]; rfl))
      omega
    have hd : s.bytesDone [v] = 0 := by unfold State.bytesDone; simp; omega
    simp only [if_neg h8]
    refine ⟨_, rfl, ?_, ?_, ⟨?_, ?_⟩, fun a _ => rfl⟩
    · rw [hd]; rfl
    · rw [hd]
      simp only [State.obufBytes, List.range'_zero, List.map_nil, unpackBytes_nil, List.nil_append]
      exact hacc _ hN
    · show (s.accN + 1).toNat < 8
      rw [hN]; exact hlt
    · show (s.acc <<< 1 ||| _).toNat < 2 ^ (s.accN + 1).toNat
      rw [hor, hN, Nat.pow_succ]
      cases v <;> simp <;> omega

/-- append_bits (R88): with room for the bytes it completes, all the bits are appended. -/
theorem appendBits_ok {bs : Bits} {s : State} (hp : s.PackerOk) (hr : s.Room bs) :
    ∃ t, appendBits bs s = .ok t ∧ SameButPacker s t ∧ Packed s t bs := by
  induction bs generalizing s with
  | nil => exact ⟨s, rfl, rfl, .refl hp⟩
  | cons v rest ih =>
    obtain ⟨u, hu, hpu⟩ := appendBit_ok hp (Room.head hr)
    have hfu := appendBit_frame hu
    obtain ⟨t, ht, hft, hpt⟩ := ih hpu.2.2.1
      ((Room.append_iff (cs := rest) hpu hfu (Room.head hr)).1 hr)
    refine ⟨t, ?_, hfu.trans hft, hpu.trans hpt⟩
    unfold appendBits
    rw [hu]
    exact ht

/-- append_bit at the end of OBUF (R87): a byte completed at OPTR ≥ OBUF_SIZE raises OBUF_OVERFLOW(OPTR). -/
theorem appendBit_overflow {s : State} (hp : s.PackerOk) {v : Bool} (hr : ¬ s.Room [v]) :
    appendBit v s = raise .obufOverflow s.optr ∧ s.params.obufSize ≤ s.optr.toNat := by
  have hn := hp.1
  have h7 : s.accN.toNat = 7 := by
    unfold State.Room State.bytesDone at hr; simp at hr; omega
  have hge : s.params.obufSize ≤ s.optr.toNat := by
    unfold State.Room State.bytesDone at hr; simp [h7] at hr; omega
  have h8 : s.accN + 1 = 8 := BitVec.eq_of_toNat_eq (by rw [BitVec.toNat_add, h7]; rfl)
  unfold appendBit
  simp only [h8, if_true, raiseIf, if_pos hge]
  exact ⟨rfl, hge⟩

/-- append_bits without room raises OBUF_OVERFLOW at the first byte that does not fit (R87, R122). -/
theorem appendBits_overflow {bs : Bits} {s : State} (hp : s.PackerOk) (hr : ¬ s.Room bs) :
    appendBits bs s = raise .obufOverflow (BitVec.ofNat 32 (max s.optr.toNat s.params.obufSize)) := by
  induction bs generalizing s with
  | nil => exact absurd (.inl (by unfold State.bytesDone; have := hp.1; simp; omega)) hr
  | cons v rest ih =>
    unfold appendBits
    by_cases hv : s.Room [v]
    · obtain ⟨u, hu, hpu⟩ := appendBit_ok hp hv
      have hfu := appendBit_frame hu
      have hru : ¬ u.Room rest := fun h => hr ((Room.append_iff (cs := rest) hpu hfu hv).2 h)
      rw [hu]
      refine (ih hpu.2.2.1 hru).trans ?_
      rw [hfu.params, hpu.1]
      congr 2
      unfold State.Room at hv
      rcases hv with hv | hv <;> omega
    · obtain ⟨h1, h2⟩ := appendBit_overflow hp hv
      rw [h1, Nat.max_eq_left h2]
      simp [raise]
      rfl

/-- flush (R89): zero bits up to the next byte boundary. -/
theorem flush_eq {s : State} : flush s = appendBits (zeros ((8 - s.accN.toNat) % 8)) s ∨ 8 ≤ s.accN.toNat := by
  by_cases h8 : 8 ≤ s.accN.toNat
  · exact .inr h8
  left
  unfold flush
  split
  · rename_i h
    have : s.accN.toNat ≠ 0 := fun e => h (BitVec.eq_of_toNat_eq e)
    rw [Nat.mod_eq_of_lt (by omega)]
  · rename_i h
    have : s.accN.toNat = 0 := by simpa using congrArg BitVec.toNat (not_not.1 h)
    rw [this]
    rfl

theorem packerOk_zero {s : State} (ha : s.acc = 0) (hn : s.accN = 0) : s.PackerOk := by
  unfold State.PackerOk
  rw [ha, hn]
  decide

end Sys2Proof.Machine
end

