-- ==== Sys2Proof/Laws/Walker.lean ====
section
/-! SUPPORT. The code table generator (R80 to R84): the walk writes the path of every leaf, and GEN's table is exactly
the tree's. -/

namespace Sys2Proof.Machine

open Sys2Proof Config

/-! ### Tables -/

theorem lookup_eq_some {l : List (Byte × Bits)} (h : (l.map Prod.fst).Nodup) (b : Byte) (c : Bits) :
    l.lookup b = some c ↔ (b, c) ∈ l := by
  induction l with
  | nil => simp
  | cons e rest ih =>
    obtain ⟨x, d⟩ := e
    rw [List.map_cons, List.nodup_cons] at h
    by_cases hb : b = x
    · subst hb
      have hn : (b, c) ∉ rest := fun hm => h.1 (List.mem_map.2 ⟨_, hm, rfl⟩)
      simp [hn, eq_comm]
    · have : (b == x) = false := by simpa using hb
      rw [List.lookup_cons, this, List.mem_cons]
      simp [ih h.2, hb]

theorem lookup_eq_none {l : List (Byte × Bits)} (b : Byte) : l.lookup b = none ↔ b ∉ l.map Prod.fst := by
  rw [List.lookup_eq_none_iff]
  simp only [List.mem_map, not_exists, not_and]
  constructor
  · intro h e he hb
    have := h e he
    simp [hb] at this
  · intro h e he
    have := h e he
    simpa using fun hb : b = e.1 => this hb.symm

/-- A table CTAB holds is its valid entries, in another order. -/
theorem State.TableIs.perm {s : State} {t : List (Byte × Bits)} (h : s.TableIs t) (hd : (t.map Prod.fst).Nodup) :
    (validCodes s.ctab).Perm t := by
  refine (List.perm_ext_iff_of_nodup (List.Nodup.of_map _ (validCodes_nodup _)) (List.Nodup.of_map _ hd)).2 fun e => ?_
  obtain ⟨b, c⟩ := e
  rw [mem_validCodes, ← lookup_eq_some hd]
  have := h b
  unfold codeIn State.ctabAt at this
  rw [this]
  cases List.lookup b t with
  | none => simp [CodeEntry.invalid]
  | some d => simp

/-- CTAB always holds its valid entries, where invalid entries have no code. -/
theorem tableIs_validCodes {s : State} (h : ∀ b, (s.ctabAt b).valid = false → (s.ctabAt b).code = []) :
    s.TableIs (validCodes s.ctab) := by
  intro b
  unfold codeIn
  cases hl : List.lookup b (validCodes s.ctab) with
  | some c =>
    rw [lookup_eq_some (validCodes_nodup _), mem_validCodes] at hl
    exact hl
  | none =>
    rw [lookup_eq_none] at hl
    have hv : (s.ctabAt b).valid = false := by
      cases hv : (s.ctabAt b).valid with
      | false => rfl
      | true =>
        refine absurd (List.mem_map.2 ⟨(b, (s.ctabAt b).code), mem_validCodes.2 ?_, rfl⟩) hl
        rw [← hv]
        rfl
    have hc := h b hv
    show s.ctabAt b = CodeEntry.invalid
    cases he : s.ctabAt b with
    | mk v c => rw [he] at hv hc; cases hv; cases hc; rfl

/-- Two states with the same table have the same CTAB. -/
theorem State.TableIs.ctab_eq {s u : State} {t t' : List (Byte × Bits)} (h : s.TableIs t) (k : u.TableIs t')
    (he : ∀ b, codeIn t b = codeIn t' b) : u.ctab = s.ctab :=
  ctab_ext fun b => (k b).trans ((he b) ▸ (h b).symm)

/-- Writing a list of codes. -/
def State.setCodes (s : State) (l : List (Byte × Bits)) : State := l.foldl (fun s e => s.setCode e.1 e.2) s

theorem setCodes_frame (s : State) (l : List (Byte × Bits)) : s.setCodes l = { s with ctab := (s.setCodes l).ctab } := by
  induction l generalizing s with
  | nil => rfl
  | cons e rest ih => exact ih (s.setCode e.1 e.2)

theorem ctabAt_setCodes {l : List (Byte × Bits)} (hd : (l.map Prod.fst).Nodup) (hl : ∀ e ∈ l, e.2.length ≤ maxCodeLen)
    (s : State) (b : Byte) :
    (s.setCodes l).ctabAt b = match codeIn l b with | some c => ⟨true, c⟩ | none => s.ctabAt b := by
  induction l generalizing s with
  | nil => rfl
  | cons e rest ih =>
    obtain ⟨x, c⟩ := e
    rw [List.map_cons, List.nodup_cons] at hd
    have := ih hd.2 (fun e he => hl e (List.mem_cons_of_mem _ he)) (s.setCode x c)
    rw [State.setCodes, List.foldl_cons]
    refine this.trans ?_
    unfold codeIn
    rw [ctabAt_setCode, List.take_of_length_le (hl _ List.mem_cons_self), List.lookup_cons]
    by_cases hb : b = x
    · subst hb
      rw [(lookup_eq_none b).2 hd.1]
      simp
    · have hbe : (b == x) = false := by simpa using hb
      rw [hbe]
      simp [hb]

/-- On a cleared table the codes written are the table. -/
theorem tableIs_setCodes {l : List (Byte × Bits)} (hd : (l.map Prod.fst).Nodup) (hl : ∀ e ∈ l, e.2.length ≤ maxCodeLen)
    (s : State) : (s.clearTable.setCodes l).TableIs l := fun b => by
  rw [ctabAt_setCodes hd hl]
  cases codeIn l b <;> simp

/-! ### The walk (R80) -/

theorem setCodes_wstack (u : State) (w : List (NodeIdx × Bits)) (l : List (Byte × Bits)) :
    State.setCodes { u with wstack := w } l = { u.setCodes l with wstack := w } := by
  induction l generalizing u with
  | nil => rfl
  | cons e l ih => exact ih (u.setCode e.1 e.2)

/-- The walk over a stack of represented subtrees, with a visit for each node: it writes the codes of their leaves. -/
theorem walkStack_spec (n : Nat) (ts : List (NodeIdx × Bits × Tree)) (s : State)
    (hw : s.wstack = ts.map fun x => (x.1, x.2.1)) (hr : ∀ x ∈ ts, s.Represents x.1 x.2.2)
    (hn : (ts.map fun x => x.2.2.size).sum ≤ n) :
    walkStack n s = { s.setCodes (ts.flatMap fun x => x.2.2.codes x.2.1) with wstack := [] } := by
  induction n generalizing ts s with
  | zero =>
    cases ts with
    | nil => rw [← show s.wstack = [] from hw]; rfl
    | cons x rest =>
      exfalso
      rw [List.map_cons, List.sum_cons] at hn
      have : 1 ≤ x.2.2.size := by cases x.2.2 <;> simp [Tree.size]; omega
      omega
  | succ n ih =>
    unfold walkStack
    cases ts with
    | nil =>
      rw [show s.wstack = [] from hw]
      show s = { s with wstack := [] }
      rw [← show s.wstack = [] from hw]
    | cons x rest =>
      obtain ⟨i, p, t⟩ := x
      rw [List.map_cons] at hw
      rw [hw]
      have ht : s.Represents i t := hr _ List.mem_cons_self
      cases t with
      | leaf b =>
        obtain ⟨hk, hs⟩ := ht
        simp only [hk, hs]
        refine (ih rest _ rfl (fun x hx => ?_) ?_).trans ?_
        · refine Represents.of_node (s := s) ?_ (hr x (List.mem_cons_of_mem _ hx))
          rfl
        · simp only [List.map_cons, List.sum_cons, Tree.size] at hn; omega
        · simp only [List.flatMap_cons, Tree.codes, List.singleton_append]
          have hx : State.setCode { s with wstack := rest.map fun x => (x.1, x.2.1) } b p =
              { s.setCode b p with wstack := rest.map fun x => (x.1, x.2.1) } := rfl
          rw [hx, setCodes_wstack]
          rfl
      | fork l r =>
        obtain ⟨hk, hl, hrr⟩ := ht
        simp only [hk]
        refine (ih (((s.nodeAt i).left, p ++ [false], l) :: ((s.nodeAt i).right, p ++ [true], r) :: rest) _ rfl
          (fun x hx => ?_) ?_).trans ?_
        · refine Represents.of_node (s := s) ?_ ?_
          · rfl
          rcases List.mem_cons.1 hx with rfl | hx
          · exact hl
          · rcases List.mem_cons.1 hx with rfl | hx
            · exact hrr
            · exact hr x (List.mem_cons_of_mem _ hx)
        · simp only [List.map_cons, List.sum_cons, Tree.size] at hn ⊢; omega
        · rw [setCodes_wstack]
          simp only [List.flatMap_cons, Tree.codes, List.append_assoc]

/-- The walk (R80) from the root of a tree of at most 511 nodes. -/
theorem walk_spec {s : State} {i : NodeIdx} {t : Tree} (hr : s.Represents i t) (hn : t.size ≤ maxVisits) :
    walk i s = { s.setCodes (t.codes []) with wstack := [] } := by
  unfold walk
  have hw := walkStack_spec maxVisits [(i, [], t)] { s with wstack := [(i, [])] } rfl
    (fun x hx => by
      rw [List.mem_singleton.1 hx]
      refine Represents.of_node (s := s) ?_ hr
      rfl)
    (by simpa using hn)
  rw [hw, setCodes_wstack]
  simp

/-! ### GEN (R81) -/

theorem Tree.table_fst (t : Tree) : t.table.map Prod.fst = t.leaves := by
  cases t with
  | leaf b => rfl
  | fork l r => exact Tree.codes_fst _ _

theorem Tree.table_length {t : Tree} {e : Byte × Bits} (h : e ∈ t.table) :
    1 ≤ e.2.length ∧ (e.2.length + 1 ≤ t.leaves.length ∨ e.2.length = 1) := by
  cases t with
  | leaf b => simp [Tree.table] at h; simp [h]
  | fork l r =>
    have h2 := Tree.codes_length h
    refine ⟨?_, .inl (by simpa using h2)⟩
    rcases List.mem_append.1 h with h | h
    · exact (Tree.codes_prefix h).length_le.trans' (by simp)
    · exact (Tree.codes_prefix h).length_le.trans' (by simp)

theorem Tree.table_prefixFree (t : Tree) : PrefixFree t.table := by
  cases t with
  | leaf b => simp [Tree.table, PrefixFree]
  | fork l r => exact Tree.codes_prefixFree _ _

/-- Everything GEN does on a tree (R81, R82). -/
theorem gen_spec {s : State} (hv : s.treeValid = true) {t : Tree} (hn : s.root ≠ nilIdx) (hr : s.Represents s.root t)
    (hd : t.leaves.Nodup) :
    ∃ u, bodyGen s = .ok u ∧
      u = { s with ctab := u.ctab, symcount := u.symcount, wstack := u.wstack, tableValid := true } ∧
      (s.wstack = [] → u.wstack = []) ∧ u.TableIs t.table ∧ (validCodes u.ctab).Perm t.table ∧
      u.symcount.toNat = t.leaves.length := by
  have h256 := nodup_bytes_length hd
  have hnd : (t.table.map Prod.fst).Nodup := by rw [Tree.table_fst]; exact hd
  have hlen : ∀ e ∈ t.table, e.2.length ≤ maxCodeLen := fun e he => by
    have := Tree.table_length he
    unfold maxCodeLen
    omega
  have hg : raiseIf (s.treeValid = false) .noTree 0 = .ok () := by
    unfold raiseIf; rw [if_neg (by simp [hv])]
  have key : ∃ u, genTable s = u ∧ u = { s with ctab := u.ctab, symcount := u.symcount, wstack := u.wstack } ∧
      (s.wstack = [] → u.wstack = []) ∧ u.ctab = (s.clearTable.setCodes t.table).ctab ∧
      u.symcount.toNat = t.leaves.length := by
    refine ⟨_, rfl, ?_⟩
    unfold genTable
    dsimp only
    rw [if_neg (by exact hn)]
    cases t with
    | leaf b =>
      obtain ⟨hk, hs⟩ := hr
      have hk' : (s.clearTable.nodeAt s.clearTable.root).kind = .leaf := hk
      have hs' : (s.clearTable.nodeAt s.clearTable.root).sym = b := hs
      rw [hk', hs']
      exact ⟨rfl, fun h => h, rfl, rfl⟩
    | fork l r =>
      have hk' : (s.clearTable.nodeAt s.clearTable.root).kind = .internal := hr.1
      rw [hk']
      dsimp only
      have hrep : s.clearTable.Represents s.root (.fork l r) := by
        refine Represents.of_node (s := s) ?_ hr
        rfl
      have hwalk := walk_spec hrep (by have := Tree.size_eq (.fork l r); unfold maxVisits; omega)
      rw [show s.clearTable.root = s.root from rfl]
      rw [hwalk]
      have hperm := (tableIs_setCodes hnd hlen s).perm hnd
      refine ⟨?_, fun _ => rfl, rfl, ?_⟩
      · dsimp only
        rw [setCodes_frame]
        rfl
      · show (BitVec.ofNat 9 (validCodes (s.clearTable.setCodes (Tree.fork l r).table).ctab).length).toNat = _
        rw [BitVec.toNat_ofNat]
        have := hperm.length_eq
        have h3 : (Tree.fork l r).table.length = (Tree.fork l r).leaves.length := by
          rw [← Tree.table_fst, List.length_map]
        rw [this, h3]
        exact Nat.mod_eq_of_lt (by omega)
  obtain ⟨u, hu, hf, hws, hct, hsy⟩ := key
  refine ⟨{ u with tableValid := true }, ?_, ?_, hws, ?_, ?_, hsy⟩
  · unfold bodyGen
    rw [hg, hu]
    rfl
  · dsimp only
    rw [hf]
  · intro b
    have := tableIs_setCodes hnd hlen s b
    rw [← this]
    exact ctabAt_of_eq hct b
  · show (validCodes u.ctab).Perm _
    rw [hct]
    exact (tableIs_setCodes hnd hlen s).perm hnd

/-- GEN on the empty tree (R81): the empty table. -/
theorem gen_empty {s : State} (hv : s.treeValid = true) (hn : s.root = nilIdx) :
    bodyGen s = .ok { s.clearTable with symcount := 0, tableValid := true } := by
  have hg : raiseIf (s.treeValid = false) .noTree 0 = .ok () := by
    unfold raiseIf; rw [if_neg (by simp [hv])]
  unfold bodyGen genTable
  rw [hg]
  dsimp only
  rw [if_pos (show s.clearTable.root = nilIdx from hn)]
  rfl

/-- GEN without a tree (R81): NO_TREE. -/
theorem gen_noTree {s : State} (hv : s.treeValid = false) : bodyGen s = raise .noTree 0 := by
  unfold bodyGen raiseIf
  rw [if_pos hv]
  rfl

end Sys2Proof.Machine
end

