-- ==== Sys2Proof/Laws/Container.lean ====
section
/-! SUPPORT. Containers: PSYM's and THDR's bit streams, what PARSE makes of a header (R103, R104), and the decode walk
(R105 to R107). -/

namespace Sys2Proof.Machine

open Sys2Proof Config

/-! ### Raises -/

theorem raiseIf_pos {c : Prop} [Decidable c] (h : c) (e : ErrorCode) (info : Word) : raiseIf c e info = raise e info :=
  if_pos h

theorem raiseIf_neg {c : Prop} [Decidable c] (h : ¬ c) (e : ErrorCode) (info : Word) : raiseIf c e info = .ok () :=
  if_neg h

theorem ok_bind {α β : Type} (a : α) (f : α → Except Raise β) : (Except.ok a >>= f) = f a := rfl

theorem raise_bind {α β : Type} (e : ErrorCode) (info : Word) (f : α → Except Raise β) :
    (raise e info >>= f) = raise e info := rfl

/-! ### PSYM (R92) -/

/-- The packer never writes IBUF or CTAB. -/
theorem SameButPacker.ibufByte {s t : State} (h : SameButPacker s t) (a : Nat) : t.ibufByte a = s.ibufByte a := by
  rw [h.eq]; rfl

theorem SameButPacker.ctabAt {s t : State} (h : SameButPacker s t) (b : Byte) : t.ctabAt b = s.ctabAt b := by
  rw [h.eq]; rfl

theorem payload_cons (code : Byte → Bits) (b : Byte) (bs : List Byte) :
    payload code (b :: bs) = code b ++ payload code bs := by
  simp [payload]

theorem packFrom_frame {a n : Nat} {s t : State} (h : packFrom a n s = .ok t) : SameButPacker s t := by
  induction n generalizing a s with
  | zero => cases h; rfl
  | succ n ih =>
    unfold packFrom raiseIf raise at h
    dsimp only at h
    split at h
    · cases h
    · cases hu : appendBits (s.ctabAt (s.ibufByte a)).code s with
      | error e => erw [hu] at h; cases h
      | ok u => erw [hu] at h; exact (appendBits_frame hu).trans (ih h)

/-- PSYM's loop with a code for every byte and room for the payload (R92). -/
theorem packFrom_ok {n : Nat} {a : Nat} {s : State} (hp : s.PackerOk)
    (hv : ∀ b ∈ s.ibufBytes a n, (s.ctabAt b).valid = true) (hr : s.Room (payload s.codeOf (s.ibufBytes a n))) :
    ∃ t, packFrom a n s = .ok t ∧ SameButPacker s t ∧ Packed s t (payload s.codeOf (s.ibufBytes a n)) := by
  induction n generalizing a s with
  | zero => exact ⟨s, rfl, rfl, .refl hp⟩
  | succ n ih =>
    rw [ibufBytes_succ, payload_cons] at hr ⊢
    rw [ibufBytes_succ] at hv
    have hr1 : s.Room (s.codeOf (s.ibufByte a)) := by
      unfold State.Room State.bytesDone at *
      simp only [List.length_append] at hr
      omega
    obtain ⟨u, hu, hfu, hpu⟩ := appendBits_ok hp hr1
    have hc : u.codeOf = s.codeOf := funext fun b => by unfold State.codeOf; rw [hfu.ctabAt]
    have hb : u.ibufBytes (a + 1) n = s.ibufBytes (a + 1) n := by
      unfold State.ibufBytes
      exact List.map_congr_left fun x _ => hfu.ibufByte x
    obtain ⟨t, ht, hft, hpt⟩ := ih (a := a + 1) hpu.2.2.1
      (fun b hb' => by rw [hfu.ctabAt]; rw [hb] at hb'; exact hv b (List.mem_cons_of_mem _ hb'))
      (by rw [hc, hb]; exact (Room.append_iff hpu hfu hr1).1 hr)
    rw [hc, hb] at hpt
    refine ⟨t, ?_, hfu.trans hft, hpu.trans hpt⟩
    unfold packFrom
    dsimp only
    rw [raiseIf_neg (by rw [hv _ List.mem_cons_self]; simp)]
    show (appendBits (s.codeOf (s.ibufByte a)) s >>= packFrom (a + 1) n) = _
    rw [hu]
    exact ht

/-- PSYM's loop at the first byte without a code (R92): TABLE_MISS with its address. -/
theorem packFrom_miss {n m : Nat} {a : Nat} {s : State} (hp : s.PackerOk)
    (hv : ∀ b ∈ s.ibufBytes a n, (s.ctabAt b).valid = true) (hr : s.Room (payload s.codeOf (s.ibufBytes a n)))
    (hm : (s.ctabAt (s.ibufByte (a + n))).valid = false) :
    packFrom a (n + m + 1) s = raise .tableMiss (BitVec.ofNat 32 (a + n)) := by
  induction n generalizing a s with
  | zero =>
    rw [Nat.zero_add]
    unfold packFrom
    dsimp only
    rw [raiseIf_pos (by simpa using hm)]
    rfl
  | succ n ih =>
    rw [ibufBytes_succ, payload_cons] at hr
    rw [ibufBytes_succ] at hv
    have hr1 : s.Room (s.codeOf (s.ibufByte a)) := by
      unfold State.Room State.bytesDone at *
      simp only [List.length_append] at hr
      omega
    obtain ⟨u, hu, hfu, hpu⟩ := appendBits_ok hp hr1
    have hc : u.codeOf = s.codeOf := funext fun b => by unfold State.codeOf; rw [hfu.ctabAt]
    have hb : u.ibufBytes (a + 1) n = s.ibufBytes (a + 1) n := by
      unfold State.ibufBytes
      exact List.map_congr_left fun x _ => hfu.ibufByte x
    have := ih (a := a + 1) hpu.2.2.1
      (fun b hb' => by rw [hfu.ctabAt]; rw [hb] at hb'; exact hv b (List.mem_cons_of_mem _ hb'))
      (by rw [hc, hb]; exact (Room.append_iff hpu hfu hr1).1 hr)
      (by rw [hfu.ctabAt, hfu.ibufByte, show a + 1 + n = a + (n + 1) by omega]; exact hm)
    rw [show n + 1 + m + 1 = (n + m + 1) + 1 by omega]
    unfold packFrom
    dsimp only
    rw [raiseIf_neg (by rw [hv _ List.mem_cons_self]; simp)]
    show (appendBits (s.codeOf (s.ibufByte a)) s >>= packFrom (a + 1) (n + m + 1)) = _
    rw [hu]
    refine this.trans ?_
    rw [show a + 1 + n = a + (n + 1) by omega]

/-- PSYM's loop when the codes of the first n bytes do not fit (R92), whatever the m bytes after them. -/
theorem packFrom_overflow {n : Nat} (m : Nat) {a : Nat} {s : State} (hp : s.PackerOk)
    (hv : ∀ b ∈ s.ibufBytes a n, (s.ctabAt b).valid = true) (hr : ¬ s.Room (payload s.codeOf (s.ibufBytes a n))) :
    packFrom a (n + m) s = raise .obufOverflow (BitVec.ofNat 32 (max s.optr.toNat s.params.obufSize)) := by
  induction n generalizing a s with
  | zero => exact absurd (.inl (by unfold State.bytesDone; have := hp.1; simp [payload, State.ibufBytes]; omega)) hr
  | succ n ih =>
    rw [ibufBytes_succ, payload_cons] at hr
    rw [ibufBytes_succ] at hv
    rw [Nat.add_right_comm]
    unfold packFrom
    dsimp only
    rw [raiseIf_neg (by rw [hv _ List.mem_cons_self]; simp)]
    show (appendBits (s.codeOf (s.ibufByte a)) s >>= packFrom (a + 1) (n + m)) = _
    by_cases hr1 : s.Room (s.codeOf (s.ibufByte a))
    · obtain ⟨u, hu, hfu, hpu⟩ := appendBits_ok hp hr1
      have hc : u.codeOf = s.codeOf := funext fun b => by unfold State.codeOf; rw [hfu.ctabAt]
      have hb : u.ibufBytes (a + 1) n = s.ibufBytes (a + 1) n := by
        unfold State.ibufBytes
        exact List.map_congr_left fun x _ => hfu.ibufByte x
      have := ih (a := a + 1) hpu.2.2.1
        (fun b hb' => by rw [hfu.ctabAt]; rw [hb] at hb'; exact hv b (List.mem_cons_of_mem _ hb'))
        (by rw [hc, hb]; exact fun h => hr ((Room.append_iff hpu hfu hr1).2 h))
      rw [hu]
      refine this.trans ?_
      rw [hfu.params]
      congr 2
      have h1 := hpu.1
      unfold State.Room at hr1
      omega
    · rw [appendBits_overflow hp hr1]
      rfl

/-! ### Header streams -/

/-- The entry THDR writes: zero padding (R101). -/
def paddedEntry (e : Byte × Bits) : Entry :=
  { byte := e.1, code := e.2, pad := zeros (wholeBytes e.2.length - e.2.length) }

theorem headerBits_eq (table : List (Byte × Bits)) (n : Nat) :
    headerBits table n = headerStream (table.map paddedEntry) n := by
  unfold headerBits headerStream
  rw [List.length_map, List.flatMap_map]
  rfl

/-- THDR's bits are those of a header with the entries of the table (R100 to R102). -/
theorem headerBits_tableEntries (s : State) (n : Nat) :
    headerBits (validCodes s.ctab) n = headerStream s.tableEntries n := by
  have h : (validCodes s.ctab).map paddedEntry = s.tableEntries := by
    rw [validCodes_eq, List.map_filterMap]
    unfold State.tableEntries
    rw [← List.filterMap_eq_filter, List.map_filterMap]
    congr 1
    funext b
    unfold State.codeOf State.ctabAt
    split <;> simp_all [paddedEntry, wholeBytes]
  rw [headerBits_eq, h]

theorem entry_bits_length (e : Entry) (h : e.pad.length = wholeBytes e.code.length - e.code.length) :
    e.bits.length = 16 + wholeBytes e.code.length := by
  have := wholeBytes_ge e.code.length
  simp [Entry.bits, h]
  omega

/-! ### Reading an entry (R103) -/

theorem readCode_ok {bs rest : Bits} {s : State} (hu : s.UnpackerOk) (h : s.inputBits = bs ++ rest) (l : Nat) (c : Bits)
    (j : Nat) : ∃ t, readCode l c j bs.length s = .ok (c ++ bs.take (l - j), t) ∧ SameButUnpacker s t ∧ t.UnpackerOk ∧
      t.inputBits = rest := by
  induction bs generalizing s c j with
  | nil => exact ⟨s, by simp [readCode], rfl, hu, h⟩
  | cons v bs ih =>
    obtain ⟨u, hr, hf, huu, hin⟩ := readBit_ok hu (h.trans (List.cons_append ..))
    obtain ⟨t, ht, hft, hut, hint⟩ := ih huu hin (if j < l then c ++ [v] else c) (j + 1)
    refine ⟨t, ?_, hf.trans hft, hut, hint⟩
    rw [List.length_cons, readCode, hr]
    refine ht.trans ?_
    by_cases hj : j < l
    · rw [if_pos hj, show l - j = (l - (j + 1)) + 1 by omega, List.take_succ_cons]
      simp
    · rw [if_neg hj, show l - j = 0 by omega, show l - (j + 1) = 0 by omega]
      simp

theorem readCode_exhausted {m : Nat} {s : State} (hu : s.UnpackerOk) (h : s.inputBits.length < m) (l : Nat) (c : Bits)
    (j : Nat) : readCode l c j m s = .error s.iend := by
  induction m generalizing s c j with
  | zero => omega
  | succ m ih =>
    rw [readCode]
    cases hin : s.inputBits with
    | nil => rw [readBit_exhausted hu hin]; rfl
    | cons v rest =>
      obtain ⟨u, hr, hf, huu, hu'⟩ := readBit_ok hu hin
      rw [hr]
      refine (ih huu (by rw [hin, List.length_cons] at h; rw [hu']; omega) _ (j + 1)).trans ?_
      rw [hf.eq]

/-- read_bits (R96) on a stream that starts with the n bits of v. -/
theorem readBits_bits {s : State} (hu : s.UnpackerOk) {v n : Nat} (hv : v < 2 ^ n) {rest : Bits}
    (h : s.inputBits = bitsMsb v n ++ rest) :
    ∃ t, readBits n s = .ok (v, t) ∧ SameButUnpacker s t ∧ t.UnpackerOk ∧ t.inputBits = rest := by
  obtain ⟨t, ht, hf, hut, hin⟩ := readBits_ok hu (n := n) (by rw [h]; simp)
  rw [h, List.take_left' (by simp), natOfBits_bitsMsb, Nat.mod_eq_of_lt hv] at ht
  rw [h, List.drop_left' (by simp)] at hin
  exact ⟨t, ht, hf, hut, hin⟩

theorem SameButUnpacker.ctabAt {s t : State} (h : SameButUnpacker s t) (b : Byte) : t.ctabAt b = s.ctabAt b := by
  rw [h.eq]; rfl

theorem SameButUnpacker.setCode {s t : State} (h : SameButUnpacker s t) (b : Byte) (c : Bits) :
    SameButUnpacker (s.setCode b c) (t.setCode b c) := by
  rw [h.eq]; rfl

theorem inputBits_setCode (s : State) (b : Byte) (c : Bits) : (s.setCode b c).inputBits = s.inputBits := rfl

/-- PARSE on one entry (R103). -/
theorem parseEntry_ok {s : State} (hu : s.UnpackerOk) {cnt : Nat} {e : Entry} (he : GoodEntry cnt e) {rest : Bits}
    (h : s.inputBits = e.bits ++ rest) (hv : (s.ctabAt e.byte).valid = false) :
    ∃ t, parseEntry cnt s = .ok (t.setCode e.byte e.code) ∧ SameButUnpacker s t ∧ t.UnpackerOk ∧ t.inputBits = rest := by
  have hcl := he.codeLength
  have hge := wholeBytes_ge e.code.length
  unfold Entry.bits at h
  simp only [List.append_assoc] at h
  obtain ⟨s1, h1, f1, u1, i1⟩ := readBits_bits hu e.byte.isLt h
  obtain ⟨s2, h2, f2, u2, i2⟩ := readBits_bits u1 (n := 8) (by omega) i1
  rw [← List.append_assoc] at i2
  obtain ⟨s3, h3, f3, u3, i3⟩ := readCode_ok u2 i2 e.code.length [] 0
  have hlen : (e.code ++ e.pad).length = wholeBytes e.code.length := by
    rw [List.length_append, he.padLength]; omega
  rw [hlen, Nat.sub_zero, List.take_left' rfl, List.nil_append] at h3
  refine ⟨s3, ?_, f1.trans (f2.trans f3), u3, i3⟩
  unfold parseEntry orRaise
  rw [h1]
  simp only [bind, Except.bind, BitVec.ofNat_toNat, BitVec.setWidth_eq]
  rw [raiseIf_neg (by rw [f1.ctabAt, hv]; simp), h2]
  simp only
  rw [raiseIf_neg (by
    rintro ⟨ha, hb⟩
    exact hb (he.zeroLength (List.length_eq_zero_iff.1 ha))), h3]

/-- What PARSE read when it accepted an entry (R103). -/
theorem parseEntry_inv {s t : State} (hu : s.UnpackerOk) {cnt : Nat} (h : parseEntry cnt s = .ok t) :
    ∃ e u, GoodEntry cnt e ∧ s.inputBits = e.bits ++ u.inputBits ∧ (s.ctabAt e.byte).valid = false ∧
      t = u.setCode e.byte e.code ∧ SameButUnpacker s u ∧ u.UnpackerOk := by
  unfold parseEntry orRaise at h
  cases h1 : readBits 8 s with
  | error e => rw [h1] at h; cases h
  | ok x1 =>
    obtain ⟨b, s1⟩ := x1
    obtain ⟨hb, i1, f1, u1⟩ := readBits_inv hu h1
    rw [h1] at h
    simp only [bind, Except.bind] at h
    by_cases hv : (s1.ctabAt (BitVec.ofNat 8 b)).valid = true
    · rw [raiseIf_pos hv] at h; cases h
    rw [raiseIf_neg hv] at h
    cases h2 : readBits 8 s1 with
    | error e => rw [h2] at h; cases h
    | ok x2 =>
      obtain ⟨l, s2⟩ := x2
      obtain ⟨hl, i2, f2, u2⟩ := readBits_inv u1 h2
      rw [h2] at h
      simp only at h
      by_cases hz : l = 0 ∧ cnt ≠ 1
      · rw [raiseIf_pos hz] at h; cases h
      rw [raiseIf_neg hz] at h
      by_cases hlen : wholeBytes l ≤ s2.inputBits.length
      · have hsplit := (List.take_append_drop (wholeBytes l) s2.inputBits).symm
        obtain ⟨s3, h3, f3, u3, i3⟩ := readCode_ok u2 hsplit l [] 0
        have htl : (s2.inputBits.take (wholeBytes l)).length = wholeBytes l := by simp [hlen]
        rw [htl] at h3
        rw [h3] at h
        simp only [List.nil_append, Nat.sub_zero] at h
        have hge := wholeBytes_ge l
        have hbt : (BitVec.ofNat 8 b).toNat = b := by rw [BitVec.toNat_ofNat]; exact Nat.mod_eq_of_lt hb
        have hcl : ((s2.inputBits.take (wholeBytes l)).take l).length = l := by simp; omega
        refine ⟨⟨BitVec.ofNat 8 b, (s2.inputBits.take (wholeBytes l)).take l,
          (s2.inputBits.take (wholeBytes l)).drop l⟩, s3, ⟨?_, ?_, ?_⟩, ?_, ?_, (Except.ok.inj h).symm,
          f1.trans (f2.trans f3), u3⟩
        · rw [hcl]; omega
        · rw [hcl]; simp [htl]
        · intro hc
          have := congrArg List.length hc
          rw [hcl, List.length_nil] at this
          by_contra hne
          exact hz ⟨this, hne⟩
        · unfold Entry.bits
          simp only [hcl, hbt, List.append_assoc]
          rw [i1, i2, hsplit, i3, ← List.append_assoc (List.take l _), List.take_append_drop]
          simp
        · rw [← f1.ctabAt]; simpa using hv
      · rw [readCode_exhausted u2 (by omega)] at h
        cases h

/-! ### The loop over the entries -/

/-- The codes of a list of entries, written in order. -/
def State.loadEntries (s : State) (es : List Entry) : State := es.foldl (fun s e => s.setCode e.byte e.code) s

theorem loadEntries_eq (s : State) (es : List Entry) : s.loadEntries es = s.setCodes (tableOf es) := by
  unfold State.loadEntries State.setCodes tableOf
  rw [List.foldl_map]

theorem loadEntries_frame (s : State) (es : List Entry) :
    s.loadEntries es = { s with ctab := (s.loadEntries es).ctab } := by
  rw [loadEntries_eq]
  exact setCodes_frame s _

theorem SameButUnpacker.loadEntries {s t : State} (h : SameButUnpacker s t) (es : List Entry) :
    SameButUnpacker (s.loadEntries es) (t.loadEntries es) := by
  induction es generalizing s t with
  | nil => exact h
  | cons e rest ih => exact ih (h.setCode e.byte e.code)

/-- PARSE over entries, then whatever follows them (R103). -/
theorem parseEntries_append {cnt : Nat} {es : List Entry} {n : Nat} {s : State} {rest : Bits} (hu : s.UnpackerOk)
    (hg : ∀ e ∈ es, GoodEntry cnt e) (hd : (es.map Entry.byte).Nodup)
    (hv : ∀ e ∈ es, (s.ctabAt e.byte).valid = false) (h : s.inputBits = es.flatMap Entry.bits ++ rest) :
    ∃ t, parseEntries cnt (es.length + n) s = parseEntries cnt n t ∧ SameButUnpacker (s.loadEntries es) t ∧
      t.UnpackerOk ∧ t.inputBits = rest := by
  induction es generalizing s with
  | nil => exact ⟨s, by rw [List.length_nil, Nat.zero_add], rfl, hu, h⟩
  | cons e es ih =>
    rw [List.flatMap_cons, List.append_assoc] at h
    rw [List.map_cons, List.nodup_cons] at hd
    obtain ⟨u, hpe, hf, huu, hin⟩ := parseEntry_ok hu (hg e List.mem_cons_self) h (hv e List.mem_cons_self)
    obtain ⟨t, ht, hft, hut, hint⟩ := ih (s := u.setCode e.byte e.code) huu (fun x hx => hg x (List.mem_cons_of_mem _ hx))
      hd.2 (fun x hx => by
        rw [ctabAt_setCode, if_neg, hf.ctabAt]
        · exact hv x (List.mem_cons_of_mem _ hx)
        · intro hxe
          exact hd.1 (hxe ▸ List.mem_map.2 ⟨x, hx, rfl⟩)) hin
    refine ⟨t, ?_, ?_, hut, hint⟩
    · rw [List.length_cons, show es.length + 1 + n = (es.length + n) + 1 by omega, parseEntries, hpe]
      exact ht
    · exact ((hf.setCode e.byte e.code).loadEntries es).trans hft

/-- What PARSE read when it accepted the entries (R103). -/
theorem parseEntries_inv {cnt n : Nat} {s t : State} (hu : s.UnpackerOk) (h : parseEntries cnt n s = .ok t) :
    ∃ es, es.length = n ∧ (∀ e ∈ es, GoodEntry cnt e) ∧ (es.map Entry.byte).Nodup ∧
      (∀ e ∈ es, (s.ctabAt e.byte).valid = false) ∧ s.inputBits = es.flatMap Entry.bits ++ t.inputBits ∧
      SameButUnpacker (s.loadEntries es) t ∧ t.UnpackerOk := by
  induction n generalizing s with
  | zero =>
    obtain rfl := Except.ok.inj h
    exact ⟨[], rfl, by simp, List.nodup_nil, by simp, rfl, rfl, hu⟩
  | succ n ih =>
    rw [parseEntries] at h
    cases hp : parseEntry cnt s with
    | error e => rw [hp] at h; cases h
    | ok w =>
      rw [hp] at h
      obtain ⟨e, u, hg, hin, hve, rfl, hf, huu⟩ := parseEntry_inv hu hp
      obtain ⟨es, hl, hgs, hd, hv, hins, hfs, hut⟩ := ih (s := u.setCode e.byte e.code) huu h
      have hne : ∀ x ∈ es, x.byte ≠ e.byte := fun x hx hxe => by
        have := hv x hx
        rw [ctabAt_setCode, if_pos hxe] at this
        cases this
      refine ⟨e :: es, by rw [List.length_cons, hl], ?_, ?_, ?_, ?_, ?_, hut⟩
      · intro x hx
        rcases List.mem_cons.1 hx with rfl | hx
        · exact hg
        · exact hgs x hx
      · rw [List.map_cons, List.nodup_cons]
        refine ⟨fun hm => ?_, hd⟩
        obtain ⟨x, hx, hxe⟩ := List.mem_map.1 hm
        exact hne x hx hxe
      · intro x hx
        rcases List.mem_cons.1 hx with rfl | hx
        · exact hve
        · have := hv x hx
          rw [ctabAt_setCode, if_neg (hne x hx), hf.ctabAt] at this
          exact this
      · rw [List.flatMap_cons, List.append_assoc, hin, ← hins, inputBits_setCode]
      · exact ((hf.setCode e.byte e.code).loadEntries es).trans hfs

/-! ### check_prefix_free (R104) -/

theorem clash_false (c d : Bits) : clash c d = false ↔ ¬ c <+: d ∧ ¬ d <+: c := by
  unfold clash isPrefix
  rw [Bool.or_eq_false_iff, ← Bool.not_eq_true, ← Bool.not_eq_true, List.isPrefixOf_iff_prefix,
    List.isPrefixOf_iff_prefix]

theorem clash_true (c d : Bits) : clash c d = true ↔ c <+: d ∨ d <+: c := by
  rw [← not_iff_not, Bool.not_eq_true, clash_false, not_or]

/-- There is no offending pair exactly when the table is prefix-free. -/
theorem firstClash_none (l : List (Byte × Bits)) : firstClash l = none ↔ PrefixFree l := by
  induction l with
  | nil => simp [firstClash, PrefixFree]
  | cons e rest ih =>
    obtain ⟨b, c⟩ := e
    unfold PrefixFree at *
    rw [List.pairwise_cons, ← ih, firstClash]
    cases hf : rest.find? fun e => clash c e.2 with
    | some f =>
      simp only [reduceCtorEq, false_iff, not_and]
      intro hall
      have hm := List.mem_of_find?_eq_some hf
      have hc := List.find?_some hf
      have := (clash_false c f.2).2 (hall f hm)
      rw [this] at hc
      cases hc
    | none =>
      simp only
      rw [List.find?_eq_none] at hf
      constructor
      · exact fun h => ⟨fun f hm => (clash_false c f.2).1 (by simpa using hf f hm), h⟩
      · exact fun h => h.2

theorem checkPrefixFree_ok {s : State} (h : PrefixFree (validCodes s.ctab)) : checkPrefixFree s = .ok () := by
  unfold checkPrefixFree
  rw [(firstClash_none _).2 h]

theorem checkPrefixFree_inv {s : State} (h : checkPrefixFree s = .ok ()) : PrefixFree (validCodes s.ctab) := by
  unfold checkPrefixFree at h
  rw [← firstClash_none]
  cases hf : firstClash (validCodes s.ctab) with
  | none => rfl
  | some p => rw [hf] at h; cases h

/-! ### The whole header (R103) -/

/-- The state PARSE leaves after the header of entries `es` and length `orig`. -/
structure Parsed (s : State) (es : List Entry) (orig : Nat) (rest : Bits) (t : State) : Prop where
  frame : t = { s with iptr := t.iptr, ibit := t.ibit, ctab := t.ctab, origLen := BitVec.ofNat 32 orig
                       symcount := BitVec.ofNat 9 es.length, tableValid := true }
  table : t.TableIs (tableOf es)
  unpacker : t.UnpackerOk
  input : t.inputBits = rest

theorem LegalHeader.good {es : List Entry} {orig : Nat} (h : LegalHeader es orig) : ∀ e ∈ es, GoodEntry es.length e :=
  fun e he => ⟨h.codeLength e he, h.padLength e he, h.zeroLength e he⟩

theorem tableOf_fst (es : List Entry) : (tableOf es).map Prod.fst = es.map Entry.byte := by
  unfold tableOf
  rw [List.map_map]
  rfl

/-- The table after the entries of a cleared CTAB. -/
theorem tableIs_loaded {es : List Entry} (hd : (es.map Entry.byte).Nodup) (hl : ∀ e ∈ es, e.code.length ≤ 255) {s t : State}
    (h : SameButUnpacker (s.clearTable.loadEntries es) t) : t.TableIs (tableOf es) := by
  intro b
  rw [h.ctabAt, loadEntries_eq]
  refine tableIs_setCodes (by rw [tableOf_fst]; exact hd) (fun e he => ?_) s b
  obtain ⟨x, hx, rfl⟩ := List.mem_map.1 he
  exact hl x hx

/-- PARSE on a legal header (R103). -/
theorem parse_ok {s : State} (hu : s.UnpackerOk) {es : List Entry} {orig : Nat} {rest : Bits} (hl : LegalHeader es orig)
    (h : s.inputBits = headerStream es orig ++ rest) : ∃ t, bodyParse s = .ok t ∧ Parsed s es orig rest t := by
  have hcount := hl.count
  unfold headerStream at h
  simp only [List.append_assoc] at h
  obtain ⟨s1, h1, f1, u1, i1⟩ := readBits_bits (s := s.clearTable) hu (n := 16) (by omega) h
  obtain ⟨s2, h2, f2, u2, i2⟩ := parseEntries_append (n := 0) u1 hl.good hl.distinct
    (fun e _ => by rw [f1.ctabAt]; simp [CodeEntry.invalid]) i1
  have hf2 := (f1.loadEntries es).trans f2
  have ht2 := tableIs_loaded hl.distinct hl.codeLength hf2
  have hpf := hl.prefixFree.perm (ht2.perm (by rw [tableOf_fst]; exact hl.distinct)).symm
  obtain ⟨s3, h3, f3, u3, i3⟩ := readBits_bits u2 hl.length i2
  refine ⟨{ s3 with origLen := BitVec.ofNat 32 orig, symcount := BitVec.ofNat 9 es.length, tableValid := true }, ?_, ?_,
    ?_, u3, i3⟩
  · unfold bodyParse orRaise
    rw [h1]
    simp only [bind, Except.bind]
    rw [raiseIf_neg (by omega)]
    rw [Nat.add_zero] at h2
    rw [h2, parseEntries]
    simp only
    rw [checkPrefixFree_ok hpf, h3]
    simp only
    rw [raiseIf_neg (by
      rintro ⟨ha, hb⟩
      exact hb (hl.empty (List.length_eq_zero_iff.1 ha)))]
  · dsimp only
    rw [f3.eq, hf2.eq, loadEntries_frame]
    rfl
  · intro b
    exact (f3.ctabAt b).trans (ht2 b)

/-- What PARSE read when it succeeded: a legal header (R103, R104). -/
theorem parse_inv {s t : State} (hu : s.UnpackerOk) (h : bodyParse s = .ok t) :
    ∃ es orig, LegalHeader es orig ∧ s.inputBits = headerStream es orig ++ t.inputBits ∧ Parsed s es orig t.inputBits t := by
  unfold bodyParse orRaise at h
  cases h1 : readBits 16 s.clearTable with
  | error e => rw [h1] at h; cases h
  | ok x =>
    obtain ⟨cnt, s1⟩ := x
    obtain ⟨hc, i1, f1, u1⟩ := readBits_inv (s := s.clearTable) hu h1
    rw [h1] at h
    simp only [bind, Except.bind] at h
    by_cases hcnt : cnt > 256
    · rw [raiseIf_pos hcnt] at h; cases h
    rw [raiseIf_neg hcnt] at h
    simp only at h
    cases h2 : parseEntries cnt cnt s1 with
    | error e => rw [h2] at h; cases h
    | ok s2 =>
      obtain ⟨es, hlen, hg, hd, -, i2, f2, u2⟩ := parseEntries_inv u1 h2
      rw [h2] at h
      simp only at h
      cases hp : checkPrefixFree s2 with
      | error e => rw [hp] at h; cases h
      | ok x =>
        have hpf := checkPrefixFree_inv hp
        rw [hp] at h
        cases h3 : readBits 32 s2 with
        | error e => rw [h3] at h; cases h
        | ok x =>
          obtain ⟨orig, s3⟩ := x
          obtain ⟨ho, i3, f3, u3⟩ := readBits_inv u2 h3
          rw [h3] at h
          simp only at h
          by_cases hz : cnt = 0 ∧ orig ≠ 0
          · rw [raiseIf_pos hz] at h; cases h
          rw [raiseIf_neg hz] at h
          obtain rfl := Except.ok.inj h
          have hf2 := (f1.loadEntries es).trans f2
          have ht2 := tableIs_loaded hd (fun e he => (hg e he).codeLength) hf2
          have hl : LegalHeader es orig := ⟨by omega, hd, fun e he => (hg e he).codeLength,
            fun e he => (hg e he).padLength, fun e he hz => hlen.trans ((hg e he).zeroLength hz),
            hpf.perm (ht2.perm (by rw [tableOf_fst]; exact hd)), ho, fun he => by
              by_contra hne
              exact hz ⟨by rw [← hlen, he]; rfl, hne⟩⟩
          refine ⟨es, orig, hl, ?_, ?_, ?_, u3, rfl⟩
          · unfold headerStream
            rw [hlen, List.append_assoc, List.append_assoc, show s.inputBits = _ from i1, i2, i3]
            rfl
          · dsimp only
            rw [f3.eq, hf2.eq, loadEntries_frame, hlen]
            rfl
          · intro b
            exact (f3.ctabAt b).trans (ht2 b)

end Sys2Proof.Machine
end

