-- ==== Sys2Proof/Laws/Decoding.lean ====
section
/-! SUPPORT. The decode walk (R105) and DSYM (R106, R107): a code at the front of the stream is decoded; a stream that
ends inside a code is truncated; a stream that leaves every code is bad. -/

namespace Sys2Proof.Machine

open Sys2Proof Config

theorem length_le_longestCode {table : List (Byte × Bits)} {e : Byte × Bits} (h : e ∈ table) :
    e.2.length ≤ longestCode table := by
  have key : ∀ (l : List (Byte × Bits)) (m : Nat), m ≤ l.foldl (fun m e => max m e.2.length) m ∧
      ∀ e ∈ l, e.2.length ≤ l.foldl (fun m e => max m e.2.length) m := fun l => by
    induction l with
    | nil => simp
    | cons x rest ih =>
      intro m
      have := ih (max m x.2.length)
      rw [List.foldl_cons]
      refine ⟨by omega, fun e he => ?_⟩
      rcases List.mem_cons.1 he with rfl | he
      · omega
      · exact this.2 e he
  exact (key table 0).2 e h

theorem any_prefix {table : List (Byte × Bits)} {d : Bits} :
    table.any (fun e => isPrefix d e.2) = true ↔ ∃ e ∈ table, d <+: e.2 := by
  rw [List.any_eq_true]
  simp only [isPrefix, List.isPrefixOf_iff_prefix]

/-- The loop of decode_symbol with a code ahead (R105): its byte. -/
theorem decodeLoop_code {table : List (Byte × Bits)} (ht : PrefixFree table) {b : Byte} {c : Bits} (hm : (b, c) ∈ table)
    (k : Word) (q : Bits) {rest : Bits} {n : Nat} {s : State} (hu : s.UnpackerOk) (hc : c = s.dacc ++ q)
    (h : s.inputBits = q ++ rest) (hn : q.length < n) :
    ∃ t, decodeLoop table k n s = .ok (b, t) ∧ SameButUnpacker { s with dacc := t.dacc } t ∧ t.UnpackerOk ∧
      t.inputBits = rest := by
  induction q generalizing s n with
  | nil =>
    cases n with
    | zero => omega
    | succ n =>
      rw [List.append_nil] at hc
      have hf : (table.find? fun e => e.2 == s.dacc) = some (b, c) := by
        cases hf : table.find? fun e => e.2 == s.dacc with
        | none =>
          have := List.find?_eq_none.1 hf _ hm
          simp [hc] at this
        | some e =>
          have h1 := List.mem_of_find?_eq_some hf
          have h2 := List.find?_some hf
          have h3 : e.2 = s.dacc := by simpa using h2
          rw [ht.eq_of_prefix h1 hm (by rw [h3, hc])]
      refine ⟨s, ?_, rfl, hu, h⟩
      unfold decodeLoop
      rw [hf]
  | cons v q ih =>
    cases n with
    | zero => omega
    | succ n =>
      have hf : (table.find? fun e => e.2 == s.dacc) = none := by
        rw [List.find?_eq_none]
        intro e he heq
        have h3 : e.2 = s.dacc := by simpa using heq
        have := ht.eq_of_prefix he hm (by rw [h3, hc]; exact List.prefix_append _ _)
        rw [this] at h3
        have := congrArg List.length (h3.symm.trans hc)
        simp at this
      have ha : table.any (fun e => isPrefix s.dacc e.2) = true :=
        any_prefix.2 ⟨_, hm, by rw [hc]; exact List.prefix_append _ _⟩
      obtain ⟨u, hr, hfu, huu, hin⟩ := readBit_ok hu (h.trans (List.cons_append ..))
      have hud : u.dacc = s.dacc := by rw [hfu.eq]
      obtain ⟨t, hdt, hft, hut, hint⟩ := ih (n := n) (s := { u with dacc := u.dacc ++ [v] }) huu
        (by show c = (u.dacc ++ [v]) ++ q; rw [hud, hc]; simp) hin (by simp at hn; omega)
      refine ⟨t, ?_, ?_, hut, hint⟩
      · unfold decodeLoop
        rw [hf]
        simp only [bind, Except.bind]
        rw [raiseIf_neg (by simp [ha]), hr]
        exact hdt
      · unfold SameButUnpacker at *
        rw [← hfu]
        have e1 : t = { u with dacc := t.dacc, iptr := t.iptr, ibit := t.ibit } := by
          have e2 := congrArg (fun x : State => { x with iptr := t.iptr, ibit := t.ibit }) hft
          exact e2
        rw [e1]

/-- The loop of decode_symbol when the stream ends inside a code (R105). -/
theorem decodeLoop_truncated {table : List (Byte × Bits)} (k : Word) {n : Nat} {s : State} (hu : s.UnpackerOk)
    (hno : ∀ e ∈ table, ¬ e.2 <+: s.dacc ++ s.inputBits) (hin : ∃ e ∈ table, s.dacc ++ s.inputBits <+: e.2)
    (hn : s.inputBits.length < n) : decodeLoop table k n s = raise .payTruncated k := by
  induction n generalizing s with
  | zero => omega
  | succ n ih =>
    have hf : (table.find? fun e => e.2 == s.dacc) = none := by
      rw [List.find?_eq_none]
      intro e he heq
      have h3 : e.2 = s.dacc := by simpa using heq
      exact hno e he (by rw [h3]; exact List.prefix_append _ _)
    have ha : table.any (fun e => isPrefix s.dacc e.2) = true := by
      obtain ⟨e, he, hp⟩ := hin
      exact any_prefix.2 ⟨e, he, (List.prefix_append _ _).trans hp⟩
    unfold decodeLoop
    rw [hf]
    simp only [bind, Except.bind]
    rw [raiseIf_neg (by simp [ha])]
    cases hi : s.inputBits with
    | nil => rw [readBit_exhausted hu hi]; rfl
    | cons v rest =>
      obtain ⟨u, hr, hfu, huu, hiu⟩ := readBit_ok hu hi
      have hud : u.dacc = s.dacc := by rw [hfu.eq]
      have hcat : (u.dacc ++ [v]) ++ u.inputBits = s.dacc ++ s.inputBits := by rw [hud, hiu, hi]; simp
      rw [hr]
      refine ih (s := { u with dacc := u.dacc ++ [v] }) huu (fun e he => ?_) ?_ ?_
      · exact fun hp => hno e he (by rw [← hcat]; exact hp)
      · obtain ⟨e, he, hp⟩ := hin
        exact ⟨e, he, by rw [← hcat] at hp; exact hp⟩
      · show u.inputBits.length < n
        rw [hiu]
        rw [hi, List.length_cons] at hn
        omega

/-- The loop of decode_symbol when the stream leaves every code (R105). -/
theorem decodeLoop_bad {table : List (Byte × Bits)} (k : Word) {n : Nat} {s : State} (hu : s.UnpackerOk)
    (hno : ∀ e ∈ table, ¬ e.2 <+: s.dacc ++ s.inputBits) (hout : ∀ e ∈ table, ¬ s.dacc ++ s.inputBits <+: e.2)
    (hn : longestCode table + 1 < n + s.dacc.length) (h1 : 1 ≤ n) : decodeLoop table k n s = raise .payBadCode k := by
  induction n generalizing s with
  | zero => omega
  | succ n ih =>
    have hf : (table.find? fun e => e.2 == s.dacc) = none := by
      rw [List.find?_eq_none]
      intro e he heq
      have h3 : e.2 = s.dacc := by simpa using heq
      exact hno e he (by rw [h3]; exact List.prefix_append _ _)
    unfold decodeLoop
    rw [hf]
    simp only [bind, Except.bind]
    cases ha : table.any (fun e => isPrefix s.dacc e.2) with
    | false => rw [raiseIf_pos rfl]; rfl
    | true =>
      obtain ⟨e, he, hp⟩ := any_prefix.1 ha
      rw [raiseIf_neg (by simp)]
      cases hi : s.inputBits with
      | nil =>
        exfalso
        rw [hi, List.append_nil] at hout
        exact hout e he hp
      | cons v rest =>
        obtain ⟨u, hr, hfu, huu, hiu⟩ := readBit_ok hu hi
        have hud : u.dacc = s.dacc := by rw [hfu.eq]
        have hcat : (u.dacc ++ [v]) ++ u.inputBits = s.dacc ++ s.inputBits := by rw [hud, hiu, hi]; simp
        have hlen := hp.length_le.trans (length_le_longestCode he)
        rw [hr]
        refine ih (s := { u with dacc := u.dacc ++ [v] }) huu (fun e he hp => ?_) (fun e he hp => ?_) ?_ ?_
        · exact hno e he (by rw [← hcat]; exact hp)
        · exact hout e he (by rw [← hcat]; exact hp)
        · show longestCode table + 1 < n + (u.dacc ++ [v]).length
          rw [hud, List.length_append, List.length_singleton]
          omega
        · omega

/-- decode_symbol (R105) with a code ahead. -/
theorem decodeSymbol_code {table : List (Byte × Bits)} (ht : PrefixFree table) {b : Byte} {c : Bits} (hm : (b, c) ∈ table)
    (k : Nat) {rest : Bits} {s : State} (hu : s.UnpackerOk) (h : s.inputBits = c ++ rest) :
    ∃ t, decodeSymbol table k s = .ok (b, t) ∧ SameButUnpacker { s with dacc := t.dacc } t ∧ t.UnpackerOk ∧
      t.inputBits = rest := by
  have hl : c.length ≤ longestCode table := length_le_longestCode hm
  exact decodeLoop_code ht hm _ c (s := { s with dacc := [] }) hu rfl h (by omega)

theorem decodeSymbol_truncated {table : List (Byte × Bits)} (k : Nat) {s : State} (hu : s.UnpackerOk)
    (hno : ∀ e ∈ table, ¬ e.2 <+: s.inputBits) (hin : ∃ e ∈ table, s.inputBits <+: e.2) :
    decodeSymbol table k s = raise .payTruncated (BitVec.ofNat 32 k) := by
  obtain ⟨e, he, hp⟩ := hin
  have hl := length_le_longestCode he
  have := hp.length_le
  refine decodeLoop_truncated _ (s := { s with dacc := [] }) hu hno ⟨e, he, hp⟩ ?_
  show s.inputBits.length < _
  omega

theorem decodeSymbol_bad {table : List (Byte × Bits)} (k : Nat) {s : State} (hu : s.UnpackerOk)
    (hno : ∀ e ∈ table, ¬ e.2 <+: s.inputBits) (hout : ∀ e ∈ table, ¬ s.inputBits <+: e.2) :
    decodeSymbol table k s = raise .payBadCode (BitVec.ofNat 32 k) :=
  decodeLoop_bad _ (s := { s with dacc := [] }) hu hno hout
    (by show longestCode table + 1 < longestCode table + 2 + 0; omega) (by omega)

/-! ### DSYM's loop (R106) -/

/-- `t` differs from `s` at most in the unpacker, the packer, DACC and OBUF. -/
def SameButStreams (s t : State) : Prop :=
  { t with iptr := s.iptr, ibit := s.ibit, dacc := s.dacc, optr := s.optr, acc := s.acc, accN := s.accN
           obuf := s.obuf } = s

theorem SameButStreams.eq {s t : State} (h : SameButStreams s t) :
    t = { s with iptr := t.iptr, ibit := t.ibit, dacc := t.dacc, optr := t.optr, acc := t.acc, accN := t.accN
                 obuf := t.obuf } := by
  unfold SameButStreams at h
  rw [← h]

theorem SameButStreams.trans {s t u : State} (h : SameButStreams s t) (k : SameButStreams t u) : SameButStreams s u := by
  unfold SameButStreams at *
  rw [← h, ← k]

theorem SameButPacker.inputBits {s t : State} (h : SameButPacker s t) : t.inputBits = s.inputBits := by
  rw [h.eq]; rfl

theorem SameButPacker.unpackerOk {s t : State} (h : SameButPacker s t) (hu : s.UnpackerOk) : t.UnpackerOk := by
  rw [h.eq]; exact hu

theorem Packed.of_eq {s s' t : State} {bs : Bits} (h : Packed s t bs) (ho : s'.optr = s.optr) (ha : s'.acc = s.acc)
    (hn : s'.accN = s.accN) (hb : s'.obuf = s.obuf) : Packed s' t bs := by
  unfold Packed State.bytesDone State.pendingBits State.obufByte at *
  rw [ho, ha, hn, hb]
  exact h

theorem Packed.of_eq_right {s t t' : State} {bs : Bits} (h : Packed s t bs) (ho : t'.optr = t.optr) (ha : t'.acc = t.acc)
    (hn : t'.accN = t.accN) (hb : t'.obuf = t.obuf) : Packed s t' bs := by
  unfold Packed State.obufBytes State.PackerOk State.pendingBits State.obufByte at *
  rw [ho, ha, hn, hb]
  exact h

theorem Room.of_eq {s s' : State} {bs : Bits} (h : s.Room bs) (hp : s'.params = s.params) (ho : s'.optr = s.optr)
    (hn : s'.accN = s.accN) : s'.Room bs := by
  unfold State.Room State.bytesDone at *
  rw [hp, ho, hn]
  exact h

/-- One symbol of DSYM's loop: the code is taken off the input and the byte appended to the output. -/
theorem decodeFrom_step {table : List (Byte × Bits)} (ht : PrefixFree table) {b : Byte} {c : Bits} (hm : (b, c) ∈ table)
    (k n : Nat) {rest : Bits} {s : State} (hu : s.UnpackerOk) (hp : s.PackerOk) (h : s.inputBits = c ++ rest)
    (hr : s.Room (bitsMsb b.toNat 8)) :
    ∃ t, decodeFrom table k (n + 1) s = decodeFrom table (k + 1) n t ∧ SameButStreams s t ∧ t.UnpackerOk ∧
      t.inputBits = rest ∧ Packed s t (bitsMsb b.toNat 8) := by
  obtain ⟨u, hd, hf, huu, hin⟩ := decodeSymbol_code ht hm k hu h
  have e := hf.eq
  have hpu : u.PackerOk := by rw [e]; exact hp
  have hru : u.Room (bitsMsb b.toNat 8) := Room.of_eq hr (by rw [e]) (by rw [e]) (by rw [e])
  obtain ⟨t, ht', hft, hpt⟩ := appendBits_ok hpu hru
  refine ⟨t, ?_, ?_, hft.unpackerOk huu, hft.inputBits.trans hin, ?_⟩
  · rw [decodeFrom, hd]
    show (appendBits (bitsMsb b.toNat 8) u >>= decodeFrom table (k + 1) n) = _
    rw [ht']
    rfl
  · unfold SameButStreams
    rw [hft.eq, e]
  · exact hpt.of_eq (by rw [e]) (by rw [e]) (by rw [e]) (by rw [e])

/-- DSYM's loop over a stream of codes (R106, R107): after the symbols `bs` the loop stands just past their codes, with
their bytes written. -/
theorem decodeFrom_append {table : List (Byte × Bits)} (ht : PrefixFree table) (code : Byte → Bits) {bs : List Byte}
    (hm : ∀ b ∈ bs, (b, code b) ∈ table) (k n : Nat) {rest : Bits} {s : State} (hu : s.UnpackerOk) (hp : s.PackerOk)
    (h : s.inputBits = payload code bs ++ rest) (hr : s.Room (unpackBytes bs)) :
    ∃ t, decodeFrom table k (bs.length + n) s = decodeFrom table (k + bs.length) n t ∧ SameButStreams s t ∧
      t.UnpackerOk ∧ t.inputBits = rest ∧ Packed s t (unpackBytes bs) := by
  induction bs generalizing s k with
  | nil =>
    refine ⟨s, ?_, rfl, hu, h, .refl hp⟩
    rw [List.length_nil, Nat.zero_add, Nat.add_zero]
  | cons b bs ih =>
    rw [payload_cons, List.append_assoc] at h
    rw [unpackBytes_cons] at hr ⊢
    have hr1 : s.Room (bitsMsb b.toNat 8) := by
      unfold State.Room State.bytesDone at *
      simp only [List.length_append] at hr
      omega
    obtain ⟨u, hd, hfu, huu, hin, hpu⟩ := decodeFrom_step ht (hm b List.mem_cons_self) k (bs.length + n) hu hp h hr1
    have hpar : u.params = s.params := by rw [hfu.eq]
    have hru : u.Room (unpackBytes bs) := by
      have h1 := hpu.bytesDone (unpackBytes bs)
      have h2 := hpu.1
      unfold State.Room at hr ⊢
      rw [hpar]
      unfold State.Room at hr1
      omega
    obtain ⟨t, hdt, hft, hut, hint, hpt⟩ := ih (fun x hx => hm x (List.mem_cons_of_mem _ hx)) (k + 1) huu hpu.2.2.1 hin hru
    refine ⟨t, ?_, hfu.trans hft, hut, hint, hpu.trans hpt⟩
    rw [List.length_cons, show bs.length + 1 + n = (bs.length + n) + 1 by omega, hd, hdt]
    rw [show k + 1 + bs.length = k + (bs.length + 1) by omega]

/-- DSYM (R106) with every symbol in the stream and room for the output. -/
theorem dsym_ok {s : State} (hv : s.tableValid = true) (ht : PrefixFree (validCodes s.ctab)) {bs : List Byte} {rest : Bits}
    (hb : ∀ b ∈ bs, (s.ctabAt b).valid = true) (hl : bs.length = s.origLen.toNat) (hu : s.UnpackerOk) (hp : s.PackerOk)
    (h : s.inputBits = payload s.codeOf bs ++ rest) (hr : s.Room (unpackBytes bs)) :
    ∃ t, bodyDsym s = .ok t ∧ SameButStreams s t ∧ t.dacc = [] ∧ t.UnpackerOk ∧ t.inputBits = rest ∧
      Packed s t (unpackBytes bs) := by
  have hm : ∀ b ∈ bs, (b, s.codeOf b) ∈ validCodes s.ctab := fun b hb' => by
    rw [mem_validCodes]
    have := hb b hb'
    show s.ctabAt b = ⟨true, (s.ctabAt b).code⟩
    rw [← this]
  obtain ⟨t, hd, hf, hut, hin, hpt⟩ := decodeFrom_append ht s.codeOf hm 0 0 hu hp h hr
  refine ⟨{ t with dacc := [] }, ?_, ?_, rfl, hut, hin, ?_⟩
  · unfold bodyDsym
    rw [raiseIf_neg (by simp [hv]), ← hl]
    rw [Nat.add_zero, decodeFrom] at hd
    show (decodeFrom (validCodes s.ctab) 0 bs.length s >>= fun t => Except.ok { t with dacc := [] }) = _
    rw [hd]
    rfl
  · unfold SameButStreams at *
    exact hf
  · exact hpt

end Sys2Proof.Machine
end

