-- ==== Sys2Proof/Laws/Composite.lean ====
section
/-! SUPPORT. ENCODE and DECODE (R110, R111): the table stage, the container ENCODE writes, and what DECODE makes of a
container. -/

namespace Sys2Proof.Machine

open Sys2Proof Config

/-! ### COUNT (R73) -/

/-- COUNT in range and below the total (R73). -/
theorem count_ok {s : State} (hr : s.srcInRange) (ht : s.htotal.toNat + s.srcLen.toNat ≤ maxTotal) :
    bodyCount s = .ok { s with hist := (countFrom s.srcAddr.toNat s.srcLen.toNat s).hist, htotal := s.htotal + s.srcLen
                               origLen := s.htotal + s.srcLen, treeValid := false } := by
  unfold bodyCount
  rw [raiseIf_neg (by simpa using hr), raiseIf_neg (by omega)]
  have := countFrom_frame s.srcAddr.toNat s.srcLen.toNat s
  generalize countFrom s.srcAddr.toNat s.srcLen.toNat s = t at this ⊢
  rw [this]
  rfl

/-! ### The table stage -/

/-- What the table stage of ENCODE leaves (R110). -/
structure Coded (s u : State) : Prop where
  frame : u = { s with hist := u.hist, htotal := s.srcLen, origLen := s.srcLen, node := u.node, nodeCount := u.nodeCount
                       root := u.root, symcount := u.symcount, ctab := u.ctab, pq := u.pq, wstack := u.wstack
                       treeValid := true, tableValid := true }
  hist : ∀ b, (u.histAt b).toNat = s.source.count b
  valid : ∀ b, (u.ctabAt b).valid = true ↔ b ∈ s.source
  length : ∀ e ∈ validCodes u.ctab, 1 ≤ e.2.length ∧ e.2.length ≤ 255
  prefixFree : PrefixFree (validCodes u.ctab)
  invalid : ∀ b, (u.ctabAt b).valid = false → (u.ctabAt b).code = []
  symcount : u.symcount.toNat = (validCodes u.ctab).length
  pq : u.pq = []
  wstack : s.wstack = [] → u.wstack = []

theorem tableIs_valid {s : State} {t : List (Byte × Bits)} (h : s.TableIs t) (b : Byte) :
    (s.ctabAt b).valid = true ↔ b ∈ t.map Prod.fst := by
  rw [h b]
  unfold codeIn
  cases hl : List.lookup b t with
  | none =>
    rw [lookup_eq_none] at hl
    simp only [CodeEntry.invalid, Bool.false_eq_true, false_iff]
    exact hl
  | some c =>
    simp only [true_iff]
    by_contra hn
    rw [(lookup_eq_none b).2 hn] at hl
    cases hl

theorem tableIs_invalid {s : State} {t : List (Byte × Bits)} (h : s.TableIs t) (b : Byte)
    (hv : (s.ctabAt b).valid = false) : (s.ctabAt b).code = [] := by
  rw [h b] at hv ⊢
  cases hl : codeIn t b with
  | none => rfl
  | some c => rw [hl] at hv; cases hv

theorem source_length (s : State) : s.source.length = s.srcLen.toNat := ibufBytes_length ..

/-- The table stage never raises on a source in range, and leaves a code for each byte of the source (R110). -/
theorem tableStage_ok {s : State} (hr : s.srcInRange) : ∃ u, tableStage s = .ok u ∧ Coded s u := by
  obtain ⟨s1, h1⟩ : ∃ s1 : State, s1 = { s with hist := Vector.replicate 256 0, htotal := 0, origLen := 0, treeValid := false } :=
    ⟨_, rfl⟩
  have hb1 : bodyHclr s = .ok s1 := by rw [h1]; rfl
  have hz : ∀ b, s1.histAt b = 0 := fun b => by rw [h1]; simp [State.histAt]
  have hs0 : s1.histSum = 0 := by
    rw [histSum_eq]
    refine List.sum_eq_zero fun x hx => ?_
    obtain ⟨b, -, rfl⟩ := List.mem_map.1 hx
    rw [hz]
    rfl
  have hlen := s.srcLen.isLt
  have hr1 : s1.srcInRange := by rw [h1]; exact hr
  have ht1 : s1.htotal.toNat + s1.srcLen.toNat ≤ maxTotal := by
    rw [h1]
    show BitVec.toNat 0 + s.srcLen.toNat ≤ 0xFFFFFFFF
    have : BitVec.toNat (0 : Word) = 0 := by decide
    omega
  have hb2 := count_ok hr1 ht1
  obtain ⟨hcnt, hsum⟩ := countFrom_histSum (a := s1.srcAddr.toNat) (n := s1.srcLen.toNat) (s := s1) (by
    rw [hs0, h1]; show 0 + s.srcLen.toNat < _; omega)
  have hsrc : s1.ibufBytes s1.srcAddr.toNat s1.srcLen.toNat = s.source := by rw [h1]; rfl
  rw [hsrc] at hcnt
  have hz0 : ∀ b, (s1.histAt b).toNat = 0 := fun b => by rw [hz]; rfl
  simp only [hz0, Nat.zero_add] at hcnt
  have hadd : (0 : Word) + s.srcLen = s.srcLen := BitVec.zero_add _
  obtain ⟨s2, h2⟩ : ∃ s2 : State, s2 = { s with
      hist := (countFrom s1.srcAddr.toNat s1.srcLen.toNat s1).hist, htotal := s.srcLen, origLen := s.srcLen
      treeValid := false } := ⟨_, rfl⟩
  have hb2' : bodyCount s1 = .ok s2 := by
    rw [hb2, h2, h1]
    dsimp only
    rw [hadd]
  have hh2 : ∀ b, (s2.histAt b).toNat = s.source.count b := fun b => by
    rw [← hcnt]
    congr 1
    exact histAt_of_eq (by rw [h2]) b
  have hp2 : ∀ b, b ∈ s2.present ↔ b ∈ s.source := fun b => by
    rw [mem_present, ← List.count_pos_iff, ← hh2]
    constructor
    · intro h
      exact Nat.pos_of_ne_zero fun e => h (BitVec.eq_of_toNat_eq e)
    · intro h e
      rw [e] at h
      exact Nat.lt_irrefl _ h
  obtain ⟨s3, hb3, f3, hsym, hempty, hbuilt⟩ := build_spec s2
  have hv3 : s3.treeValid = true := by rw [f3]
  have hst : tableStage s = bodyGen s3 := by
    unfold tableStage
    rw [hb1, ok_bind, hb2', ok_bind, hb3, ok_bind]
  have hh3 : s3.hist = s2.hist := by rw [f3]
  have hw3 : s3.wstack = s.wstack := by rw [f3, h2]
  by_cases hne : s2.present = []
  · obtain ⟨hnc, hroot⟩ := hempty hne
    have hg := gen_empty hv3 hroot
    have hvc : validCodes s3.clearTable.ctab = [] := by
      cases hl : validCodes s3.clearTable.ctab with
      | nil => rfl
      | cons e rest =>
        have hm : (e.1, e.2) ∈ validCodes s3.clearTable.ctab := by rw [hl]; exact List.mem_cons_self
        rw [mem_validCodes] at hm
        have := ctabAt_clearTable s3 e.1
        unfold State.ctabAt at this
        rw [hm] at this
        cases this
    obtain ⟨w, hwd⟩ : ∃ w : State, w = { s3.clearTable with symcount := 0, tableValid := true } := ⟨_, rfl⟩
    rw [← hwd] at hg
    have hwc : w.ctab = s3.clearTable.ctab := by rw [hwd]
    have hwh : w.hist = s2.hist := by
      rw [hwd]
      exact hh3
    have hwi : ∀ b, w.ctabAt b = CodeEntry.invalid := fun b => (ctabAt_of_eq hwc b).trans (ctabAt_clearTable s3 b)
    refine ⟨w, hst.trans hg, ?_, fun b => ?_, fun b => ?_, ?_, ?_, fun b _ => ?_, ?_, ?_, fun hw => ?_⟩
    · rw [hwd]
      unfold State.clearTable
      dsimp only
      rw [f3, h2]
    · rw [histAt_of_eq hwh, hh2]
    · rw [← hp2, hne, hwi]
      simp [CodeEntry.invalid]
    · rw [hwc, hvc]; simp
    · rw [hwc, hvc]; simp [PrefixFree]
    · rw [hwi]; rfl
    · rw [hwc, hvc, hwd]; rfl
    · rw [hwd]; show s3.pq = []; rw [f3]
    · rw [hwd]; show s3.wstack = []; rw [hw3, hw]
  · obtain ⟨hbt, F, hrep, hleaves, -⟩ := hbuilt hne
    have hnc := hbt.nodeCount
    have hrt := hbt.root
    have hpr : s3.present = s2.present := present_congr hh3
    have hle := present_length_le s2
    rw [hpr] at hnc hrt
    have hrne : s3.root ≠ nilIdx := fun e => by
      rw [e] at hrt
      have : BitVec.toNat nilIdx = 511 := by decide
      omega
    have hd : (F s3.root).leaves.Nodup := hleaves.nodup_iff.2 (present_nodup s2)
    obtain ⟨u, hg, fu, hw, htab, hperm, hsy⟩ := gen_spec hv3 hrne (hrep _ (by omega)) hd
    refine ⟨u, hst.trans hg, ?_, fun b => ?_, fun b => ?_, fun e he => ?_, ?_, fun b hb => ?_, ?_, ?_, fun hws => ?_⟩
    · rw [fu, f3, h2]
    · rw [← hh2]
      congr 1
      exact histAt_of_eq (by rw [fu]; exact hh3) b
    · rw [tableIs_valid htab, Tree.table_fst, hleaves.mem_iff, hp2]
    · have := Tree.table_length (hperm.mem_iff.1 he)
      have := hleaves.length_eq
      omega
    · exact (Tree.table_prefixFree _).perm hperm.symm
    · exact tableIs_invalid htab b hb
    · rw [hsy, hperm.length_eq, ← Tree.table_fst, List.length_map]
    · rw [fu, f3]
    · exact hw (by rw [hw3, hws])

/-! ### The container ENCODE writes -/

theorem headerBits_length (table : List (Byte × Bits)) (n : Nat) :
    (headerBits table n).length = 8 * (6 + (table.map fun e => 2 + (e.2.length + 7) / 8).sum) := by
  have key : (table.flatMap entryBits).length = 8 * (table.map fun e => 2 + (e.2.length + 7) / 8).sum := by
    induction table with
    | nil => rfl
    | cons e rest ih =>
      have hge := wholeBytes_ge e.2.length
      rw [List.flatMap_cons, List.length_append, ih, List.map_cons, List.sum_cons]
      simp only [entryBits, List.length_append, bitsMsb_length, zeros_length]
      unfold wholeBytes at *
      omega
  unfold headerBits
  simp only [List.length_append, bitsMsb_length, key]
  omega

/-- The bits of a container (R100): header, payload, and zero padding to a whole byte (R89). -/
def containerBits (table : List (Byte × Bits)) (origLen : Nat) (body : Bits) : Bits :=
  headerBits table origLen ++ body ++ zeros (wholeBytes body.length - body.length)

theorem containerBits_length (table : List (Byte × Bits)) (n : Nat) (body : Bits) :
    (containerBits table n body).length = 8 * containerLength table body.length := by
  have hge := wholeBytes_ge body.length
  unfold containerBits containerLength
  rw [List.length_append, List.length_append, headerBits_length, zeros_length]
  unfold wholeBytes at *
  omega

/-- Packing a header, a body and the padding from an empty packer: the whole container in whole bytes. -/
theorem pack_container {s : State} (hn : s.accN = 0) (table : List (Byte × Bits)) (n : Nat) (body : Bits)
    {t : State} (h : Packed s t (headerBits table n ++ body)) (hf : SameButPacker s t)
    (hr : s.optr.toNat + containerLength table body.length ≤ s.params.obufSize) :
    ∃ v, flush t = .ok v ∧ SameButPacker s v ∧ Packed s v (containerBits table n body) := by
  have hn0 : s.accN.toNat = 0 := by rw [hn]; rfl
  have htp := h.2.2.1
  have hacc := h.accN
  have hbl := containerBits_length table n body
  have hhl := headerBits_length table n
  rw [List.length_append, hn0, Nat.zero_add] at hacc
  have hpad : (8 - t.accN.toNat) % 8 = wholeBytes body.length - body.length := by
    have := htp.1
    unfold wholeBytes
    omega
  have hfl : flush t = appendBits (zeros (wholeBytes body.length - body.length)) t := by
    rcases flush_eq (s := t) with e | e
    · rw [e, hpad]
    · exact absurd e (by have := htp.1; omega)
  have hroom : s.Room (containerBits table n body) := by
    right
    unfold State.bytesDone
    rw [hn0, hbl]
    omega
  have hr1 : s.Room (headerBits table n ++ body) := by
    unfold State.Room State.bytesDone at *
    unfold containerBits at hroom
    simp only [List.length_append] at *
    omega
  have hrt : t.Room (zeros (wholeBytes body.length - body.length)) := (Room.append_iff h hf hr1).1 hroom
  obtain ⟨v, hv, hfv, hpv⟩ := appendBits_ok htp hrt
  exact ⟨v, hfl.trans hv, hf.trans hfv, h.trans hpv⟩

theorem Room.left {s : State} {bs cs : Bits} (h : s.Room (bs ++ cs)) : s.Room bs := by
  unfold State.Room State.bytesDone at *
  simp only [List.length_append] at h
  omega

/-- ENCODE after its table stage (R110). -/
theorem encode_eq {s u : State} (hr : s.srcInRange) (hu : tableStage s = .ok u) :
    bodyEncode s =
      (bodyThdr { u with optr := u.dstAddr, acc := 0, accN := 0 } >>= fun s => bodyPsym s >>= fun s => flush s) := by
  unfold bodyEncode
  rw [raiseIf_neg (by simpa using hr)]
  have hst : (bodyHclr s >>= fun s => bodyCount s >>= fun s => bodyBuild s >>= fun s => bodyGen s >>= fun s =>
      bodyPinit s >>= fun s => bodyThdr s >>= fun s => bodyPsym s >>= fun s => flush s) =
      (tableStage s >>= fun s => bodyPinit s >>= fun s => bodyThdr s >>= fun s => bodyPsym s >>= fun s => flush s) := by
    unfold tableStage
    simp only [bind_assoc]
  refine hst.trans ?_
  rw [hu]
  rfl

/-- Everything ENCODE does when the container fits (R110, R113). -/
theorem encode_ok {s u : State} (hr : s.srcInRange) (hu : tableStage s = .ok u) (hc : Coded s u)
    (hfit : s.dstAddr.toNat + containerLength (validCodes u.ctab) (payload u.codeOf s.source).length ≤ s.params.obufSize) :
    ∃ t, bodyEncode s = .ok t ∧ t = { u with optr := t.optr, acc := 0, accN := 0, obuf := t.obuf } ∧
      t.optr.toNat = s.dstAddr.toNat + containerLength (validCodes u.ctab) (payload u.codeOf s.source).length ∧
      unpackBytes (t.obufBytes s.dstAddr.toNat (containerLength (validCodes u.ctab) (payload u.codeOf s.source).length)) =
        containerBits (validCodes u.ctab) s.srcLen.toNat (payload u.codeOf s.source) ∧
      ∀ a, a < s.dstAddr.toNat ∨ t.optr.toNat ≤ a → t.obufByte a = s.obufByte a := by
  have e := hc.frame
  obtain ⟨p, hp⟩ : ∃ p : State, p = { u with optr := u.dstAddr, acc := 0, accN := 0 } := ⟨_, rfl⟩
  have hpo : p.optr = s.dstAddr := by rw [hp, e]
  have hpn : p.accN = 0 := by rw [hp]
  have hpa : p.acc = 0 := by rw [hp]
  have hpp : p.params = s.params := by rw [hp, e]
  have hpk : p.PackerOk := by unfold State.PackerOk; rw [hpa, hpn]; decide
  have hpc : p.codeOf = u.codeOf := by rw [hp]; rfl
  have hpct : p.ctab = u.ctab := by rw [hp]
  have hps : p.ibufBytes p.srcAddr.toNat p.srcLen.toNat = s.source := by rw [hp, e]; rfl
  have hsl : p.srcLen = s.srcLen := by rw [hp, e]
  have hol : p.origLen = s.srcLen := by rw [hp, e]
  have hpv : p.tableValid = true := by rw [hp, e]
  have hproom : p.Room (containerBits (validCodes u.ctab) s.srcLen.toNat (payload u.codeOf s.source)) := by
    right
    unfold State.bytesDone
    rw [containerBits_length, hpo, hpp, hpn]
    show _ + (0 + _) / 8 ≤ _
    omega
  obtain ⟨q, hq, hfq, hpq⟩ := appendBits_ok hpk (Room.left (Room.left hproom))
  have hqi : q.ibufBytes q.srcAddr.toNat q.srcLen.toNat = s.source := by
    rw [hfq.eq]
    exact hps
  have hqc : q.codeOf = u.codeOf := by rw [← hpc]; rw [hfq.eq]; rfl
  have hqroom : q.Room (payload u.codeOf s.source) :=
    (Room.append_iff hpq hfq (Room.left (Room.left hproom))).1 (Room.left hproom)
  have hqv : ∀ b ∈ q.ibufBytes q.srcAddr.toNat q.srcLen.toNat, (q.ctabAt b).valid = true := fun b hb => by
    rw [hqi] at hb
    rw [hfq.ctabAt, show p.ctabAt b = u.ctabAt b from ctabAt_of_eq hpct b]
    exact (hc.valid b).2 hb
  obtain ⟨r, hrr, hfr, hpr⟩ := packFrom_ok (s := q) hpq.2.2.1 hqv (by rw [hqi, hqc]; exact hqroom)
  rw [hqi, hqc] at hpr
  obtain ⟨t, ht, hft, hpt⟩ := pack_container hpn (validCodes u.ctab) s.srcLen.toNat (payload u.codeOf s.source)
    (hpq.trans hpr) (hfq.trans hfr) (by rw [hpo, hpp]; exact hfit)
  have hdone : p.bytesDone (containerBits (validCodes u.ctab) s.srcLen.toNat (payload u.codeOf s.source)) =
      containerLength (validCodes u.ctab) (payload u.codeOf s.source).length := by
    unfold State.bytesDone
    rw [containerBits_length, hpn]
    show (0 + _) / 8 = _
    omega
  have haccN : t.accN = 0 := by
    have := hpt.accN
    rw [hdone, containerBits_length, hpn] at this
    exact BitVec.eq_of_toNat_eq (by show t.accN.toNat = 0; have h0 : (0 : BitVec 4).toNat = 0 := by decide
                                    omega)
  have hacc : t.acc = 0 := by
    have := hpt.2.2.1.2
    rw [haccN] at this
    exact BitVec.eq_of_toNat_eq (by show t.acc.toNat = 0; have h0 : (2 : Nat) ^ (0 : BitVec 4).toNat = 1 := by decide
                                    omega)
  refine ⟨t, ?_, ?_, ?_, ?_, fun a ha => ?_⟩
  · rw [encode_eq hr hu, ← hp]
    show (bodyThdr p >>= fun s => bodyPsym s >>= fun s => flush s) = _
    have h1 : bodyThdr p = .ok q := by
      unfold bodyThdr
      rw [raiseIf_neg (by simp [hpv]), hpct, hol]
      exact hq
    rw [h1]
    show (bodyPsym q >>= fun s => flush s) = _
    have h2 : bodyPsym q = .ok r := by
      have hqv' : q.tableValid = true := by rw [hfq.eq]; exact hpv
      have hqr : q.srcInRange := by rw [hfq.eq, hp, e]; exact hr
      unfold bodyPsym
      rw [raiseIf_neg (by simp [hqv']), raiseIf_neg (by simpa using hqr)]
      exact hrr
    rw [h2]
    exact ht
  · rw [hft.eq, haccN, hacc, hp]
  · rw [hpt.1, hpo, hdone]
  · have := hpt.2.1
    rw [hdone, hpo] at this
    have h1 : t.pendingBits = [] := by unfold State.pendingBits; rw [haccN]; rfl
    have h2 : p.pendingBits = [] := by unfold State.pendingBits; rw [hpn]; rfl
    rw [h1, h2, List.append_nil, List.nil_append] at this
    exact this
  · have := hpt.2.2.2 a (by rw [hdone, hpo]; rw [hpt.1, hpo, hdone] at ha; exact ha)
    rw [this, hp, e]
    rfl

/-! ### DECODE -/

/-- UINIT leaves the whole source to be read (R97). -/
theorem uinit_ok {s : State} (hr : s.srcInRange) :
    ∃ t, bodyUinit s = .ok t ∧ t = { s with iptr := s.srcAddr, iend := s.srcAddr + s.srcLen, ibit := 0 } ∧ t.UnpackerOk ∧
      t.iend.toNat = s.srcEnd ∧ t.inputBits = unpackBytes s.source := by
  have hle := s.params.ibuf_le
  have hend : (s.srcAddr + s.srcLen).toNat = s.srcEnd := by
    rw [BitVec.toNat_add]
    unfold State.srcInRange State.srcEnd at *
    exact Nat.mod_eq_of_lt (by omega)
  refine ⟨_, by unfold bodyUinit; rw [raiseIf_neg (by simpa using hr)]; rfl, rfl, ⟨?_, ?_, fun _ => rfl⟩, hend, ?_⟩
  · show s.srcAddr.toNat ≤ (s.srcAddr + s.srcLen).toNat
    rw [hend]; unfold State.srcEnd; omega
  · show (s.srcAddr + s.srcLen).toNat ≤ s.params.ibufSize
    rw [hend]; exact hr
  · show List.drop 0 (unpackBytes (s.ibufBytes s.srcAddr.toNat ((s.srcAddr + s.srcLen).toNat - s.srcAddr.toNat))) = _
    rw [hend, List.drop_zero]
    unfold State.srcEnd State.source
    rw [Nat.add_sub_cancel_left]

theorem lookup_perm_code {t : State} {table : List (Byte × Bits)} (ht : t.TableIs table)
    (hd : (table.map Prod.fst).Nodup) {b : Byte} {c : Bits} (hm : (b, c) ∈ table) :
    (t.ctabAt b).valid = true ∧ t.codeOf b = c := by
  have h1 : codeIn table b = some c := (lookup_eq_some hd b c).2 hm
  unfold State.codeOf
  rw [ht b, h1]
  exact ⟨rfl, rfl⟩

theorem payload_congr {f g : Byte → Bits} {bs : List Byte} (h : ∀ b ∈ bs, f b = g b) : payload f bs = payload g bs := by
  unfold payload
  exact List.flatMap_congr h

/-- What PINIT and UINIT leave for the rest of DECODE (R111). -/
theorem decode_start {s : State} (hr : s.srcInRange) : ∃ u : State, bodyDecode s = (bodyParse u >>= bodyDsym) ∧
    u = { s with iptr := s.srcAddr, iend := s.srcAddr + s.srcLen, ibit := 0, optr := s.dstAddr, acc := 0, accN := 0 } ∧
    u.UnpackerOk ∧ u.inputBits = unpackBytes s.source := by
  obtain ⟨s1, h1, e1, u1, -, i1⟩ := uinit_ok hr
  refine ⟨{ s1 with optr := s1.dstAddr, acc := 0, accN := 0 }, ?_, by rw [e1], u1, by rw [← i1]; rfl⟩
  unfold bodyDecode
  rw [raiseIf_neg (by simpa using hr), h1]
  rfl

/-- DECODE past a legal header is DSYM with its table (R111): `body` is what follows the header. -/
theorem decode_parsed {s : State} (hr : s.srcInRange) {es : List Entry} {orig : Nat} (hl : LegalHeader es orig) {body : Bits}
    (h : unpackBytes s.source = headerStream es orig ++ body) : ∃ u : State, bodyDecode s = bodyDsym u ∧
    u = { s with iptr := u.iptr, iend := s.srcAddr + s.srcLen, ibit := u.ibit, ctab := u.ctab
                 origLen := BitVec.ofNat 32 orig, symcount := BitVec.ofNat 9 es.length, tableValid := true
                 optr := s.dstAddr, acc := 0, accN := 0 } ∧
    u.origLen.toNat = orig ∧ u.TableIs (tableOf es) ∧ (validCodes u.ctab).Perm (tableOf es) ∧ u.UnpackerOk ∧ u.PackerOk ∧
    u.inputBits = body ∧ (∀ bs : List Byte, u.bytesDone (unpackBytes bs) = bs.length) ∧
    ∀ bs : List Byte, u.Room (unpackBytes bs) ↔ bs = [] ∨ s.dstAddr.toNat + bs.length ≤ s.params.obufSize := by
  obtain ⟨s2, hd, e2, u2, i2⟩ := decode_start hr
  obtain ⟨u, hu, hp⟩ := parse_ok u2 hl (i2.trans h)
  have e := hp.frame
  have hn : u.accN = 0 := by rw [e, e2]
  have hdone : ∀ bs : List Byte, u.bytesDone (unpackBytes bs) = bs.length := fun bs => by
    unfold State.bytesDone
    rw [hn, unpackBytes_length]
    show (0 + _) / 8 = _
    omega
  refine ⟨u, by rw [hd, hu]; rfl, by rw [e, e2], ?_, hp.table,
    hp.table.perm (by rw [tableOf_fst]; exact hl.distinct), hp.unpacker, packerOk_zero (by rw [e, e2]) hn, hp.input, hdone,
    fun bs => ?_⟩
  · rw [e]
    show (BitVec.ofNat 32 orig).toNat = orig
    rw [BitVec.toNat_ofNat]
    exact Nat.mod_eq_of_lt hl.length
  · unfold State.Room
    rw [hdone, List.length_eq_zero_iff, show u.optr = s.dstAddr by rw [e, e2], show u.params = s.params by rw [e, e2]]

/-- Everything DECODE does on a container of a legal header and a payload of ORIG_LEN codes (R111). -/
theorem decode_ok {s : State} (hr : s.srcInRange) {es : List Entry} {orig : Nat} (hl : LegalHeader es orig)
    (code : Byte → Bits) {bs : List Byte} {rest : Bits} (hb : ∀ b ∈ bs, (b, code b) ∈ tableOf es) (hlen : bs.length = orig)
    (h : unpackBytes s.source = headerStream es orig ++ (payload code bs ++ rest))
    (hfit : bs = [] ∨ s.dstAddr.toNat + bs.length ≤ s.params.obufSize) :
    ∃ t, bodyDecode s = .ok t ∧
      t = { s with iptr := t.iptr, iend := s.srcAddr + s.srcLen, ibit := t.ibit, ctab := t.ctab
                   origLen := BitVec.ofNat 32 orig, symcount := BitVec.ofNat 9 es.length, tableValid := true
                   optr := t.optr, acc := 0, accN := 0, dacc := [], obuf := t.obuf } ∧
      t.TableIs (tableOf es) ∧ t.optr.toNat = s.dstAddr.toNat + bs.length ∧ t.obufBytes s.dstAddr.toNat bs.length = bs ∧
      t.inputBits = rest ∧ ∀ a, a < s.dstAddr.toNat ∨ t.optr.toNat ≤ a → t.obufByte a = s.obufByte a := by
  obtain ⟨u, hdec, e, hol, htab, hperm, huu, hpk, hbody, hdone, hroom⟩ := decode_parsed hr hl h
  have hcode : ∀ b ∈ bs, (u.ctabAt b).valid = true ∧ u.codeOf b = code b := fun b hb' =>
    lookup_perm_code htab (by rw [tableOf_fst]; exact hl.distinct) (hb b hb')
  have hn : u.accN = 0 := by rw [e]
  have hopt : u.optr = s.dstAddr := by rw [e]
  obtain ⟨t, ht, hft, hdt, -, hin, hpt⟩ := dsym_ok (s := u) (by rw [e]) (hl.prefixFree.perm hperm.symm)
    (fun b hb' => (hcode b hb').1) (hlen.trans hol.symm) huu hpk
    (hbody.trans (by rw [payload_congr fun b hb' => (hcode b hb').2])) ((hroom bs).2 hfit)
  have haccN : t.accN = 0 := by
    have := hpt.accN
    rw [hdone, unpackBytes_length, hn] at this
    exact BitVec.eq_of_toNat_eq (by show t.accN.toNat = 0; have h0 : (0 : BitVec 4).toNat = 0 := by decide
                                    omega)
  have hacc : t.acc = 0 := by
    have := hpt.2.2.1.2
    rw [haccN] at this
    exact BitVec.eq_of_toNat_eq (by show t.acc.toNat = 0; have h0 : (2 : Nat) ^ (0 : BitVec 4).toNat = 1 := by decide
                                    omega)
  have hoptr : t.optr.toNat = s.dstAddr.toNat + bs.length := by rw [hpt.1, hdone, hopt]
  refine ⟨t, hdec.trans ht, ?_, fun b => ?_, hoptr, ?_, hin, fun a ha => ?_⟩
  · rw [hft.eq, haccN, hacc, hdt, e]
  · rw [← htab b]
    exact ctabAt_of_eq (by rw [hft.eq]) b
  · apply unpackBytes_inj
    have := hpt.2.1
    rw [hdone, hopt] at this
    have h1 : t.pendingBits = [] := by unfold State.pendingBits; rw [haccN]; rfl
    have h2 : u.pendingBits = [] := by unfold State.pendingBits; rw [hn]; rfl
    rw [h1, h2, List.append_nil, List.nil_append] at this
    exact this
  · have := hpt.2.2.2 a (by rw [hdone, hopt]; rw [hoptr] at ha; exact ha)
    rw [this, e]
    rfl

end Sys2Proof.Machine
end

