-- ==== Sys2Proof/Laws/Frames.lean ====
section
/-! SUPPORT. What each command's body can change at most, whatever the state it starts from: the fields it may write, and
the errors it may raise (R115). -/

namespace Sys2Proof.Machine

open Sys2Proof Config

/-! ### Taking a bind apart -/

theorem bind_ok {α β : Type} {x : Except Raise α} {f : α → Except Raise β} {b : β} (h : (x >>= f) = .ok b) :
    ∃ a, x = .ok a ∧ f a = .ok b := by
  cases x with
  | error e => cases h
  | ok a => exact ⟨a, rfl, h⟩

theorem bind_error {α β : Type} {x : Except Raise α} {f : α → Except Raise β} {e : Raise} (h : (x >>= f) = .error e) :
    x = .error e ∨ ∃ a, x = .ok a ∧ f a = .error e := by
  cases x with
  | error e' =>
    have h' : (Except.error e' : Except Raise β) = .error e := h
    left
    rw [Except.error.inj h']
  | ok a => exact .inr ⟨a, rfl, h⟩

theorem raiseIf_ok {c : Prop} [Decidable c] {e : ErrorCode} {info : Word} (h : raiseIf c e info = .ok ()) : ¬ c := by
  intro hc
  rw [raiseIf_pos hc] at h
  cases h

theorem raiseIf_error {c : Prop} [Decidable c] {e : ErrorCode} {info : Word} {r : Raise}
    (h : raiseIf c e info = .error r) : c ∧ r = ⟨e, info⟩ := by
  by_cases hc : c
  · rw [raiseIf_pos hc] at h
    exact ⟨hc, (Except.error.inj h).symm⟩
  · rw [raiseIf_neg hc] at h
    cases h

theorem orRaise_ok {α : Type} {e : ErrorCode} {x : Except Word α} {a : α} (h : orRaise e x = .ok a) : x = .ok a := by
  cases x with
  | error i => cases h
  | ok b => exact congrArg _ (Except.ok.inj h)

theorem orRaise_error {α : Type} {e : ErrorCode} {x : Except Word α} {r : Raise} (h : orRaise e x = .error r) :
    r.code = e := by
  cases x with
  | error i => rw [← Except.error.inj h]
  | ok b => cases h

/-! ### The unpacker -/

theorem readBit_frame {s t : State} {v : Bool} (h : readBit s = .ok (v, t)) : SameButUnpacker s t := by
  unfold readBit at h
  split at h
  · cases h
  · dsimp only at h
    split at h
    · obtain ⟨-, rfl⟩ := Prod.mk.inj (Except.ok.inj h)
      rfl
    · obtain ⟨-, rfl⟩ := Prod.mk.inj (Except.ok.inj h)
      rfl

theorem readBitsFrom_frame {r n : Nat} {s t : State} {x : Nat} (h : readBitsFrom r n s = .ok (x, t)) :
    SameButUnpacker s t := by
  induction n generalizing r s with
  | zero =>
    obtain ⟨-, rfl⟩ := Prod.mk.inj (Except.ok.inj h)
    rfl
  | succ n ih =>
    rw [readBitsFrom] at h
    cases hb : readBit s with
    | error e => rw [hb] at h; cases h
    | ok y => rw [hb] at h; exact (readBit_frame (v := y.1) (t := y.2) hb).trans (ih h)

theorem readCode_frame {l j m : Nat} {c d : Bits} {s t : State} (h : readCode l c j m s = .ok (d, t)) :
    SameButUnpacker s t := by
  induction m generalizing c j s with
  | zero =>
    obtain ⟨-, rfl⟩ := Prod.mk.inj (Except.ok.inj h)
    rfl
  | succ m ih =>
    rw [readCode] at h
    cases hb : readBit s with
    | error e => rw [hb] at h; cases h
    | ok y => rw [hb] at h; exact (readBit_frame (v := y.1) (t := y.2) hb).trans (ih h)

/-! ### Errors of the packer -/

theorem appendBits_error {bs : Bits} {s : State} {r : Raise} (h : appendBits bs s = .error r) :
    r.code = .obufOverflow := by
  induction bs generalizing s with
  | nil => cases h
  | cons v rest ih =>
    rcases bind_error (x := appendBit v s) h with h | ⟨u, -, h⟩
    · unfold appendBit at h
      dsimp only at h
      split at h
      · rcases bind_error h with h | ⟨_, -, h⟩
        · rw [(raiseIf_error h).2]
        · cases h
      · cases h
    · exact ih h

theorem flush_error {s : State} {r : Raise} (h : flush s = .error r) : r.code = .obufOverflow := by
  unfold flush at h
  split at h
  · exact appendBits_error h
  · cases h

/-! ### Each body: the fields it may write -/

theorem count_frame {s t : State} (h : bodyCount s = .ok t) :
    t = { s with hist := t.hist, htotal := t.htotal, origLen := t.origLen, treeValid := false } := by
  obtain ⟨_, -, h⟩ := bind_ok h
  obtain ⟨_, -, h⟩ := bind_ok h
  have hf := countFrom_frame s.srcAddr.toNat s.srcLen.toNat s
  generalize countFrom s.srcAddr.toNat s.srcLen.toNat s = u at h hf
  obtain rfl := Except.ok.inj h
  dsimp only
  rw [hf]

theorem walkStack_frame (n : Nat) (s : State) :
    walkStack n s = { s with ctab := (walkStack n s).ctab, wstack := (walkStack n s).wstack } := by
  induction n generalizing s with
  | zero => rfl
  | succ n ih =>
    unfold walkStack
    cases s.wstack with
    | nil => rfl
    | cons x rest =>
      dsimp only
      cases (s.nodeAt x.1).kind with
      | leaf => exact ih _
      | internal => exact ih _

theorem genTable_frame (s : State) :
    genTable s = { s with ctab := (genTable s).ctab, symcount := (genTable s).symcount, wstack := (genTable s).wstack } := by
  unfold genTable
  dsimp only
  split
  · rfl
  · split
    · rfl
    · unfold walk
      have h := walkStack_frame maxVisits { s.clearTable with wstack := [(s.clearTable.root, [])] }
      generalize walkStack maxVisits { s.clearTable with wstack := [(s.clearTable.root, [])] } = u at h ⊢
      rw [h]
      rfl

theorem genTable_wstack {s : State} (h : s.wstack = []) : (genTable s).wstack = [] := by
  unfold genTable
  dsimp only
  split
  · exact h
  · split
    · exact h
    · rfl

/-- GEN with a tree marked valid always completes. -/
theorem gen_eq {s : State} (h : s.treeValid = true) : bodyGen s = .ok { genTable s with tableValid := true } := by
  unfold bodyGen
  rw [raiseIf_neg (by simp [h]), ok_bind]

theorem gen_frame {s t : State} (h : bodyGen s = .ok t) :
    s.treeValid = true ∧ t = { s with ctab := t.ctab, symcount := t.symcount, wstack := t.wstack, tableValid := true } ∧
      (s.wstack = [] → t.wstack = []) := by
  obtain ⟨_, hg, h⟩ := bind_ok h
  have hv := raiseIf_ok hg
  obtain rfl := Except.ok.inj h
  refine ⟨by simpa using hv, ?_, genTable_wstack⟩
  dsimp only
  rw [genTable_frame s]

theorem build_frame {s t : State} (h : bodyBuild s = .ok t) :
    t = { s with node := t.node, nodeCount := t.nodeCount, root := t.root, symcount := t.symcount, pq := []
                 treeValid := true, tableValid := false } := by
  obtain ⟨u, hu, hf, -⟩ := build_spec s
  rw [h] at hu
  obtain rfl := Except.ok.inj hu
  exact hf

theorem psym_frame {s t : State} (h : bodyPsym s = .ok t) : SameButPacker s t := by
  obtain ⟨_, -, h⟩ := bind_ok h
  obtain ⟨_, -, h⟩ := bind_ok h
  exact packFrom_frame h

theorem thdr_frame {s t : State} (h : bodyThdr s = .ok t) : SameButPacker s t := by
  obtain ⟨_, -, h⟩ := bind_ok h
  exact appendBits_frame h

theorem uinit_frame {s t : State} (h : bodyUinit s = .ok t) :
    s.srcInRange ∧ t = { s with iptr := s.srcAddr, iend := s.srcAddr + s.srcLen, ibit := 0 } := by
  obtain ⟨_, hg, h⟩ := bind_ok h
  exact ⟨by simpa using raiseIf_ok hg, (Except.ok.inj h).symm⟩

theorem getb_frame {n : Nat} {s t : State} (h : bodyGetb n s = .ok t) :
    t = { s with result := t.result, iptr := t.iptr, ibit := t.ibit } := by
  obtain ⟨x, hx, h⟩ := bind_ok h
  have hf := readBitsFrom_frame (orRaise_ok hx)
  obtain rfl := Except.ok.inj h
  dsimp only
  rw [hf.eq]

/-- `t` differs from `s` at most in the unpacker's pointer and bit index and in CTAB. -/
def SameButParser (s t : State) : Prop := { t with iptr := s.iptr, ibit := s.ibit, ctab := s.ctab } = s

theorem SameButParser.trans {s t u : State} (h : SameButParser s t) (k : SameButParser t u) : SameButParser s u := by
  unfold SameButParser at *
  rw [← h, ← k]

theorem SameButUnpacker.parser {s t : State} (h : SameButUnpacker s t) : SameButParser s t := by
  unfold SameButParser
  rw [h.eq]

theorem parseEntry_frame {cnt : Nat} {s t : State} (h : parseEntry cnt s = .ok t) : SameButParser s t := by
  obtain ⟨x, hx, h⟩ := bind_ok h
  obtain ⟨_, -, h⟩ := bind_ok h
  obtain ⟨y, hy, h⟩ := bind_ok h
  obtain ⟨_, -, h⟩ := bind_ok h
  obtain ⟨z, hz, h⟩ := bind_ok h
  have f1 := readBitsFrom_frame (orRaise_ok hx)
  have f2 := readBitsFrom_frame (orRaise_ok hy)
  have f3 := readCode_frame (orRaise_ok hz)
  have f := f1.trans (f2.trans f3)
  obtain rfl := Except.ok.inj h
  unfold SameButParser
  rw [f.eq]
  rfl

theorem parseEntries_frame {cnt n : Nat} {s t : State} (h : parseEntries cnt n s = .ok t) : SameButParser s t := by
  induction n generalizing s with
  | zero => obtain rfl := Except.ok.inj h; rfl
  | succ n ih =>
    obtain ⟨u, hu, h⟩ := bind_ok h
    exact (parseEntry_frame hu).trans (ih h)

theorem parse_frame {s t : State} (h : bodyParse s = .ok t) :
    t = { s with iptr := t.iptr, ibit := t.ibit, ctab := t.ctab, origLen := t.origLen, symcount := t.symcount
                 tableValid := true } := by
  obtain ⟨x, hx, h⟩ := bind_ok h
  obtain ⟨_, -, h⟩ := bind_ok h
  obtain ⟨y, hy, h⟩ := bind_ok h
  obtain ⟨_, -, h⟩ := bind_ok h
  obtain ⟨z, hz, h⟩ := bind_ok h
  obtain ⟨_, -, h⟩ := bind_ok h
  have f1 := readBitsFrom_frame (orRaise_ok hx)
  have f2 := parseEntries_frame hy
  have f3 := readBitsFrom_frame (orRaise_ok hz)
  have f0 : SameButParser s s.clearTable := rfl
  have f : SameButParser s z.2 := (f0.trans f1.parser).trans (f2.trans f3.parser)
  obtain rfl := Except.ok.inj h
  unfold SameButParser at f
  dsimp only
  rw [← f]

theorem SameButPacker.streams {s t : State} (h : SameButPacker s t) : SameButStreams s t := by
  unfold SameButStreams
  rw [h.eq]

theorem SameButUnpacker.streams {s t : State} (h : SameButUnpacker s t) : SameButStreams s t := by
  unfold SameButStreams
  rw [h.eq]

theorem decodeLoop_frame {table : List (Byte × Bits)} {k : Word} {n : Nat} {s t : State} {b : Byte}
    (h : decodeLoop table k n s = .ok (b, t)) : SameButStreams s t := by
  induction n generalizing s with
  | zero => cases h
  | succ n ih =>
    unfold decodeLoop at h
    split at h
    · obtain ⟨-, rfl⟩ := Prod.mk.inj (Except.ok.inj h)
      rfl
    · obtain ⟨_, -, h⟩ := bind_ok h
      cases hr : readBit s with
      | error e => rw [hr] at h; cases h
      | ok y =>
        rw [hr] at h
        have f1 := (readBit_frame (v := y.1) (t := y.2) hr).streams
        have f2 : SameButStreams y.2 { y.2 with dacc := y.2.dacc ++ [y.1] } := rfl
        exact (f1.trans f2).trans (ih h)

theorem decodeFrom_frame {table : List (Byte × Bits)} {k n : Nat} {s t : State} (h : decodeFrom table k n s = .ok t) :
    SameButStreams s t := by
  induction n generalizing k s with
  | zero => obtain rfl := Except.ok.inj h; rfl
  | succ n ih =>
    obtain ⟨x, hx, h⟩ := bind_ok h
    obtain ⟨u, hu, h⟩ := bind_ok h
    have f0 : SameButStreams s { s with dacc := [] } := rfl
    exact ((f0.trans (decodeLoop_frame (b := x.1) (t := x.2) hx)).trans (appendBits_frame hu).streams).trans (ih h)

theorem dsym_frame {s t : State} (h : bodyDsym s = .ok t) : SameButStreams s t ∧ t.dacc = [] ∧ s.tableValid = true := by
  obtain ⟨_, hg, h⟩ := bind_ok h
  obtain ⟨u, hu, h⟩ := bind_ok h
  have f := decodeFrom_frame hu
  obtain rfl := Except.ok.inj h
  refine ⟨?_, rfl, by simpa using raiseIf_ok hg⟩
  unfold SameButStreams at *
  exact f

theorem encode_frame {s t : State} (h : bodyEncode s = .ok t) :
    ∃ u, tableStage s = .ok u ∧ Coded s u ∧
      t = { u with optr := t.optr, acc := t.acc, accN := t.accN, obuf := t.obuf } := by
  obtain ⟨_, hg, h⟩ := bind_ok h
  obtain ⟨s1, h1, h⟩ := bind_ok h
  obtain ⟨s2, h2, h⟩ := bind_ok h
  obtain ⟨s3, h3, h⟩ := bind_ok h
  obtain ⟨s4, h4, h⟩ := bind_ok h
  obtain ⟨s5, h5, h⟩ := bind_ok h
  obtain ⟨s6, h6, h⟩ := bind_ok h
  obtain ⟨s7, h7, h⟩ := bind_ok h
  obtain ⟨u, hu, hc⟩ := tableStage_ok (s := s) (by simpa using raiseIf_ok hg)
  have hst : tableStage s = .ok s4 := by
    unfold tableStage
    rw [h1, ok_bind, h2, ok_bind, h3, ok_bind, h4]
  rw [hst] at hu
  obtain rfl := Except.ok.inj hu
  have f := (thdr_frame h6).trans ((psym_frame h7).trans (flush_frame h))
  refine ⟨s4, hst, hc, ?_⟩
  rw [f.eq, ← Except.ok.inj h5]

theorem decode_frame {s t : State} (h : bodyDecode s = .ok t) :
    ∃ u v, bodyUinit s = .ok u ∧ bodyParse { u with optr := u.dstAddr, acc := 0, accN := 0 } = .ok v ∧
      bodyDsym v = .ok t ∧
      t = { s with iptr := t.iptr, iend := s.srcAddr + s.srcLen, ibit := t.ibit, ctab := t.ctab, origLen := t.origLen
                   symcount := t.symcount, tableValid := true, optr := t.optr, acc := t.acc, accN := t.accN, dacc := []
                   obuf := t.obuf } := by
  unfold bodyDecode at h
  obtain ⟨_, hg, h⟩ := bind_ok h
  obtain ⟨s1, h1, h⟩ := bind_ok (x := bodyUinit s) h
  obtain ⟨s2, h2, h⟩ := bind_ok (x := bodyPinit s1) h
  obtain ⟨s3, h3, h4⟩ := bind_ok (x := bodyParse s2) h
  obtain rfl := Except.ok.inj h2
  refine ⟨s1, s3, h1, h3, h4, ?_⟩
  obtain ⟨f4, hd, -⟩ := dsym_frame h4
  rw [f4.eq, hd, parse_frame h3, (uinit_frame h1).2]

/-! ### Each body: the errors it may raise (R115) -/

theorem count_error {s : State} {r : Raise} (h : bodyCount s = .error r) :
    r.code = .range ∨ r.code = .countOverflow := by
  rcases bind_error h with h | ⟨_, -, h⟩
  · left; rw [(raiseIf_error h).2]
  · rcases bind_error h with h | ⟨_, -, h⟩
    · right; rw [(raiseIf_error h).2]
    · cases h

theorem gen_error {s : State} {r : Raise} (h : bodyGen s = .error r) : r.code = .noTree := by
  rcases bind_error h with h | ⟨_, -, h⟩
  · rw [(raiseIf_error h).2]
  · cases h

theorem packFrom_error {a n : Nat} {s : State} {r : Raise} (h : packFrom a n s = .error r) :
    r.code = .tableMiss ∨ r.code = .obufOverflow := by
  induction n generalizing a s with
  | zero => cases h
  | succ n ih =>
    rcases bind_error h with h | ⟨_, -, h⟩
    · left; rw [(raiseIf_error h).2]
    · rcases bind_error h with h | ⟨_, -, h⟩
      · right; exact appendBits_error h
      · exact ih h

theorem psym_error {s : State} {r : Raise} (h : bodyPsym s = .error r) : r.code ∈ raisable .psym := by
  rcases bind_error h with h | ⟨_, -, h⟩
  · rw [(raiseIf_error h).2]; simp [raisable]
  · rcases bind_error h with h | ⟨_, -, h⟩
    · rw [(raiseIf_error h).2]; simp [raisable]
    · rcases packFrom_error h with e | e <;> simp [raisable, e]

theorem uinit_error {s : State} {r : Raise} (h : bodyUinit s = .error r) : r.code = .range := by
  rcases bind_error h with h | ⟨_, -, h⟩
  · rw [(raiseIf_error h).2]
  · cases h

theorem getb_error {n : Nat} {s : State} {r : Raise} (h : bodyGetb n s = .error r) : r.code = .inExhausted := by
  rcases bind_error h with h | ⟨_, -, h⟩
  · exact orRaise_error h
  · cases h

theorem thdr_error {s : State} {r : Raise} (h : bodyThdr s = .error r) : r.code ∈ raisable .thdr := by
  rcases bind_error h with h | ⟨_, -, h⟩
  · rw [(raiseIf_error h).2]; simp [raisable]
  · rw [appendBits_error h]; simp [raisable]

theorem parseEntry_error {cnt : Nat} {s : State} {r : Raise} (h : parseEntry cnt s = .error r) :
    r.code ∈ raisable .parse := by
  rcases bind_error h with h | ⟨_, -, h⟩
  · rw [orRaise_error h]; simp [raisable]
  rcases bind_error h with h | ⟨_, -, h⟩
  · rw [(raiseIf_error h).2]; simp [raisable]
  rcases bind_error h with h | ⟨_, -, h⟩
  · rw [orRaise_error h]; simp [raisable]
  rcases bind_error h with h | ⟨_, -, h⟩
  · rw [(raiseIf_error h).2]; simp [raisable]
  rcases bind_error h with h | ⟨_, -, h⟩
  · rw [orRaise_error h]; simp [raisable]
  · cases h

theorem parseEntries_error {cnt n : Nat} {s : State} {r : Raise} (h : parseEntries cnt n s = .error r) :
    r.code ∈ raisable .parse := by
  induction n generalizing s with
  | zero => cases h
  | succ n ih =>
    rcases bind_error h with h | ⟨_, -, h⟩
    · exact parseEntry_error h
    · exact ih h

theorem parse_error {s : State} {r : Raise} (h : bodyParse s = .error r) : r.code ∈ raisable .parse := by
  rcases bind_error h with h | ⟨_, -, h⟩
  · rw [orRaise_error h]; simp [raisable]
  rcases bind_error h with h | ⟨_, -, h⟩
  · rw [(raiseIf_error h).2]; simp [raisable]
  rcases bind_error h with h | ⟨s2, -, h⟩
  · exact parseEntries_error h
  rcases bind_error h with h | ⟨_, -, h⟩
  · unfold checkPrefixFree at h
    split at h
    · rw [← Except.error.inj h]; simp [raisable]
    · cases h
  rcases bind_error h with h | ⟨_, -, h⟩
  · rw [orRaise_error h]; simp [raisable]
  rcases bind_error h with h | ⟨_, -, h⟩
  · rw [(raiseIf_error h).2]; simp [raisable]
  · cases h

theorem decodeLoop_error {table : List (Byte × Bits)} {k : Word} {n : Nat} {s : State} {r : Raise}
    (h : decodeLoop table k n s = .error r) : r = ⟨.payTruncated, k⟩ ∨ r = ⟨.payBadCode, k⟩ := by
  induction n generalizing s with
  | zero => right; exact (Except.error.inj h).symm
  | succ n ih =>
    unfold decodeLoop at h
    split at h
    · cases h
    · rcases bind_error h with h | ⟨_, -, h⟩
      · right; exact (raiseIf_error h).2
      · cases hr : readBit s with
        | error e => rw [hr] at h; left; exact (Except.error.inj h).symm
        | ok y => rw [hr] at h; exact ih h

theorem decodeFrom_error {table : List (Byte × Bits)} {k n : Nat} {s : State} {r : Raise}
    (h : decodeFrom table k n s = .error r) : r.code = .payTruncated ∨ r.code = .payBadCode ∨ r.code = .obufOverflow := by
  induction n generalizing k s with
  | zero => cases h
  | succ n ih =>
    rcases bind_error h with h | ⟨_, -, h⟩
    · rcases decodeLoop_error h with e | e <;> simp [e]
    · rcases bind_error h with h | ⟨_, -, h⟩
      · right; right; exact appendBits_error h
      · exact ih h

theorem dsym_error {s : State} {r : Raise} (h : bodyDsym s = .error r) :
    (r.code = .noTable ∧ s.tableValid = false) ∨ r.code = .payTruncated ∨ r.code = .payBadCode ∨ r.code = .obufOverflow := by
  rcases bind_error h with h | ⟨_, -, h⟩
  · left
    obtain ⟨h1, h2⟩ := raiseIf_error h
    exact ⟨by rw [h2], h1⟩
  · rcases bind_error h with h | ⟨_, -, h⟩
    · exact .inr (decodeFrom_error h)
    · cases h

end Sys2Proof.Machine
end

