-- ==== Sys2Proof/Laws/Coding.lean ====
section
/-! SUPPORT. BUILD then GEN: one tree and its table (R81 to R84), a function of HIST alone (R78, R148), and so the table
stage of ENCODE a function of the source alone (R113(e)); the length of a payload (R92). -/

namespace Sys2Proof.Machine

open Sys2Proof Config

/-- BUILD and then GEN on a frequency map with a byte present: one tree, and its table in CTAB. -/
theorem build_gen {s : State} (hne : s.present ≠ []) :
    ∃ t u x, bodyBuild s = .ok t ∧ bodyGen t = .ok u ∧ t.Represents t.root x ∧ x.leaves.Perm s.present ∧
      u.TableIs x.table ∧ (validCodes u.ctab).Perm x.table := by
  obtain ⟨t, hb, ft, -, -, hbuilt⟩ := build_spec s
  obtain ⟨hbt, F, hrep, hl, -⟩ := hbuilt hne
  have hnc := hbt.nodeCount
  have hrt := hbt.root
  have hle := present_length_le s
  rw [present_congr (s := s) (by rw [ft])] at hnc hrt
  have hr : t.root ≠ nilIdx := fun e => by
    rw [e] at hrt
    have : BitVec.toNat nilIdx = 511 := by decide
    omega
  obtain ⟨u, hg, -, -, htab, hperm, -⟩ :=
    gen_spec (by rw [ft]) hr (hrep _ (by omega)) (hl.nodup_iff.2 (present_nodup s))
  exact ⟨t, u, F t.root, hb, hg, hrep _ (by omega), hl, htab, hperm⟩

/-- BUILD and then GEN on the empty map (R79, R81): the empty table. -/
theorem build_gen_empty {s : State} (he : s.present = []) :
    ∃ t u, bodyBuild s = .ok t ∧ bodyGen t = .ok u ∧ ∀ b, u.ctabAt b = CodeEntry.invalid := by
  obtain ⟨t, hb, ft, -, hempty, -⟩ := build_spec s
  have hg := gen_empty (s := t) (by rw [ft]) (hempty he).2
  obtain ⟨u, hu⟩ : ∃ u : State, u = { t.clearTable with symcount := 0, tableValid := true } := ⟨_, rfl⟩
  rw [← hu] at hg
  exact ⟨t, u, hb, hg, fun b => (ctabAt_of_eq (by rw [hu]) b).trans (ctabAt_clearTable t b)⟩

/-- The arena of a built tree, read the same in another state, holds the same tree. -/
theorem Built.represents {t v : State} (hb : t.Built) (h : ∀ i : NodeIdx, i.toNat < t.nodeCount.toNat → v.nodeAt i = t.nodeAt i)
    {x : Tree} {i : NodeIdx} (hi : i.toNat < t.nodeCount.toNat) (hr : t.Represents i x) : v.Represents i x := by
  refine Represents.of_agree h (fun j hj hk => ?_) hi hr
  by_cases hp : j.toNat < t.present.length
  · have := hb.leaf j.toNat hp
    rw [BitVec.ofNat_toNat, BitVec.setWidth_eq] at this
    rw [this] at hk
    cases hk
  · have hm := hb.merge j (by omega) hj
    have h1 := hm.left.1
    have h2 := hm.right.1
    omega

/-- The table BUILD and GEN make is a function of HIST alone (R78, R148). -/
theorem build_gen_congr {s s' t t' u u' : State} (h : s'.hist = s.hist) (hb : bodyBuild s = .ok t) (hg : bodyGen t = .ok u)
    (hb' : bodyBuild s' = .ok t') (hg' : bodyGen t' = .ok u') : u'.ctab = u.ctab := by
  obtain ⟨-, hroot, -, hnode⟩ := build_congr h hb hb'
  have hp := present_congr h
  by_cases hne : s.present = []
  · obtain ⟨t1, u1, h1, h2, h3⟩ := build_gen_empty hne
    obtain ⟨t2, u2, k1, k2, k3⟩ := build_gen_empty (s := s') (hp.trans hne)
    rw [hb] at h1
    obtain rfl := Except.ok.inj h1
    rw [hg] at h2
    obtain rfl := Except.ok.inj h2
    rw [hb'] at k1
    obtain rfl := Except.ok.inj k1
    rw [hg'] at k2
    obtain rfl := Except.ok.inj k2
    exact ctab_ext fun b => (k3 b).trans (h3 b).symm
  · obtain ⟨t1, u1, x, h1, h2, hr, hl, htab, -⟩ := build_gen hne
    rw [hb] at h1
    obtain rfl := Except.ok.inj h1
    rw [hg] at h2
    obtain rfl := Except.ok.inj h2
    obtain ⟨t2, hb2, ft, -, -, hbuilt⟩ := build_spec s
    rw [hb] at hb2
    obtain rfl := Except.ok.inj hb2
    have hbt := (hbuilt hne).1
    have hnc := hbt.nodeCount
    have hrt := hbt.root
    have hr' : t'.Represents t'.root x := by
      rw [hroot]
      exact Built.represents hbt hnode (by omega) hr
    obtain ⟨t3, hb3, ft', -, -, -⟩ := build_spec s'
    rw [hb'] at hb3
    obtain rfl := Except.ok.inj hb3
    have hle := present_length_le s
    rw [present_congr (s := s) (by rw [ft])] at hnc hrt
    have hrn : t'.root ≠ nilIdx := fun e => by
      rw [← hroot, e] at hrt
      have : BitVec.toNat nilIdx = 511 := by decide
      omega
    obtain ⟨u3, hg3, -, -, htab', -⟩ :=
      gen_spec (by rw [ft']) hrn hr' (hl.nodup_iff.2 (present_nodup s))
    rw [hg'] at hg3
    obtain rfl := Except.ok.inj hg3
    exact htab.ctab_eq htab' fun _ => rfl

/-- The table stage of ENCODE, body by body (R110). -/
theorem tableStage_inv {s u : State} (h : tableStage s = .ok u) :
    ∃ s1 s2 s3, bodyHclr s = .ok s1 ∧ bodyCount s1 = .ok s2 ∧ bodyBuild s2 = .ok s3 ∧ bodyGen s3 = .ok u := by
  unfold tableStage at h
  obtain ⟨s1, h1, h⟩ := bind_ok h
  obtain ⟨s2, h2, h⟩ := bind_ok h
  obtain ⟨s3, h3, h⟩ := bind_ok h
  exact ⟨s1, s2, s3, h1, h2, h3, h⟩

/-- The table of ENCODE is a function of the source bytes alone (R113(e), R148). -/
theorem tableStage_congr {s s' u u' : State} (h : s'.source = s.source) (hu : tableStage s = .ok u)
    (hu' : tableStage s' = .ok u') (hc : Coded s u) (hc' : Coded s' u') : u'.ctab = u.ctab := by
  obtain ⟨s1, s2, s3, -, -, h3, h4⟩ := tableStage_inv hu
  obtain ⟨t1, t2, t3, -, -, k3, k4⟩ := tableStage_inv hu'
  refine build_gen_congr (hist_ext fun b => BitVec.eq_of_toNat_eq ?_) h3 h4 k3 k4
  have e1 : s2.hist = u.hist := by rw [(gen_frame h4).2.1, build_frame h3]
  have e2 : t2.hist = u'.hist := by rw [(gen_frame k4).2.1, build_frame k3]
  rw [e1, e2]
  exact (hc'.hist b).trans ((congrArg (List.count b) h).trans (hc.hist b).symm)

theorem sum_at (x : Byte) (n : Nat) (l : List Byte) : (l.map fun b => if b = x then n else 0).sum = l.count x * n := by
  induction l with
  | nil => simp
  | cons b l ih =>
    rw [List.map_cons, List.sum_cons, ih, List.count_cons]
    by_cases hb : b = x
    · subst hb; simp [Nat.add_mul, Nat.add_comm]
    · simp [hb]

/-- A payload has as many bits as its bytes' codes together, each counted as often as its byte occurs (R92). -/
theorem payload_length (code : Byte → Bits) (bs : List Byte) :
    (payload code bs).length = (allBytes.map fun b => bs.count b * (code b).length).sum := by
  induction bs with
  | nil => simp [payload]
  | cons x bs ih =>
    rw [payload_cons, List.length_append, ih]
    have : (allBytes.map fun b => (x :: bs).count b * (code b).length) =
        allBytes.map fun b => bs.count b * (code b).length + if b = x then (code x).length else 0 := by
      refine List.map_congr_left fun b _ => ?_
      rw [List.count_cons]
      by_cases hb : b = x
      · subst hb; simp [Nat.add_mul]
      · simp [hb, Ne.symm hb]
    have one := sum_at x (code x).length allBytes
    rw [List.count_eq_one_of_mem allBytes_nodup (mem_allBytes x), Nat.one_mul] at one
    rw [this, List.sum_map_add, one, Nat.add_comm]

end Sys2Proof.Machine
end

