-- ==== Sys2Proof/Laws/Errors.lean ====
section
/-! SUPPORT. Where PARSE, DSYM and ENCODE raise (R103 to R106, R110), with the ERR_INFO of each (R115, R122). -/

namespace Sys2Proof.Machine

open Sys2Proof Config

/-! ### PARSE -/

/-- A stream cut at a known point: it holds the first part whole, or less than it. -/
theorem append_cases {α : Type} {a m b c : List α} (h : a ++ m = b ++ c) :
    (∃ r, a = b ++ r ∧ r ++ m = c) ∨ a.length < b.length := by
  by_cases hl : b.length ≤ a.length
  · left
    obtain ⟨r, rfl⟩ : b <+: a := List.prefix_of_prefix_length_le ⟨c, h.symm⟩ ⟨m, rfl⟩ hl
    refine ⟨r, rfl, ?_⟩
    rw [List.append_assoc] at h
    exact List.append_cancel_left h
  · exact .inr (by omega)

/-- An entry that the stream cuts short (R103): FMT_TRUNCATED at the end of the input. -/
theorem parseEntry_truncated {s : State} (hu : s.UnpackerOk) {cnt : Nat} {e : Entry} (he : GoodEntry cnt e) {m c : Bits}
    (h : s.inputBits ++ m = e.bits ++ c) (hl : s.inputBits.length < e.bits.length) (hv : (s.ctabAt e.byte).valid = false) :
    parseEntry cnt s = raise .fmtTruncated s.iend := by
  have hcl := he.codeLength
  have hge := wholeBytes_ge e.code.length
  have hel := entry_bits_length e he.padLength
  unfold Entry.bits at h
  simp only [List.append_assoc] at h
  unfold parseEntry orRaise
  rcases append_cases h with ⟨r1, h1, k1⟩ | h1
  · obtain ⟨s1, p1, f1, u1, i1⟩ := readBits_bits hu e.byte.isLt h1
    rw [p1]
    simp only [bind, Except.bind, BitVec.ofNat_toNat, BitVec.setWidth_eq]
    rw [raiseIf_neg (by rw [f1.ctabAt, hv]; simp)]
    have e1 : s1.iend = s.iend := by rw [f1.eq]
    rcases append_cases k1 with ⟨r2, h2, k2⟩ | h2
    · rw [h2] at i1
      obtain ⟨s2, p2, f2, u2, i2⟩ := readBits_bits u1 (n := 8) (by omega) i1
      rw [p2]
      simp only
      rw [raiseIf_neg (by
        rintro ⟨ha, hb⟩
        exact hb (he.zeroLength (List.length_eq_zero_iff.1 ha)))]
      rw [readCode_exhausted u2 (by
        rw [i2]
        rw [h1, h2] at hl
        simp only [List.length_append, bitsMsb_length] at hl
        omega)]
      have e2 : s2.iend = s.iend := by rw [f2.eq, e1]
      rw [e2]
      rfl
    · rw [readBits_exhausted u1 (by rw [i1]; simpa using h2), e1]
      rfl
  · rw [readBits_exhausted hu (by simpa using h1)]
    rfl

/-- Entries that the stream cuts short (R103). -/
theorem parseEntries_truncated {cnt : Nat} {es : List Entry} {s : State} {m : Bits} (hu : s.UnpackerOk)
    (hg : ∀ e ∈ es, GoodEntry cnt e) (hd : (es.map Entry.byte).Nodup)
    (hv : ∀ e ∈ es, (s.ctabAt e.byte).valid = false) (h : s.inputBits ++ m = es.flatMap Entry.bits) (hm : m ≠ []) :
    parseEntries cnt es.length s = raise .fmtTruncated s.iend := by
  induction es generalizing s with
  | nil =>
    rw [List.flatMap_nil, List.append_eq_nil_iff] at h
    exact absurd h.2 hm
  | cons e es ih =>
    rw [List.flatMap_cons] at h
    rw [List.map_cons, List.nodup_cons] at hd
    rw [List.length_cons, parseEntries]
    rcases append_cases h with ⟨r, h1, k1⟩ | h1
    · obtain ⟨u, hpe, hf, huu, hin⟩ := parseEntry_ok hu (hg e List.mem_cons_self) h1 (hv e List.mem_cons_self)
      rw [hpe]
      have e1 : (u.setCode e.byte e.code).iend = s.iend := by
        show u.iend = s.iend
        rw [hf.eq]
      rw [← e1]
      exact ih (s := u.setCode e.byte e.code) huu (fun x hx => hg x (List.mem_cons_of_mem _ hx)) hd.2 (fun x hx => by
        rw [ctabAt_setCode, if_neg, hf.ctabAt]
        · exact hv x (List.mem_cons_of_mem _ hx)
        · intro hxe
          exact hd.1 (hxe ▸ List.mem_map.2 ⟨x, hx, rfl⟩)) (by rw [inputBits_setCode, hin]; exact k1)
    · rw [parseEntry_truncated hu (hg e List.mem_cons_self) h h1 (hv e List.mem_cons_self)]
      rfl

/-- PARSE up to the entries that stand in the stream (R103): the count read, the entries loaded. -/
theorem parse_prefix {s : State} (hu : s.UnpackerOk) {cnt : Nat} (hc : cnt ≤ 256) {es : List Entry} {n : Nat} {rest : Bits}
    (hn : es.length + n = cnt) (hg : ∀ e ∈ es, GoodEntry cnt e) (hd : (es.map Entry.byte).Nodup)
    (h : s.inputBits = bitsMsb cnt 16 ++ es.flatMap Entry.bits ++ rest) :
    ∃ t, SameButUnpacker (s.clearTable.loadEntries es) t ∧ t.UnpackerOk ∧ t.inputBits = rest ∧ t.TableIs (tableOf es) ∧
      bodyParse s = (do
        let s ← parseEntries cnt n t
        checkPrefixFree s
        let (orig, s) ← orRaise .fmtTruncated (readBits 32 s)
        raiseIf (cnt = 0 ∧ orig ≠ 0) .fmtEmptyTable (BitVec.ofNat 32 orig)
        .ok { s with origLen := BitVec.ofNat 32 orig, symcount := BitVec.ofNat 9 cnt, tableValid := true }) := by
  rw [List.append_assoc] at h
  obtain ⟨s1, h1, f1, u1, i1⟩ := readBits_bits (s := s.clearTable) hu (n := 16) (by omega) h
  obtain ⟨s2, h2, f2, u2, i2⟩ := parseEntries_append (n := n) u1 hg hd
    (fun e _ => by rw [f1.ctabAt]; simp [CodeEntry.invalid]) i1
  have hf2 := (f1.loadEntries es).trans f2
  refine ⟨s2, hf2, u2, i2, tableIs_loaded hd (fun e he => (hg e he).codeLength) hf2, ?_⟩
  rw [hn] at h2
  unfold bodyParse
  rw [h1, ← h2]
  simp only [orRaise, bind, Except.bind]
  rw [raiseIf_neg (by omega)]

/-- PARSE on a header cut short (R103): FMT_TRUNCATED at the end of the input. -/
theorem parse_truncated {s : State} (hu : s.UnpackerOk) {es : List Entry} {orig : Nat} {m : Bits} (hl : LegalHeader es orig)
    (h : s.inputBits ++ m = headerStream es orig) (hm : m ≠ []) : bodyParse s = raise .fmtTruncated s.iend := by
  have hcount := hl.count
  unfold headerStream at h
  rw [List.append_assoc] at h
  rcases append_cases h with ⟨r1, h1, k1⟩ | h1
  · rcases append_cases k1 with ⟨r2, h2, k2⟩ | h2
    · obtain ⟨t, hf, hut, hin, htab, hp⟩ := parse_prefix (n := 0) (rest := r2) hu hcount rfl hl.good hl.distinct
        (by rw [h1, h2, List.append_assoc])
      rw [hp, parseEntries]
      have hpf := hl.prefixFree.perm (htab.perm (by rw [tableOf_fst]; exact hl.distinct)).symm
      have hlen : t.inputBits.length < 32 := by
        have := congrArg List.length k2
        rw [List.length_append, bitsMsb_length] at this
        have := List.length_pos_iff.2 hm
        rw [hin]
        omega
      have e1 : t.iend = s.iend := by rw [hf.eq, loadEntries_frame]; rfl
      simp only [bind, Except.bind]
      rw [checkPrefixFree_ok hpf, readBits_exhausted hut hlen, e1]
      rfl
    · obtain ⟨s1, p1, f1, u1, i1⟩ := readBits_bits (s := s.clearTable) hu (n := 16) (by omega) h1
      have hlt : s1.inputBits.length < (es.flatMap Entry.bits).length := by rw [i1]; exact h2
      obtain ⟨m', hm', hne⟩ : ∃ m', s1.inputBits ++ m' = es.flatMap Entry.bits ∧ m' ≠ [] := by
        obtain ⟨x, hx⟩ : s1.inputBits <+: es.flatMap Entry.bits :=
          List.prefix_of_prefix_length_le ⟨m, by rw [i1]; exact k1⟩ ⟨_, rfl⟩ (by omega)
        refine ⟨x, hx, ?_⟩
        rintro rfl
        rw [List.append_nil] at hx
        rw [hx] at hlt
        exact Nat.lt_irrefl _ hlt
      have hpe := parseEntries_truncated u1 hl.good hl.distinct
        (fun e _ => by rw [f1.ctabAt]; simp [CodeEntry.invalid]) hm' hne
      unfold bodyParse
      rw [p1]
      simp only [orRaise, bind, Except.bind]
      rw [raiseIf_neg (by omega), hpe, f1.eq]
      rfl
  · unfold bodyParse
    rw [readBits_exhausted (s := s.clearTable) hu (by rw [bitsMsb_length] at h1; exact h1)]
    rfl

/-- PARSE on a count above 256 (R103). -/
theorem parse_count {s : State} (hu : s.UnpackerOk) {cnt : Nat} (hc : 256 < cnt) (h16 : cnt < 2 ^ 16) {rest : Bits}
    (h : s.inputBits = bitsMsb cnt 16 ++ rest) : bodyParse s = raise .fmtCount (BitVec.ofNat 32 cnt) := by
  obtain ⟨s1, h1, -⟩ := readBits_bits (s := s.clearTable) hu h16 h
  unfold bodyParse
  rw [h1]
  simp only [orRaise, bind, Except.bind]
  rw [raiseIf_pos hc]
  rfl

/-- PARSE on an entry for a byte that has one already (R103). -/
theorem parse_duplicate {s : State} (hu : s.UnpackerOk) {cnt : Nat} (hc : cnt ≤ 256) {es : List Entry} {b : Byte} {rest : Bits}
    (hn : es.length < cnt) (hg : ∀ e ∈ es, GoodEntry cnt e) (hd : (es.map Entry.byte).Nodup) (hb : b ∈ es.map Entry.byte)
    (h : s.inputBits = bitsMsb cnt 16 ++ es.flatMap Entry.bits ++ bitsMsb b.toNat 8 ++ rest) :
    bodyParse s = raise .fmtDupSymbol (BitVec.ofNat 32 b.toNat) := by
  obtain ⟨n, hn⟩ : ∃ n, es.length + (n + 1) = cnt := ⟨cnt - es.length - 1, by omega⟩
  obtain ⟨t, -, hut, hin, htab, hp⟩ := parse_prefix (rest := bitsMsb b.toNat 8 ++ rest) hu hc hn hg hd (by rw [h]; simp)
  obtain ⟨u, h1, f1, -, -⟩ := readBits_bits hut b.isLt hin
  have hv : (u.ctabAt b).valid = true := by
    rw [f1.ctabAt, tableIs_valid htab, tableOf_fst]
    exact hb
  rw [hp, parseEntries, parseEntry, h1]
  simp only [orRaise, bind, Except.bind, BitVec.ofNat_toNat, BitVec.setWidth_eq]
  rw [raiseIf_pos hv]
  rfl

/-- PARSE on an entry of code length 0 among several (R103). -/
theorem parse_zeroLen {s : State} (hu : s.UnpackerOk) {cnt : Nat} (hc : cnt ≤ 256) {es : List Entry} {b : Byte} {rest : Bits}
    (hn : es.length < cnt) (hg : ∀ e ∈ es, GoodEntry cnt e) (hd : (es.map Entry.byte).Nodup) (hb : b ∉ es.map Entry.byte)
    (h1 : cnt ≠ 1) (h : s.inputBits = bitsMsb cnt 16 ++ es.flatMap Entry.bits ++ bitsMsb b.toNat 8 ++ bitsMsb 0 8 ++ rest) :
    bodyParse s = raise .fmtZeroLen (BitVec.ofNat 32 b.toNat) := by
  obtain ⟨n, hn⟩ : ∃ n, es.length + (n + 1) = cnt := ⟨cnt - es.length - 1, by omega⟩
  obtain ⟨t, -, hut, hin, htab, hp⟩ :=
    parse_prefix (rest := bitsMsb b.toNat 8 ++ (bitsMsb 0 8 ++ rest)) hu hc hn hg hd (by rw [h]; simp)
  obtain ⟨u, p1, f1, u1, i1⟩ := readBits_bits hut b.isLt hin
  obtain ⟨v, p2, -, -, -⟩ := readBits_bits u1 (by decide : 0 < 2 ^ 8) i1
  have hv : ¬ (u.ctabAt b).valid = true := by
    rw [f1.ctabAt, tableIs_valid htab, tableOf_fst]
    exact hb
  rw [hp, parseEntries, parseEntry, p1]
  simp only [orRaise, bind, Except.bind, BitVec.ofNat_toNat, BitVec.setWidth_eq]
  rw [raiseIf_neg hv, p2]
  simp only
  rw [raiseIf_pos (And.intro trivial h1)]
  rfl

/-- PARSE on an empty table with a length that is not 0 (R103). -/
theorem parse_empty {s : State} (hu : s.UnpackerOk) {orig : Nat} (h0 : orig ≠ 0) (h32 : orig < 2 ^ 32) {rest : Bits}
    (h : s.inputBits = bitsMsb 0 16 ++ bitsMsb orig 32 ++ rest) :
    bodyParse s = raise .fmtEmptyTable (BitVec.ofNat 32 orig) := by
  obtain ⟨t, -, hut, hin, htab, hp⟩ := parse_prefix (cnt := 0) (es := []) (n := 0) (rest := bitsMsb orig 32 ++ rest) hu (by omega) rfl
    (by simp) (by simp) (by rw [h]; simp)
  have hpf : PrefixFree (validCodes t.ctab) := by
    have hvc := (htab.perm (by simp [tableOf])).length_eq
    rw [List.eq_nil_of_length_eq_zero hvc]
    exact List.Pairwise.nil
  obtain ⟨u, h1, -⟩ := readBits_bits hut h32 hin
  rw [hp, parseEntries]
  simp only [bind, Except.bind]
  rw [checkPrefixFree_ok hpf, h1]
  simp only [orRaise]
  rw [raiseIf_pos (And.intro trivial h0)]
  rfl

/-- The first offending pair of a table in ascending byte order (R104). -/
theorem firstClash_eq {l : List (Byte × Bits)} (hs : l.Pairwise fun x y => x.1.toNat < y.1.toNat) {e f : Byte × Bits}
    (he : e ∈ l) (hf : f ∈ l) (hlt : e.1.toNat < f.1.toNat) (hc : clash e.2 f.2 = true)
    (hmin : ∀ x ∈ l, ∀ y ∈ l, x.1.toNat < y.1.toNat → clash x.2 y.2 = true →
      e.1.toNat < x.1.toNat ∨ e.1 = x.1 ∧ f.1.toNat ≤ y.1.toNat) : firstClash l = some (e.1, f.1) := by
  induction l with
  | nil => cases he
  | cons x rest ih =>
    obtain ⟨hx, hr⟩ := List.pairwise_cons.1 hs
    obtain ⟨b, c⟩ := x
    unfold firstClash
    have hfr : f ∈ rest := by
      rcases List.mem_cons.1 hf with rfl | h
      · exfalso
        rcases List.mem_cons.1 he with rfl | h
        · exact Nat.lt_irrefl _ hlt
        · have := hx e h; omega
      · exact h
    rcases List.mem_cons.1 he with rfl | her
    · have hsome : (rest.find? fun y => clash c y.2).isSome := by
        rw [List.find?_isSome]
        exact ⟨f, hfr, hc⟩
      obtain ⟨y, hy⟩ := Option.isSome_iff_exists.1 hsome
      have hym := List.mem_of_find?_eq_some hy
      have hyc : clash c y.2 = true := by simpa using List.find?_some hy
      have h1 : f.1.toNat ≤ y.1.toNat := by
        rcases hmin (b, c) List.mem_cons_self y (List.mem_cons_of_mem _ hym) (hx y hym) hyc with h | h
        · exact absurd h (Nat.lt_irrefl _)
        · exact h.2
      have h2 : y = f := by
        by_contra hne
        obtain ⟨l1, l2, hl, hno⟩ := (List.find?_eq_some_iff_append.1 hy).2
        rw [hl] at hfr hr
        rcases List.mem_append.1 hfr with hm | hm
        · have := hno f hm
          simp [hc] at this
        · rcases List.mem_cons.1 hm with rfl | hm
          · exact hne rfl
          · have := (List.pairwise_cons.1 (List.pairwise_append.1 hr).2.1).1 f hm
            omega
      rw [hy, h2]
    · have hnone : (rest.find? fun y => clash c y.2) = none := by
        rw [List.find?_eq_none]
        intro y hym hyc
        have h1 := hx e her
        rcases hmin (b, c) List.mem_cons_self y (List.mem_cons_of_mem _ hym) (hx y hym) (by simpa using hyc) with h | h
        · simp only at h h1; omega
        · rw [h.1] at h1; exact Nat.lt_irrefl _ h1
      rw [hnone]
      exact ih hr her hfr fun x hxm y hym => hmin x (List.mem_cons_of_mem _ hxm) y (List.mem_cons_of_mem _ hym)

/-- PARSE on codes of which one is a prefix of another (R104): the first offending pair is reported. -/
theorem parse_clash {s : State} (hu : s.UnpackerOk) {es : List Entry} {rest : Bits} (hc : es.length ≤ 256)
    (hg : ∀ e ∈ es, GoodEntry es.length e) (hd : (es.map Entry.byte).Nodup)
    (h : s.inputBits = bitsMsb es.length 16 ++ es.flatMap Entry.bits ++ rest) {e f : Entry} (he : e ∈ es) (hf : f ∈ es)
    (hlt : e.byte.toNat < f.byte.toNat) (hcl : clash e.code f.code = true)
    (hmin : ∀ x ∈ es, ∀ y ∈ es, x.byte.toNat < y.byte.toNat → clash x.code y.code = true →
      e.byte.toNat < x.byte.toNat ∨ e.byte = x.byte ∧ f.byte.toNat ≤ y.byte.toNat) :
    bodyParse s = raise .fmtNotPrefixFree (BitVec.ofNat 32 (e.byte.toNat + 256 * f.byte.toNat)) := by
  obtain ⟨t, -, -, -, htab, hp⟩ := parse_prefix (n := 0) (rest := rest) hu hc rfl hg hd h
  have hperm := htab.perm (by rw [tableOf_fst]; exact hd)
  have hm : ∀ x, x ∈ validCodes t.ctab ↔ ∃ y ∈ es, (y.byte, y.code) = x := fun x => by
    rw [hperm.mem_iff]
    exact List.mem_map
  have hfc : firstClash (validCodes t.ctab) = some (e.byte, f.byte) := by
    refine firstClash_eq (e := (e.byte, e.code)) (f := (f.byte, f.code)) (validCodes_sorted _) ((hm _).2 ⟨e, he, rfl⟩)
      ((hm _).2 ⟨f, hf, rfl⟩) hlt hcl fun x hx y hy => ?_
    obtain ⟨x', hx', rfl⟩ := (hm x).1 hx
    obtain ⟨y', hy', rfl⟩ := (hm y).1 hy
    exact hmin x' hx' y' hy'
  rw [hp, parseEntries]
  simp only [bind, Except.bind]
  unfold checkPrefixFree
  rw [hfc]
  rfl

/-- PARSE on a header it rejects (R103, R104): the error of that header. -/
theorem parse_badHeader {s : State} (hu : s.UnpackerOk) {e : ErrorCode} {info : Nat} (h : BadHeader s.inputBits e info) :
    bodyParse s = raise e (BitVec.ofNat 32 info) := by
  generalize hin : s.inputBits = bits at h
  cases h with
  | count _ rest hc h16 => exact parse_count hu hc h16 hin
  | duplicate cnt es b rest hc hn hg hd hb => exact parse_duplicate hu hc hn hg hd hb hin
  | zeroLength cnt es b rest hc hn hg hd hb h1 =>
    exact parse_zeroLen hu hc hn hg hd hb h1 (by rw [bitsMsb_zero]; exact hin)
  | clash es x y rest hc hg hd hx hy hlt hcl hfirst =>
    exact parse_clash hu hc hg hd hin hx hy hlt ((clash_true _ _).2 hcl)
      fun a ha b hb hab hc => hfirst a ha b hb hab ((clash_true _ _).1 hc)
  | emptyTable _ rest h0 h32 => exact parse_empty hu (by omega) h32 (by rw [bitsMsb_zero]; exact hin)

/-! ### DSYM -/

/-- DSYM's loop when the bytes of the symbols `bs` do not fit (R87, R106). -/
theorem decodeFrom_overflow {table : List (Byte × Bits)} (ht : PrefixFree table) (code : Byte → Bits) {bs : List Byte}
    (hm : ∀ b ∈ bs, (b, code b) ∈ table) (k n : Nat) {rest : Bits} {s : State} (hu : s.UnpackerOk) (hp : s.PackerOk)
    (h : s.inputBits = payload code bs ++ rest) (hr : ¬ s.Room (unpackBytes bs)) :
    decodeFrom table k (bs.length + n) s =
      raise .obufOverflow (BitVec.ofNat 32 (max s.optr.toNat s.params.obufSize)) := by
  induction bs generalizing s k with
  | nil => exact absurd (.inl (by unfold State.bytesDone; have := hp.1; simp; omega)) hr
  | cons b bs ih =>
    rw [payload_cons, List.append_assoc] at h
    rw [unpackBytes_cons] at hr
    rw [List.length_cons, show bs.length + 1 + n = (bs.length + n) + 1 by omega]
    by_cases hr1 : s.Room (bitsMsb b.toNat 8)
    · obtain ⟨u, hd, hfu, huu, hin, hpu⟩ := decodeFrom_step ht (hm b List.mem_cons_self) k (bs.length + n) hu hp h hr1
      have hpar : u.params = s.params := by rw [hfu.eq]
      have h1 := hpu.bytesDone (unpackBytes bs)
      have h2 := hpu.1
      rw [hd, ih (fun x hx => hm x (List.mem_cons_of_mem _ hx)) (k + 1) huu hpu.2.2.1 hin (fun h3 => hr (by
        unfold State.Room at h3 hr1 ⊢
        rw [hpar] at h3
        omega)), hpar]
      congr 2
      unfold State.Room at hr1
      omega
    · obtain ⟨u, hd, hfu, huu, hin⟩ := decodeSymbol_code ht (hm b List.mem_cons_self) k hu h
      have e := hfu.eq
      have hpu : u.PackerOk := by rw [e]; exact hp
      have hru : ¬ u.Room (bitsMsb b.toNat 8) := fun h3 => hr1 (Room.of_eq h3 (by rw [e]) (by rw [e]) (by rw [e]))
      rw [decodeFrom, hd]
      show (appendBits (bitsMsb b.toNat 8) u >>= decodeFrom table (k + 1) (bs.length + n)) = _
      rw [appendBits_overflow hpu hru, e]
      rfl

/-- DSYM's loop after the symbols `bs` (R106): it raises what decode_symbol raises at the next one. -/
theorem decodeFrom_raise {table : List (Byte × Bits)} (ht : PrefixFree table) (code : Byte → Bits) {bs : List Byte}
    (hm : ∀ b ∈ bs, (b, code b) ∈ table) (k : Nat) {n : Nat} (hn : bs.length < n) {rest : Bits} {s : State}
    (hu : s.UnpackerOk) (hp : s.PackerOk) (h : s.inputBits = payload code bs ++ rest) (hr : s.Room (unpackBytes bs))
    {e : ErrorCode} {info : Word}
    (hs : ∀ t : State, t.UnpackerOk → t.inputBits = rest → decodeSymbol table (k + bs.length) t = raise e info) :
    decodeFrom table k n s = raise e info := by
  obtain ⟨m, rfl⟩ : ∃ m, n = bs.length + (m + 1) := ⟨n - bs.length - 1, by omega⟩
  obtain ⟨t, hd, -, hut, hin, -⟩ := decodeFrom_append ht code hm k (m + 1) hu hp h hr
  rw [hd, decodeFrom, hs t hut hin]
  rfl

/-- DSYM with a table (R106): its loop. -/
theorem dsym_raise {s : State} (hv : s.tableValid = true) {r : Raise}
    (h : decodeFrom (validCodes s.ctab) 0 s.origLen.toNat s = .error r) : bodyDsym s = .error r := by
  unfold bodyDsym
  rw [raiseIf_neg (by simp [hv])]
  show (decodeFrom (validCodes s.ctab) 0 s.origLen.toNat s >>= _) = _
  rw [h]
  rfl

/-! ### ENCODE -/

/-- ENCODE whose container does not fit (R110, R145): OBUF_OVERFLOW. -/
theorem encode_overflow {s u : State} (hr : s.srcInRange) (hu : tableStage s = .ok u) (hc : Coded s u)
    (hno : s.params.obufSize < s.dstAddr.toNat + containerLength (validCodes u.ctab) (payload u.codeOf s.source).length) :
    bodyEncode s = raise .obufOverflow (BitVec.ofNat 32 (max s.dstAddr.toNat s.params.obufSize)) := by
  have e := hc.frame
  obtain ⟨p, hp⟩ : ∃ p : State, p = { u with optr := u.dstAddr, acc := 0, accN := 0 } := ⟨_, rfl⟩
  rw [encode_eq hr hu, ← hp]
  have hpo : p.optr = s.dstAddr := by rw [hp, e]
  have hpn : p.accN = 0 := by rw [hp]
  have hpp : p.params = s.params := by rw [hp, e]
  have hpk : p.PackerOk := by unfold State.PackerOk; rw [show p.acc = 0 by rw [hp], hpn]; decide
  have hpct : p.ctab = u.ctab := by rw [hp]
  have hol : p.origLen = s.srcLen := by rw [hp, e]
  have hpv : p.tableValid = true := by rw [hp, e]
  have hn0 : p.accN.toNat = 0 := by rw [hpn]; rfl
  have hhl := headerBits_length (validCodes u.ctab) s.srcLen.toNat
  have h1 : bodyThdr p = appendBits (headerBits (validCodes u.ctab) s.srcLen.toNat) p := by
    unfold bodyThdr
    rw [raiseIf_neg (by simp [hpv]), hpct, hol]
    rfl
  rw [h1]
  by_cases hr1 : p.Room (headerBits (validCodes u.ctab) s.srcLen.toNat)
  · obtain ⟨q, hq, hfq, hpq⟩ := appendBits_ok hpk hr1
    rw [hq]
    show (bodyPsym q >>= fun s => flush s) = _
    have hqi : q.ibufBytes q.srcAddr.toNat q.srcLen.toNat = s.source := by rw [hfq.eq, hp, e]; rfl
    have hqc : q.codeOf = u.codeOf := by rw [hfq.eq, hp]; rfl
    have hqv : ∀ b ∈ q.ibufBytes q.srcAddr.toNat q.srcLen.toNat, (q.ctabAt b).valid = true := fun b hb => by
      rw [hqi] at hb
      rw [hfq.ctabAt, show p.ctabAt b = u.ctabAt b from ctabAt_of_eq hpct b]
      exact (hc.valid b).2 hb
    have hqp : q.params = s.params := hfq.params.trans hpp
    have hdone : p.bytesDone (headerBits (validCodes u.ctab) s.srcLen.toNat) ≠ 0 := by
      unfold State.bytesDone; omega
    have hle : s.dstAddr.toNat ≤ q.optr.toNat ∧ q.optr.toNat ≤ s.params.obufSize := by
      have a := hpq.1
      unfold State.Room at hr1
      rw [hpo] at a hr1
      rw [hpp] at hr1
      omega
    have hps : bodyPsym q = packFrom q.srcAddr.toNat (q.srcLen.toNat + 0) q := by
      unfold bodyPsym
      rw [raiseIf_neg (by rw [hfq.eq]; simp [hpv]), raiseIf_neg (by
        have : q.srcInRange := by rw [hfq.eq, hp, e]; exact hr
        simpa using this)]
      rfl
    rw [hps]
    by_cases hr2 : q.Room (payload q.codeOf (q.ibufBytes q.srcAddr.toNat q.srcLen.toNat))
    · obtain ⟨r, hrr, hfr, hpr⟩ := packFrom_ok hpq.2.2.1 hqv hr2
      rw [Nat.add_zero, hrr]
      show flush r = _
      rw [hqi, hqc] at hr2 hpr
      have hall := hpq.trans hpr
      have hacc := hall.accN
      have hopt := hall.1
      have hrp := hfr.params.trans hqp
      rw [hn0, List.length_append] at hacc
      unfold State.bytesDone at hopt
      rw [hn0, List.length_append, hpo] at hopt
      have hroom : s.dstAddr.toNat + (0 + ((headerBits (validCodes u.ctab) s.srcLen.toNat).length +
          (payload u.codeOf s.source).length)) / 8 ≤ s.params.obufSize := by
        have := (Room.append_iff hpq hfq hr1).2 hr2
        unfold State.Room State.bytesDone at this
        rw [hn0, List.length_append, hpo, hpp] at this
        omega
      unfold containerLength at hno
      have h8 := hpr.2.2.1.1
      rcases flush_eq (s := r) with hfl | hfl
      · rw [hfl, appendBits_overflow hpr.2.2.1 (fun hr3 => by
          unfold State.Room State.bytesDone at hr3
          rw [zeros_length, hrp, hopt] at hr3
          omega), hrp, hopt]
        congr 2
        omega
      · omega
    · rw [packFrom_overflow 0 hpq.2.2.1 hqv hr2, hqp]
      have : max q.optr.toNat s.params.obufSize = max s.dstAddr.toNat s.params.obufSize := by omega
      rw [this]
      rfl
  · rw [appendBits_overflow hpk hr1, hpo, hpp]
    rfl

end Sys2Proof.Machine
end

