-- ==== Sys2Proof/Laws/Exec.lean ====
section
/-! SUPPORT. Every command as one body and its end (R114): what a command can do (its body's result, or an error of R115
taken), and the invariants its body keeps (R33, R38, R39, R40, R45 to R47, R50). -/

namespace Sys2Proof.Machine

open Sys2Proof Config

/-- The body of each command. -/
def bodyOf (i : Instr) (s : State) : Except Raise State :=
  match i with
  | .nop => .ok s
  | .sreset => .ok s.softReset
  | .hclr => bodyHclr s
  | .count => bodyCount s
  | .build => bodyBuild s
  | .gen => bodyGen s
  | .pinit => bodyPinit s
  | .putb n => appendBits (bitsMsb s.arg.toNat n.toNat) s
  | .psym => bodyPsym s
  | .pflush => flush s
  | .uinit => bodyUinit s
  | .getb n => bodyGetb n.toNat s
  | .ualign => .ok (if s.ibit ≠ 0 then { s with ibit := 0, iptr := s.iptr + 1 } else s)
  | .thdr => bodyThdr s
  | .parse => bodyParse s
  | .dsym => bodyDsym s
  | .encode => bodyEncode s
  | .decode => bodyDecode s

/-- A command is its body, and then its result or the error it raised taken (R114). -/
theorem exec_eq (i : Instr) (s : State) : exec i s = s.finish (bodyOf i s) := by
  cases i <;> rfl

theorem exec_ok {i : Instr} {s t : State} (h : bodyOf i s = .ok t) : exec i s = .next t := by
  rw [exec_eq, h]
  rfl

theorem exec_error {i : Instr} {s : State} {r : Raise} (h : bodyOf i s = .error r) : exec i s = .next (s.takeError r) := by
  rw [exec_eq, h]
  rfl

/-- Every command completes (R133), with its body's result or with an error. -/
theorem exec_cases (i : Instr) (s : State) :
    (∃ t, bodyOf i s = .ok t ∧ exec i s = .next t) ∨ ∃ r, bodyOf i s = .error r ∧ exec i s = .next (s.takeError r) := by
  cases h : bodyOf i s with
  | ok t => exact .inl ⟨t, rfl, exec_ok h⟩
  | error r => exact .inr ⟨r, rfl, exec_error h⟩

@[simp] theorem State.takeError_err (s : State) (r : Raise) : (s.takeError r).err = true := rfl
@[simp] theorem State.takeError_errcode (s : State) (r : Raise) : (s.takeError r).errcode = errorNumber r.code := rfl
@[simp] theorem State.takeError_errInfo (s : State) (r : Raise) : (s.takeError r).errInfo = r.info := rfl

/-! ### Frames -/

theorem SameButDatapath.trans {s t u : State} (h : SameButDatapath s t) (k : SameButDatapath t u) :
    SameButDatapath s u := by
  unfold SameButDatapath at *
  rw [← h, ← k]

theorem SameButStreams.datapath {s t : State} (h : SameButStreams s t) : SameButDatapath s t := by
  unfold SameButDatapath
  rw [h.eq]

theorem SameButPacker.datapath {s t : State} (h : SameButPacker s t) : SameButDatapath s t := h.streams.datapath

theorem Coded.datapath {s u : State} (h : Coded s u) : SameButDatapath s u := by
  unfold SameButDatapath
  rw [h.frame]

/-- No command but SRESET writes anything the host owns, the error state, or IBUF. -/
theorem body_frame {i : Instr} {s t : State} (hi : i ≠ .sreset) (h : bodyOf i s = .ok t) : SameButDatapath s t := by
  cases i with
  | sreset => exact absurd rfl hi
  | nop => obtain rfl := Except.ok.inj h; rfl
  | hclr => obtain rfl := Except.ok.inj h; rfl
  | count => unfold SameButDatapath; rw [count_frame h]
  | build => unfold SameButDatapath; rw [build_frame h]
  | gen => unfold SameButDatapath; rw [(gen_frame h).2.1]
  | pinit => obtain rfl := Except.ok.inj h; rfl
  | putb n => exact (appendBits_frame h).datapath
  | psym => exact (psym_frame h).datapath
  | pflush => exact (flush_frame h).datapath
  | uinit => unfold SameButDatapath; rw [(uinit_frame h).2]
  | getb n => unfold SameButDatapath; rw [getb_frame h]
  | ualign =>
    obtain rfl := Except.ok.inj h
    unfold SameButDatapath
    split <;> rfl
  | thdr => exact (thdr_frame h).datapath
  | parse => unfold SameButDatapath; rw [parse_frame h]
  | dsym => exact (dsym_frame h).1.datapath
  | encode =>
    obtain ⟨u, -, hc, hf⟩ := encode_frame h
    refine hc.datapath.trans ?_
    unfold SameButDatapath
    rw [hf]
  | decode =>
    obtain ⟨u, v, -, -, -, hf⟩ := decode_frame h
    unfold SameButDatapath
    rw [hf]

/-- ENCODE's errors (R110): RANGE where its range check fails, and else OBUF_OVERFLOW alone. -/
theorem encode_error {s : State} {r : Raise} (h : bodyEncode s = .error r) :
    (¬ s.srcInRange ∧ r = ⟨.range, s.srcAddr⟩) ∨ s.srcInRange ∧ r.code = .obufOverflow := by
  unfold bodyEncode at h
  rcases bind_error h with h | ⟨_, hg, h⟩
  · exact .inl (raiseIf_error h)
  have hin : s.srcInRange := by simpa using raiseIf_ok hg
  refine .inr ⟨hin, ?_⟩
  obtain ⟨u, hu, hc⟩ := tableStage_ok hin
  have h' : (tableStage s >>= fun s => bodyPinit s >>= fun s => bodyThdr s >>= fun s => bodyPsym s >>= fun s => flush s) =
      .error r := by
    rw [← h]
    unfold tableStage
    simp only [bind_assoc]
  rw [hu, ok_bind] at h'
  rcases bind_error h' with h | ⟨p, hp, h'⟩
  · cases h
  obtain rfl := Except.ok.inj hp
  have hv : u.tableValid = true := by rw [hc.frame]
  rcases bind_error h' with h | ⟨q, hq, h'⟩
  · rcases bind_error h with h | ⟨_, -, h⟩
    · have := (raiseIf_error h).1
      rw [show u.tableValid = false from this] at hv
      cases hv
    · exact appendBits_error h
  have fq := thdr_frame hq
  rcases bind_error h' with h | ⟨w, -, h'⟩
  · rcases bind_error h with h | ⟨_, -, h⟩
    · have := (raiseIf_error h).1
      rw [fq.eq] at this
      rw [show u.tableValid = false from this] at hv
      cases hv
    · rcases bind_error h with h | ⟨_, -, h⟩
      · have := (raiseIf_error h).1
        rw [fq.eq, hc.frame] at this
        exact absurd hin this
      · have hall : ∀ n a (x : State), x.ctab = u.ctab → (∀ b ∈ x.ibufBytes a n, (u.ctabAt b).valid = true) →
            packFrom a n x = .error r → r.code = .obufOverflow := fun n => by
          induction n with
          | zero => intro a x _ _ hx; cases hx
          | succ n ih =>
            intro a x hx hall hp
            rw [ibufBytes_succ] at hall
            rcases bind_error hp with h | ⟨_, -, hp⟩
            · have := (raiseIf_error h).1
              rw [ctabAt_of_eq hx, hall _ List.mem_cons_self] at this
              cases this
            · rcases bind_error hp with h | ⟨y, hy, hp⟩
              · exact appendBits_error h
              · have fy := appendBits_frame hy
                refine ih (a + 1) y (by rw [fy.eq]; exact hx) (fun b hb => hall b (List.mem_cons_of_mem _ ?_)) hp
                rw [ibufBytes_congr (s := x) (t := y) (by rw [fy.eq])] at hb
                exact hb
        refine hall _ _ q (by rw [fq.eq]) (fun b hb => ?_) h
        refine (hc.valid b).2 ?_
        rw [fq.eq, hc.frame] at hb
        exact hb
  · exact flush_error h'

/-- DECODE's errors (R111): RANGE where its range check fails, and else one of PARSE's, or one of DSYM's but NO_TABLE. -/
theorem decode_error {s : State} {r : Raise} (h : bodyDecode s = .error r) :
    (¬ s.srcInRange ∧ r = ⟨.range, s.srcAddr⟩) ∨ s.srcInRange ∧
      (r.code ∈ raisable .parse ∨ r.code = .payTruncated ∨ r.code = .payBadCode ∨ r.code = .obufOverflow) := by
  unfold bodyDecode at h
  rcases bind_error h with h | ⟨_, hg, h⟩
  · exact .inl (raiseIf_error h)
  have hin : s.srcInRange := by simpa using raiseIf_ok hg
  refine .inr ⟨hin, ?_⟩
  rcases bind_error h with h | ⟨u, -, h⟩
  · rcases bind_error h with h | ⟨_, -, h⟩
    · exact absurd hin (raiseIf_error h).1
    · cases h
  rcases bind_error h with h | ⟨p, -, h⟩
  · cases h
  rcases bind_error h with h | ⟨v, hv, h⟩
  · exact .inl (parse_error h)
  · rcases dsym_error h with ⟨-, e⟩ | e
    · have := congrArg State.tableValid (parse_frame hv)
      rw [e] at this
      cases this
    · exact .inr e

/-- The errors a command raises are those R115 lists for it. -/
theorem body_error {i : Instr} {s : State} {r : Raise} (h : bodyOf i s = .error r) : r.code ∈ raisable i := by
  cases i with
  | nop => cases h
  | sreset => cases h
  | hclr => cases h
  | build => cases h
  | pinit => cases h
  | ualign => cases h
  | count => rcases count_error h with e | e <;> simp [raisable, e]
  | gen => simp [raisable, gen_error h]
  | putb n => simp [raisable, appendBits_error h]
  | psym => exact psym_error h
  | pflush => simp [raisable, flush_error h]
  | uinit => simp [raisable, uinit_error h]
  | getb n => simp [raisable, getb_error h]
  | thdr => exact thdr_error h
  | parse => exact parse_error h
  | dsym => rcases dsym_error h with ⟨e, -⟩ | e | e | e <;> simp [raisable, e]
  | encode => rcases encode_error h with ⟨-, e⟩ | ⟨-, e⟩ <;> simp [raisable, e]
  | decode =>
    rcases decode_error h with ⟨-, e⟩ | ⟨-, e | e | e | e⟩
    · simp [raisable, e]
    · simp only [raisable, List.mem_cons, List.not_mem_nil, or_false] at e ⊢
      tauto
    · simp [raisable, e]
    · simp [raisable, e]
    · simp [raisable, e]

/-! ### Invariants of the packer and the unpacker -/

theorem appendBits_inv {bs : Bits} {s t : State} (hp : s.PackerOk) (h : appendBits bs s = .ok t) :
    s.Room bs ∧ Packed s t bs := by
  by_cases hr : s.Room bs
  · obtain ⟨u, hu, -, hpu⟩ := appendBits_ok hp hr
    rw [h] at hu
    obtain rfl := Except.ok.inj hu
    exact ⟨hr, hpu⟩
  · rw [appendBits_overflow hp hr] at h
    cases h

theorem appendBits_packerOk {bs : Bits} {s t : State} (hp : s.PackerOk) (h : appendBits bs s = .ok t) : t.PackerOk :=
  (appendBits_inv hp h).2.2.2.1

theorem flush_packerOk {s t : State} (hp : s.PackerOk) (h : flush s = .ok t) : t.PackerOk := by
  unfold flush at h
  split at h
  · exact appendBits_packerOk hp h
  · obtain rfl := Except.ok.inj h
    exact hp

theorem packFrom_packerOk {a n : Nat} {s t : State} (hp : s.PackerOk) (h : packFrom a n s = .ok t) : t.PackerOk := by
  induction n generalizing a s with
  | zero => obtain rfl := Except.ok.inj h; exact hp
  | succ n ih =>
    obtain ⟨_, -, h⟩ := bind_ok h
    obtain ⟨u, hu, h⟩ := bind_ok h
    exact ih (appendBits_packerOk hp hu) h

theorem readBit_unpackerOk {s t : State} {v : Bool} (hu : s.UnpackerOk) (h : readBit s = .ok (v, t)) : t.UnpackerOk := by
  cases hi : s.inputBits with
  | nil => rw [readBit_exhausted hu hi] at h; cases h
  | cons w rest =>
    obtain ⟨u, hr, -, huu, -⟩ := readBit_ok hu hi
    rw [h] at hr
    obtain ⟨-, rfl⟩ := Prod.mk.inj (Except.ok.inj hr)
    exact huu

/-- DSYM's loop keeps both streams' invariants. -/
theorem decodeLoop_ok {table : List (Byte × Bits)} {k : Word} {n : Nat} {s t : State} {b : Byte} (hu : s.UnpackerOk)
    (hp : s.PackerOk) (h : decodeLoop table k n s = .ok (b, t)) : t.UnpackerOk ∧ t.PackerOk := by
  induction n generalizing s with
  | zero => cases h
  | succ n ih =>
    unfold decodeLoop at h
    split at h
    · obtain ⟨-, rfl⟩ := Prod.mk.inj (Except.ok.inj h)
      exact ⟨hu, hp⟩
    · obtain ⟨_, -, h⟩ := bind_ok h
      cases hr : readBit s with
      | error e => rw [hr] at h; cases h
      | ok y =>
        rw [hr] at h
        have hy := readBit_unpackerOk (v := y.1) (t := y.2) hu hr
        have fy := readBit_frame (v := y.1) (t := y.2) hr
        exact ih (s := { y.2 with dacc := y.2.dacc ++ [y.1] }) hy (by
          have : y.2.PackerOk := by rw [fy.eq]; exact hp
          exact this) h

theorem decodeFrom_ok {table : List (Byte × Bits)} {k n : Nat} {s t : State} (hu : s.UnpackerOk)
    (hp : s.PackerOk) (h : decodeFrom table k n s = .ok t) : t.UnpackerOk ∧ t.PackerOk := by
  induction n generalizing k s with
  | zero => obtain rfl := Except.ok.inj h; exact ⟨hu, hp⟩
  | succ n ih =>
    obtain ⟨x, hx, h⟩ := bind_ok h
    obtain ⟨u, huu, h⟩ := bind_ok h
    have h1 := decodeLoop_ok (s := { s with dacc := [] }) (b := x.1) (t := x.2) hu hp hx
    exact ih ((appendBits_frame huu).unpackerOk h1.1) (appendBits_packerOk h1.2 huu) h

theorem dsym_streams {s t : State} (hu : s.UnpackerOk) (hp : s.PackerOk) (h : bodyDsym s = .ok t) :
    t.UnpackerOk ∧ t.PackerOk := by
  obtain ⟨_, -, h⟩ := bind_ok h
  obtain ⟨u, hd, h⟩ := bind_ok h
  have := decodeFrom_ok hu hp hd
  obtain rfl := Except.ok.inj h
  exact this

theorem PackerOk.of_eq {s t : State} (h : s.PackerOk) (ha : t.acc = s.acc) (hn : t.accN = s.accN) : t.PackerOk := by
  unfold State.PackerOk at *
  rw [ha, hn]
  exact h

theorem UnpackerOk.of_eq {s t : State} (h : s.UnpackerOk) (hp : t.params = s.params) (hi : t.iptr = s.iptr)
    (he : t.iend = s.iend) (hb : t.ibit = s.ibit) : t.UnpackerOk := by
  unfold State.UnpackerOk at *
  rw [hp, hi, he, hb]
  exact h

/-- Every body keeps the packer's invariant (R38). -/
theorem body_packerOk {i : Instr} {s t : State} (hp : s.PackerOk) (hu : s.UnpackerOk) (h : bodyOf i s = .ok t) :
    t.PackerOk := by
  cases i with
  | nop => obtain rfl := Except.ok.inj h; exact hp
  | sreset => obtain rfl := Except.ok.inj h; exact packerOk_zero rfl rfl
  | hclr => obtain rfl := Except.ok.inj h; exact hp
  | count => rw [count_frame h]; exact hp
  | build => rw [build_frame h]; exact hp
  | gen => rw [(gen_frame h).2.1]; exact hp
  | pinit => obtain rfl := Except.ok.inj h; exact packerOk_zero rfl rfl
  | putb n => exact appendBits_packerOk hp h
  | psym =>
    obtain ⟨_, -, h⟩ := bind_ok h
    obtain ⟨_, -, h⟩ := bind_ok h
    exact packFrom_packerOk hp h
  | pflush => exact flush_packerOk hp h
  | uinit => rw [(uinit_frame h).2]; exact hp
  | getb n => rw [getb_frame h]; exact hp
  | ualign =>
    obtain rfl := Except.ok.inj h
    split <;> exact hp
  | thdr =>
    obtain ⟨_, -, h⟩ := bind_ok h
    exact appendBits_packerOk hp h
  | parse => rw [parse_frame h]; exact hp
  | dsym => exact (dsym_streams hu hp h).2
  | encode =>
    unfold bodyOf bodyEncode at h
    obtain ⟨_, -, h⟩ := bind_ok h
    obtain ⟨s1, -, h⟩ := bind_ok h
    obtain ⟨s2, -, h⟩ := bind_ok h
    obtain ⟨s3, -, h⟩ := bind_ok h
    obtain ⟨s4, -, h⟩ := bind_ok (x := bodyGen s3) h
    obtain ⟨s5, h5, h⟩ := bind_ok (x := bodyPinit s4) h
    obtain ⟨s6, h6, h⟩ := bind_ok (x := bodyThdr s5) h
    obtain ⟨s7, h7, h8⟩ := bind_ok (x := bodyPsym s6) h
    have p5 : s5.PackerOk := by rw [← Except.ok.inj h5]; exact packerOk_zero rfl rfl
    obtain ⟨_, -, h6⟩ := bind_ok h6
    obtain ⟨_, -, h7⟩ := bind_ok h7
    obtain ⟨_, -, h7⟩ := bind_ok h7
    exact flush_packerOk (packFrom_packerOk (appendBits_packerOk p5 h6) h7) h8
  | decode =>
    obtain ⟨u, v, hu', hv, hd, -⟩ := decode_frame h
    obtain ⟨w, hw, -, hwu, -⟩ := uinit_ok (uinit_frame hu').1
    rw [hu'] at hw
    obtain rfl := Except.ok.inj hw
    obtain ⟨es, orig, -, -, hpv⟩ := parse_inv (s := { u with optr := u.dstAddr, acc := 0, accN := 0 }) hwu hv
    exact (dsym_streams hpv.unpacker (by rw [hpv.frame]; exact packerOk_zero rfl rfl) hd).2

/-- Every body keeps the unpacker's invariant (R39, R40). -/
theorem body_unpackerOk {i : Instr} {s t : State} (hp : s.PackerOk) (hu : s.UnpackerOk) (h : bodyOf i s = .ok t) :
    t.UnpackerOk := by
  cases i with
  | nop => obtain rfl := Except.ok.inj h; exact hu
  | sreset =>
    obtain rfl := Except.ok.inj h
    exact ⟨Nat.le_refl _, Nat.zero_le _, fun _ => rfl⟩
  | hclr => obtain rfl := Except.ok.inj h; exact hu
  | count => rw [count_frame h]; exact hu
  | build => rw [build_frame h]; exact hu
  | gen => rw [(gen_frame h).2.1]; exact hu
  | pinit => obtain rfl := Except.ok.inj h; exact hu
  | putb n => exact (appendBits_frame h).unpackerOk hu
  | psym => exact (psym_frame h).unpackerOk hu
  | pflush => exact (flush_frame h).unpackerOk hu
  | uinit =>
    obtain ⟨w, hw, -, hwu, -⟩ := uinit_ok (uinit_frame h).1
    rw [show bodyUinit s = .ok t from h] at hw
    obtain rfl := Except.ok.inj hw
    exact hwu
  | getb n =>
    obtain ⟨x, hx, h⟩ := bind_ok h
    have := (readBits_inv (r := x.1) (t := x.2) hu (orRaise_ok hx)).2.2.2
    obtain rfl := Except.ok.inj h
    exact this
  | ualign =>
    obtain rfl := Except.ok.inj h
    split
    · rename_i hb
      have hlt : s.iptr.toNat < s.iend.toNat := by
        refine Nat.lt_of_le_of_ne hu.1 fun e => hb (hu.2.2 (BitVec.eq_of_toNat_eq e))
      have hi := s.iend.isLt
      have h1 : (1 : Word).toNat = 1 := by decide
      refine ⟨?_, hu.2.1, fun _ => rfl⟩
      show (s.iptr + 1).toNat ≤ s.iend.toNat
      rw [BitVec.toNat_add]
      omega
    · exact hu
  | thdr => exact (thdr_frame h).unpackerOk hu
  | parse =>
    obtain ⟨es, orig, -, -, hpv⟩ := parse_inv hu h
    exact hpv.unpacker
  | dsym => exact (dsym_streams hu hp h).1
  | encode =>
    obtain ⟨u, -, hc, hf⟩ := encode_frame h
    have e : t.params = s.params ∧ t.iptr = s.iptr ∧ t.iend = s.iend ∧ t.ibit = s.ibit := by
      rw [hf, hc.frame]
      exact ⟨rfl, rfl, rfl, rfl⟩
    exact UnpackerOk.of_eq hu e.1 e.2.1 e.2.2.1 e.2.2.2
  | decode =>
    obtain ⟨u, v, hu', hv, hd, -⟩ := decode_frame h
    obtain ⟨w, hw, -, hwu, -⟩ := uinit_ok (uinit_frame hu').1
    rw [hu'] at hw
    obtain rfl := Except.ok.inj hw
    obtain ⟨es, orig, -, -, hpv⟩ := parse_inv (s := { u with optr := u.dstAddr, acc := 0, accN := 0 }) hwu hv
    exact (dsym_streams hpv.unpacker (by rw [hpv.frame]; exact packerOk_zero rfl rfl) hd).1

/-! ### The invariants of HIST, the tree and the table -/

theorem histOk_of_eq {s t : State} (h : s.HistOk) (hh : t.hist = s.hist) (ht : t.htotal = s.htotal) : t.HistOk := by
  unfold State.HistOk State.histSum at *
  rw [hh, ht]
  exact h

theorem histOk_zero {s : State} (hh : ∀ b, s.histAt b = 0) (ht : s.htotal = 0) : s.HistOk := by
  unfold State.HistOk
  rw [histSum_eq, ht]
  symm
  refine List.sum_eq_zero fun x hx => ?_
  obtain ⟨b, -, rfl⟩ := List.mem_map.1 hx
  rw [hh]
  rfl

theorem histAt_zero (s : State) (h : s.hist = Vector.replicate 256 0) (b : Byte) : s.histAt b = 0 := by
  simp [State.histAt, h]

/-- COUNT keeps HTOTAL = Σ HIST (R33). -/
theorem count_histOk {s t : State} (hs : s.HistOk) (h : bodyCount s = .ok t) :
    t.HistOk ∧ (∀ b, (t.histAt b).toNat = (s.histAt b).toNat + s.source.count b) ∧
      t.htotal.toNat = s.htotal.toNat + s.srcLen.toNat := by
  have h' := h
  obtain ⟨_, h1, h⟩ := bind_ok h
  obtain ⟨_, h2, h⟩ := bind_ok h
  have hle : s.htotal.toNat + s.srcLen.toNat ≤ maxTotal := by have := raiseIf_ok h2; omega
  have hmax : maxTotal < 2 ^ 32 := by decide
  rw [count_ok (by simpa using raiseIf_ok h1) hle] at h'
  obtain ⟨hb, hsum⟩ := countFrom_histSum (a := s.srcAddr.toNat) (n := s.srcLen.toNat) (s := s) (by
    unfold State.HistOk at hs; omega)
  have htot : (s.htotal + s.srcLen).toNat = s.htotal.toNat + s.srcLen.toNat := by
    rw [BitVec.toNat_add]
    exact Nat.mod_eq_of_lt (by omega)
  obtain rfl := Except.ok.inj h'
  refine ⟨?_, hb, htot⟩
  unfold State.HistOk at *
  show (s.htotal + s.srcLen).toNat = (countFrom s.srcAddr.toNat s.srcLen.toNat s).histSum
  rw [htot, hsum, hs]

theorem hclr_histOk {s t : State} (h : bodyHclr s = .ok t) : t.HistOk := by
  obtain rfl := Except.ok.inj h
  exact histOk_zero (histAt_zero _ rfl) rfl

/-- Every body keeps HTOTAL = Σ HIST (R33). -/
theorem body_histOk {i : Instr} {s t : State} (hs : s.HistOk) (h : bodyOf i s = .ok t) : t.HistOk := by
  cases i with
  | nop => obtain rfl := Except.ok.inj h; exact hs
  | sreset => obtain rfl := Except.ok.inj h; exact histOk_zero (histAt_zero _ rfl) rfl
  | hclr => exact hclr_histOk h
  | count => exact (count_histOk hs h).1
  | build => rw [build_frame h]; exact hs
  | gen => rw [(gen_frame h).2.1]; exact hs
  | pinit => obtain rfl := Except.ok.inj h; exact hs
  | putb n => rw [(appendBits_frame h).eq]; exact hs
  | psym => rw [(psym_frame h).eq]; exact hs
  | pflush => rw [(flush_frame h).eq]; exact hs
  | uinit => rw [(uinit_frame h).2]; exact hs
  | getb n => rw [getb_frame h]; exact hs
  | ualign =>
    obtain rfl := Except.ok.inj h
    split <;> exact hs
  | thdr => rw [(thdr_frame h).eq]; exact hs
  | parse => rw [parse_frame h]; exact hs
  | dsym => rw [(dsym_frame h).1.eq]; exact hs
  | encode =>
    obtain ⟨u, hu, hc, hf⟩ := encode_frame h
    obtain ⟨s1, h1, hu⟩ := bind_ok hu
    obtain ⟨s2, h2, hu⟩ := bind_ok hu
    obtain ⟨s3, h3, hu⟩ := bind_ok hu
    have a := (count_histOk (hclr_histOk h1) h2).1
    rw [hf]
    have e : u.hist = s2.hist ∧ u.htotal = s2.htotal := by
      rw [(gen_frame hu).2.1, build_frame h3]
      exact ⟨rfl, rfl⟩
    exact histOk_of_eq a e.1 e.2
  | decode =>
    obtain ⟨u, v, -, -, -, hf⟩ := decode_frame h
    rw [hf]
    exact hs

theorem treeOk_of_eq {s t : State} (h : s.TreeOk) (hv : t.treeValid = s.treeValid) (hn : t.node = s.node)
    (hr : t.root = s.root) : t.TreeOk := by
  unfold State.TreeOk at *
  rw [hv, hr]
  intro hv'
  rcases h hv' with h | ⟨x, hx, hd⟩
  · exact .inl h
  · exact .inr ⟨x, Represents.of_node hn hx, hd⟩

theorem treeOk_false {t : State} (h : t.treeValid = false) : t.TreeOk := fun h' => by rw [h] at h'; cases h'

/-- BUILD leaves the empty tree or a tree with distinct leaves (R45, R77). -/
theorem build_treeOk {s t : State} (h : bodyBuild s = .ok t) : t.TreeOk := by
  obtain ⟨u, hu, -, -, he, hb⟩ := build_spec s
  rw [h] at hu
  obtain rfl := Except.ok.inj hu
  intro _
  by_cases hp : s.present = []
  · exact .inl (he hp).2
  · obtain ⟨hbt, F, hrep, hl, -⟩ := hb hp
    have h1 := hbt.nodeCount
    have h2 := hbt.root
    exact .inr ⟨F t.root, hrep _ (by omega), hl.nodup_iff.2 (present_nodup s)⟩

/-- Every body keeps the tree's invariant (R45). -/
theorem body_treeOk {i : Instr} {s t : State} (hs : s.TreeOk) (h : bodyOf i s = .ok t) : t.TreeOk := by
  cases i with
  | nop => obtain rfl := Except.ok.inj h; exact hs
  | sreset => obtain rfl := Except.ok.inj h; exact treeOk_false rfl
  | hclr => obtain rfl := Except.ok.inj h; exact treeOk_false rfl
  | count => exact treeOk_false (by rw [count_frame h])
  | build => exact build_treeOk h
  | gen => exact treeOk_of_eq hs (by rw [(gen_frame h).2.1]) (by rw [(gen_frame h).2.1]) (by rw [(gen_frame h).2.1])
  | pinit => obtain rfl := Except.ok.inj h; exact treeOk_of_eq hs rfl rfl rfl
  | putb n => have f := appendBits_frame h; exact treeOk_of_eq hs (by rw [f.eq]) (by rw [f.eq]) (by rw [f.eq])
  | psym => have f := psym_frame h; exact treeOk_of_eq hs (by rw [f.eq]) (by rw [f.eq]) (by rw [f.eq])
  | pflush => have f := flush_frame h; exact treeOk_of_eq hs (by rw [f.eq]) (by rw [f.eq]) (by rw [f.eq])
  | uinit => have f := (uinit_frame h).2; exact treeOk_of_eq hs (by rw [f]) (by rw [f]) (by rw [f])
  | getb n => have f := getb_frame h; exact treeOk_of_eq hs (by rw [f]) (by rw [f]) (by rw [f])
  | ualign =>
    obtain rfl := Except.ok.inj h
    split
    · exact treeOk_of_eq hs rfl rfl rfl
    · exact hs
  | thdr => have f := thdr_frame h; exact treeOk_of_eq hs (by rw [f.eq]) (by rw [f.eq]) (by rw [f.eq])
  | parse => have f := parse_frame h; exact treeOk_of_eq hs (by rw [f]) (by rw [f]) (by rw [f])
  | dsym => have f := (dsym_frame h).1; exact treeOk_of_eq hs (by rw [f.eq]) (by rw [f.eq]) (by rw [f.eq])
  | encode =>
    obtain ⟨u, hu, hc, hf⟩ := encode_frame h
    obtain ⟨s1, h1, hu⟩ := bind_ok hu
    obtain ⟨s2, h2, hu⟩ := bind_ok hu
    obtain ⟨s3, h3, hu⟩ := bind_ok hu
    have f := (gen_frame hu).2.1
    exact treeOk_of_eq (build_treeOk h3) (by rw [hf, f]) (by rw [hf, f]) (by rw [hf, f])
  | decode =>
    obtain ⟨u, v, -, -, -, hf⟩ := decode_frame h
    exact treeOk_of_eq hs (by rw [hf]) (by rw [hf]) (by rw [hf])

theorem tableOk_of_eq {s t : State} (h : s.TableOk) (hc : t.ctab = s.ctab) (hv : t.tableValid = s.tableValid)
    (hn : t.symcount = s.symcount) : t.TableOk := by
  unfold State.TableOk at *
  rw [hc, hv, hn]
  exact ⟨fun b hb => by rw [ctabAt_of_eq hc] at hb ⊢; exact h.1 b hb, h.2⟩

theorem validCodes_clear (s : State) : validCodes s.clearTable.ctab = [] := by
  cases hl : validCodes s.clearTable.ctab with
  | nil => rfl
  | cons e rest =>
    have hm : (e.1, e.2) ∈ validCodes s.clearTable.ctab := by rw [hl]; exact List.mem_cons_self
    rw [mem_validCodes] at hm
    have := ctabAt_clearTable s e.1
    unfold State.ctabAt at this
    rw [hm] at this
    cases this

/-- GEN leaves a prefix-free table that SYMCOUNT counts (R46, R82). -/
theorem gen_tableOk {s t : State} (ht : s.TreeOk) (h : bodyGen s = .ok t) : t.TableOk := by
  have hv := (gen_frame h).1
  by_cases hn : s.root = nilIdx
  · rw [gen_empty hv hn] at h
    obtain ⟨w, hw⟩ : ∃ w : State, w = { s.clearTable with symcount := 0, tableValid := true } := ⟨_, rfl⟩
    rw [← hw] at h
    obtain rfl := Except.ok.inj h
    have hc : w.ctab = s.clearTable.ctab := by rw [hw]
    refine ⟨fun b _ => by rw [ctabAt_of_eq hc, ctabAt_clearTable]; rfl, fun _ => ?_⟩
    rw [hc, validCodes_clear, hw]
    exact ⟨List.Pairwise.nil, rfl⟩
  · rcases ht hv with e | ⟨x, hx, hd⟩
    · exact absurd e hn
    · obtain ⟨u, hu, -, -, htab, hperm, hsy⟩ := gen_spec hv hn hx hd
      rw [h] at hu
      obtain rfl := Except.ok.inj hu
      refine ⟨fun b hb => tableIs_invalid htab b hb, fun _ => ⟨(Tree.table_prefixFree _).perm hperm.symm, ?_⟩⟩
      rw [hsy, hperm.length_eq, ← Tree.table_fst, List.length_map]

/-- A parsed header leaves a prefix-free table that SYMCOUNT counts (R46, R103). -/
theorem Parsed.tableOk {s t : State} {es : List Entry} {orig : Nat} {rest : Bits} (h : Parsed s es orig rest t)
    (hl : LegalHeader es orig) : t.TableOk := by
  have hd : ((tableOf es).map Prod.fst).Nodup := by rw [tableOf_fst]; exact hl.distinct
  have hperm := h.table.perm hd
  refine ⟨fun b hb => tableIs_invalid h.table b hb, fun _ => ⟨hl.prefixFree.perm hperm.symm, ?_⟩⟩
  have hle := hl.count
  have hsy : t.symcount = BitVec.ofNat 9 es.length := by rw [h.frame]
  rw [hperm.length_eq, hsy, BitVec.toNat_ofNat]
  unfold tableOf
  rw [List.length_map]
  exact Nat.mod_eq_of_lt (by omega)

/-- Every body keeps the table's invariant (R46). -/
theorem body_tableOk {i : Instr} {s t : State} (ht : s.TreeOk) (hu : s.UnpackerOk) (hs : s.TableOk)
    (h : bodyOf i s = .ok t) : t.TableOk := by
  cases i with
  | nop => obtain rfl := Except.ok.inj h; exact hs
  | sreset =>
    obtain rfl := Except.ok.inj h
    refine ⟨fun b _ => ?_, fun h => by cases h⟩
    rw [show s.softReset.ctabAt b = CodeEntry.invalid from by simp [State.ctabAt]]
    rfl
  | hclr => obtain rfl := Except.ok.inj h; exact tableOk_of_eq hs rfl rfl rfl
  | count => have f := count_frame h; exact tableOk_of_eq hs (by rw [f]) (by rw [f]) (by rw [f])
  | build =>
    have f := build_frame h
    exact ⟨fun b hb => by rw [ctabAt_of_eq (s := s) (by rw [f])] at hb ⊢; exact hs.1 b hb, fun hv => by rw [f] at hv; cases hv⟩
  | gen => exact gen_tableOk ht h
  | pinit => obtain rfl := Except.ok.inj h; exact tableOk_of_eq hs rfl rfl rfl
  | putb n => have f := appendBits_frame h; exact tableOk_of_eq hs (by rw [f.eq]) (by rw [f.eq]) (by rw [f.eq])
  | psym => have f := psym_frame h; exact tableOk_of_eq hs (by rw [f.eq]) (by rw [f.eq]) (by rw [f.eq])
  | pflush => have f := flush_frame h; exact tableOk_of_eq hs (by rw [f.eq]) (by rw [f.eq]) (by rw [f.eq])
  | uinit => have f := (uinit_frame h).2; exact tableOk_of_eq hs (by rw [f]) (by rw [f]) (by rw [f])
  | getb n => have f := getb_frame h; exact tableOk_of_eq hs (by rw [f]) (by rw [f]) (by rw [f])
  | ualign =>
    obtain rfl := Except.ok.inj h
    split
    · exact tableOk_of_eq hs rfl rfl rfl
    · exact hs
  | thdr => have f := thdr_frame h; exact tableOk_of_eq hs (by rw [f.eq]) (by rw [f.eq]) (by rw [f.eq])
  | parse =>
    obtain ⟨es, orig, hl, -, hp⟩ := parse_inv hu h
    exact hp.tableOk hl
  | dsym => have f := (dsym_frame h).1; exact tableOk_of_eq hs (by rw [f.eq]) (by rw [f.eq]) (by rw [f.eq])
  | encode =>
    obtain ⟨u, -, hc, hf⟩ := encode_frame h
    have hu' : u.TableOk := ⟨hc.invalid, fun _ => ⟨hc.prefixFree, hc.symcount⟩⟩
    exact tableOk_of_eq hu' (by rw [hf]) (by rw [hf]) (by rw [hf])
  | decode =>
    obtain ⟨u, v, hu', hv, hd, hf⟩ := decode_frame h
    obtain ⟨w, hw, -, hwu, -⟩ := uinit_ok (uinit_frame hu').1
    rw [hu'] at hw
    obtain rfl := Except.ok.inj hw
    obtain ⟨es, orig, hl, -, hp⟩ := parse_inv (s := { u with optr := u.dstAddr, acc := 0, accN := 0 }) hwu hv
    have f := (dsym_frame hd).1
    exact tableOk_of_eq (hp.tableOk hl) (by rw [f.eq]) (by rw [f.eq]) (by rw [f.eq])

/-- Every body leaves the hidden state empty (R47). -/
theorem body_hiddenEmpty {i : Instr} {s t : State} (hs : s.HiddenEmpty) (h : bodyOf i s = .ok t) : t.HiddenEmpty := by
  obtain ⟨hp, hw, hd⟩ := hs
  cases i with
  | nop => obtain rfl := Except.ok.inj h; exact ⟨hp, hw, hd⟩
  | sreset => obtain rfl := Except.ok.inj h; exact ⟨rfl, rfl, rfl⟩
  | hclr => obtain rfl := Except.ok.inj h; exact ⟨hp, hw, hd⟩
  | count => rw [count_frame h]; exact ⟨hp, hw, hd⟩
  | build => rw [build_frame h]; exact ⟨rfl, hw, hd⟩
  | gen =>
    have hg := gen_frame h
    have e : t.pq = s.pq ∧ t.dacc = s.dacc := by rw [hg.2.1]; exact ⟨rfl, rfl⟩
    exact ⟨e.1.trans hp, hg.2.2 hw, e.2.trans hd⟩
  | pinit => obtain rfl := Except.ok.inj h; exact ⟨hp, hw, hd⟩
  | putb n => rw [(appendBits_frame h).eq]; exact ⟨hp, hw, hd⟩
  | psym => rw [(psym_frame h).eq]; exact ⟨hp, hw, hd⟩
  | pflush => rw [(flush_frame h).eq]; exact ⟨hp, hw, hd⟩
  | uinit => rw [(uinit_frame h).2]; exact ⟨hp, hw, hd⟩
  | getb n => rw [getb_frame h]; exact ⟨hp, hw, hd⟩
  | ualign =>
    obtain rfl := Except.ok.inj h
    split <;> exact ⟨hp, hw, hd⟩
  | thdr => rw [(thdr_frame h).eq]; exact ⟨hp, hw, hd⟩
  | parse => rw [parse_frame h]; exact ⟨hp, hw, hd⟩
  | dsym =>
    have f := dsym_frame h
    have e : t.pq = s.pq ∧ t.wstack = s.wstack := by rw [f.1.eq]; exact ⟨rfl, rfl⟩
    exact ⟨e.1.trans hp, e.2.trans hw, f.2.1⟩
  | encode =>
    obtain ⟨u, -, hc, hf⟩ := encode_frame h
    have e : u.dacc = s.dacc := by rw [hc.frame]
    rw [hf]
    exact ⟨hc.pq, hc.wstack hw, e.trans hd⟩
  | decode =>
    obtain ⟨u, v, -, -, -, hf⟩ := decode_frame h
    rw [hf]
    exact ⟨hp, hw, rfl⟩

/-! ### Memory -/

theorem memoryOk_of_eq {s t : State} (h : s.MemoryOk) (hp : t.params = s.params) (hi : t.ibuf = s.ibuf)
    (ho : t.obuf = s.obuf) : t.MemoryOk := by
  unfold State.MemoryOk at *
  rw [hp, hi, ho]
  exact h

theorem appendBit_memoryOk {v : Bool} {s t : State} (hm : s.MemoryOk) (h : appendBit v s = .ok t) : t.MemoryOk := by
  unfold appendBit at h
  dsimp only at h
  split at h
  · obtain ⟨_, hg, h⟩ := bind_ok h
    have hlt := raiseIf_ok hg
    obtain rfl := Except.ok.inj h
    exact ⟨hm.1, Memory.wf_set hm.2 (by omega) _⟩
  · obtain rfl := Except.ok.inj h
    exact hm

theorem appendBits_memoryOk {bs : Bits} {s t : State} (hm : s.MemoryOk) (h : appendBits bs s = .ok t) : t.MemoryOk := by
  induction bs generalizing s with
  | nil => obtain rfl := Except.ok.inj h; exact hm
  | cons v rest ih =>
    obtain ⟨u, hu, h⟩ := bind_ok (x := appendBit v s) h
    exact ih (appendBit_memoryOk hm hu) h

theorem flush_memoryOk {s t : State} (hm : s.MemoryOk) (h : flush s = .ok t) : t.MemoryOk := by
  unfold flush at h
  split at h
  · exact appendBits_memoryOk hm h
  · obtain rfl := Except.ok.inj h
    exact hm

theorem packFrom_memoryOk {a n : Nat} {s t : State} (hm : s.MemoryOk) (h : packFrom a n s = .ok t) : t.MemoryOk := by
  induction n generalizing a s with
  | zero => obtain rfl := Except.ok.inj h; exact hm
  | succ n ih =>
    obtain ⟨_, -, h⟩ := bind_ok h
    obtain ⟨u, hu, h⟩ := bind_ok h
    exact ih (appendBits_memoryOk hm hu) h

theorem decodeLoop_obuf {table : List (Byte × Bits)} {k : Word} {n : Nat} {s t : State} {b : Byte}
    (h : decodeLoop table k n s = .ok (b, t)) : t.obuf = s.obuf := by
  induction n generalizing s with
  | zero => cases h
  | succ n ih =>
    unfold decodeLoop at h
    split at h
    · obtain ⟨-, rfl⟩ := Prod.mk.inj (Except.ok.inj h)
      rfl
    · obtain ⟨_, -, h⟩ := bind_ok h
      cases hr : readBit s with
      | error e => rw [hr] at h; cases h
      | ok y =>
        rw [hr] at h
        have fy := readBit_frame (v := y.1) (t := y.2) hr
        exact (ih (s := { y.2 with dacc := y.2.dacc ++ [y.1] }) h).trans (by
          show y.2.obuf = s.obuf
          rw [fy.eq])

theorem decodeFrom_memoryOk {table : List (Byte × Bits)} {k n : Nat} {s t : State} (hm : s.MemoryOk)
    (h : decodeFrom table k n s = .ok t) : t.MemoryOk := by
  induction n generalizing k s with
  | zero => obtain rfl := Except.ok.inj h; exact hm
  | succ n ih =>
    obtain ⟨x, hx, h⟩ := bind_ok h
    obtain ⟨u, hu, h⟩ := bind_ok h
    have f := decodeLoop_frame (b := x.1) (t := x.2) hx
    have ho := decodeLoop_obuf (b := x.1) (t := x.2) hx
    refine ih (appendBits_memoryOk (s := x.2) ?_ hu) h
    exact memoryOk_of_eq hm (by rw [f.eq]) (by rw [f.eq]) ho

theorem dsym_memoryOk {s t : State} (hm : s.MemoryOk) (h : bodyDsym s = .ok t) : t.MemoryOk := by
  obtain ⟨_, -, h⟩ := bind_ok h
  obtain ⟨u, hu, h⟩ := bind_ok h
  have := decodeFrom_memoryOk hm hu
  obtain rfl := Except.ok.inj h
  exact this

/-- Every body keeps the canonical form of both buffers (R50). -/
theorem body_memoryOk {i : Instr} {s t : State} (hm : s.MemoryOk) (h : bodyOf i s = .ok t) : t.MemoryOk := by
  cases i with
  | nop => obtain rfl := Except.ok.inj h; exact hm
  | sreset => obtain rfl := Except.ok.inj h; exact hm
  | hclr => obtain rfl := Except.ok.inj h; exact hm
  | count => rw [count_frame h]; exact hm
  | build => rw [build_frame h]; exact hm
  | gen => rw [(gen_frame h).2.1]; exact hm
  | pinit => obtain rfl := Except.ok.inj h; exact hm
  | putb n => exact appendBits_memoryOk hm h
  | psym =>
    obtain ⟨_, -, h⟩ := bind_ok h
    obtain ⟨_, -, h⟩ := bind_ok h
    exact packFrom_memoryOk hm h
  | pflush => exact flush_memoryOk hm h
  | uinit => rw [(uinit_frame h).2]; exact hm
  | getb n => rw [getb_frame h]; exact hm
  | ualign =>
    obtain rfl := Except.ok.inj h
    split <;> exact hm
  | thdr =>
    obtain ⟨_, -, h⟩ := bind_ok h
    exact appendBits_memoryOk hm h
  | parse => rw [parse_frame h]; exact hm
  | dsym => exact dsym_memoryOk hm h
  | encode =>
    unfold bodyOf bodyEncode at h
    obtain ⟨_, -, h⟩ := bind_ok h
    obtain ⟨s1, h1, h⟩ := bind_ok h
    obtain ⟨s2, h2, h⟩ := bind_ok h
    obtain ⟨s3, h3, h⟩ := bind_ok h
    obtain ⟨s4, h4, h⟩ := bind_ok (x := bodyGen s3) h
    obtain ⟨s5, h5, h⟩ := bind_ok (x := bodyPinit s4) h
    obtain ⟨s6, h6, h⟩ := bind_ok (x := bodyThdr s5) h
    obtain ⟨s7, h7, h8⟩ := bind_ok (x := bodyPsym s6) h
    have e5 : s5.params = s.params ∧ s5.ibuf = s.ibuf ∧ s5.obuf = s.obuf := by
      rw [← Except.ok.inj h5, (gen_frame h4).2.1, build_frame h3, count_frame h2, ← Except.ok.inj h1]
      exact ⟨rfl, rfl, rfl⟩
    obtain ⟨_, -, h6⟩ := bind_ok h6
    obtain ⟨_, -, h7⟩ := bind_ok h7
    obtain ⟨_, -, h7⟩ := bind_ok h7
    exact flush_memoryOk (packFrom_memoryOk (appendBits_memoryOk (memoryOk_of_eq hm e5.1 e5.2.1 e5.2.2) h6) h7) h8
  | decode =>
    obtain ⟨u, v, hu, hv, hd, -⟩ := decode_frame h
    have ev : v.params = s.params ∧ v.ibuf = s.ibuf ∧ v.obuf = s.obuf := by
      rw [parse_frame hv, (uinit_frame hu).2]
      exact ⟨rfl, rfl, rfl⟩
    exact dsym_memoryOk (memoryOk_of_eq hm ev.1 ev.2.1 ev.2.2) hd

theorem takeError_memoryOk {s : State} (hm : s.MemoryOk) (r : Raise) : (s.takeError r).MemoryOk := by
  unfold State.takeError
  split
  · exact ⟨hm.1, Memory.wf_drawn _ _⟩
  · exact hm

end Sys2Proof.Machine
end

