-- ==== Sys2Proof/Laws/PerInstr.lean ====
section
/-! SUPPORT. The encoded word of each command, against its row of spec/opcode_table.json (30_encoding.md R61 to R63). -/

namespace Sys2Proof.Laws.EncodeFormat

open Sys2Proof

/-- The mask and the match of a command's row. -/
def row : Instr → Word × Word
  | .nop => (0xFFFF_FFFF#32, 0x0000_0000#32)
  | .sreset => (0xFFFF_FFFF#32, 0x0000_0001#32)
  | .hclr => (0xFFFF_FFFF#32, 0x0000_0010#32)
  | .count => (0xFFFF_FFFF#32, 0x0000_0011#32)
  | .build => (0xFFFF_FFFF#32, 0x0000_0020#32)
  | .gen => (0xFFFF_FFFF#32, 0x0000_0021#32)
  | .pinit => (0xFFFF_FFFF#32, 0x0000_0030#32)
  | .putb _ => (0xFFFF_C0FF#32, 0x0000_0031#32)
  | .psym => (0xFFFF_FFFF#32, 0x0000_0032#32)
  | .pflush => (0xFFFF_FFFF#32, 0x0000_0033#32)
  | .uinit => (0xFFFF_FFFF#32, 0x0000_0038#32)
  | .getb _ => (0xFFFF_C0FF#32, 0x0000_0039#32)
  | .ualign => (0xFFFF_FFFF#32, 0x0000_003A#32)
  | .thdr => (0xFFFF_FFFF#32, 0x0000_0040#32)
  | .parse => (0xFFFF_FFFF#32, 0x0000_0041#32)
  | .dsym => (0xFFFF_FFFF#32, 0x0000_0042#32)
  | .encode => (0xFFFF_FFFF#32, 0x0000_0050#32)
  | .decode => (0xFFFF_FFFF#32, 0x0000_0051#32)

/-- The field N of a command (R62); 0 where it has none. -/
def operand : Instr → BitVec 6
  | .putb n => n
  | .getb n => n
  | .nop => 0
  | .sreset => 0
  | .hclr => 0
  | .count => 0
  | .build => 0
  | .gen => 0
  | .pinit => 0
  | .psym => 0
  | .pflush => 0
  | .uinit => 0
  | .ualign => 0
  | .thdr => 0
  | .parse => 0
  | .dsym => 0
  | .encode => 0
  | .decode => 0

/-- The encoded word matches the command's row, with the operand in bits 13:8. -/
def Statement (i : Instr) : Prop := encode i &&& (row i).1 = (row i).2 ∧ field (encode i) 13 8 = operand i

theorem nop : Statement .nop := by unfold Statement; decide
theorem sreset : Statement .sreset := by unfold Statement; decide
theorem hclr : Statement .hclr := by unfold Statement; decide
theorem count : Statement .count := by unfold Statement; decide
theorem build : Statement .build := by unfold Statement; decide
theorem gen : Statement .gen := by unfold Statement; decide
theorem pinit : Statement .pinit := by unfold Statement; decide
theorem putb (n : BitVec 6) : Statement (.putb n) := by unfold Statement; revert n; decide
theorem psym : Statement .psym := by unfold Statement; decide
theorem pflush : Statement .pflush := by unfold Statement; decide
theorem uinit : Statement .uinit := by unfold Statement; decide
theorem getb (n : BitVec 6) : Statement (.getb n) := by unfold Statement; revert n; decide
theorem ualign : Statement .ualign := by unfold Statement; decide
theorem thdr : Statement .thdr := by unfold Statement; decide
theorem parse : Statement .parse := by unfold Statement; decide
theorem dsym : Statement .dsym := by unfold Statement; decide
theorem encode : Statement .encode := by unfold Statement; decide
theorem decode : Statement .decode := by unfold Statement; decide

end Sys2Proof.Laws.EncodeFormat
end

