-- ==== Sys2Proof/Laws/Unspecified.lean ====
section
/-! SUPPORT. Races and abandoned commands (R58, R132): the checks a command makes first, the results it writes, and all that
a race or an abandonment can leave. -/

namespace Sys2Proof.Machine

open Sys2Proof Config

theorem preconditions_error_of {i : Instr} {s : State} {r0 : Raise} (hp : preconditions i s = .error r0)
    (hb : bodyOf i s = .error r0) (h0 : isExecutionError r0.code = false) {r : Raise} :
    preconditions i s = .error r ↔ bodyOf i s = .error r ∧ isExecutionError r.code = false := by
  rw [hp, hb]
  refine ⟨fun h => ?_, fun h => by rw [Except.error.inj h.1]⟩
  obtain rfl := Except.error.inj h
  exact ⟨rfl, h0⟩

theorem preconditions_ok_of {i : Instr} {s : State} (hp : preconditions i s = .ok ())
    (hb : ∀ r, bodyOf i s = .error r → isExecutionError r.code = true) {r : Raise} :
    preconditions i s = .error r ↔ bodyOf i s = .error r ∧ isExecutionError r.code = false := by
  rw [hp]
  refine ⟨fun h => (by cases h), fun h => ?_⟩
  rw [hb r h.1] at h
  cases h.2

/-- The preconditions of a command fail exactly where its body raises a precondition error, with that error (R116, R121). -/
theorem preconditions_error (i : Instr) (s : State) (r : Raise) :
    preconditions i s = .error r ↔ bodyOf i s = .error r ∧ isExecutionError r.code = false := by
  have hexec : ∀ {r : Raise}, (∀ e ∈ raisable i, isExecutionError e = true) → bodyOf i s = .error r →
      isExecutionError r.code = true := fun h hb => h _ (body_error hb)
  cases i with
  | nop => exact preconditions_ok_of rfl fun r => hexec (by decide)
  | sreset => exact preconditions_ok_of rfl fun r => hexec (by decide)
  | hclr => exact preconditions_ok_of rfl fun r => hexec (by decide)
  | build => exact preconditions_ok_of rfl fun r => hexec (by decide)
  | pinit => exact preconditions_ok_of rfl fun r => hexec (by decide)
  | putb n => exact preconditions_ok_of rfl fun r => hexec (by simp [raisable, isExecutionError])
  | pflush => exact preconditions_ok_of rfl fun r => hexec (by decide)
  | getb n => exact preconditions_ok_of rfl fun r => hexec (by simp [raisable, isExecutionError])
  | ualign => exact preconditions_ok_of rfl fun r => hexec (by decide)
  | parse => exact preconditions_ok_of rfl fun r => hexec (by decide)
  | count =>
    by_cases hr : ¬ s.srcInRange
    · exact preconditions_error_of (r0 := ⟨.range, s.srcAddr⟩) (by unfold preconditions; dsimp only; rw [raiseIf_pos hr]; rfl)
        (by unfold bodyOf bodyCount; dsimp only; rw [raiseIf_pos hr]; rfl) rfl
    · by_cases ho : s.htotal.toNat + s.srcLen.toNat > maxTotal
      · exact preconditions_error_of (r0 := ⟨.countOverflow, s.htotal⟩)
          (by unfold preconditions; dsimp only; rw [raiseIf_neg hr, ok_bind, raiseIf_pos ho]; rfl)
          (by unfold bodyOf bodyCount; dsimp only; rw [raiseIf_neg hr, ok_bind, raiseIf_pos ho]; rfl) rfl
      · refine preconditions_ok_of (by unfold preconditions; dsimp only; rw [raiseIf_neg hr, ok_bind, raiseIf_neg ho]) fun r h => ?_
        unfold bodyOf bodyCount at h
        dsimp only at h
        rw [raiseIf_neg hr, ok_bind, raiseIf_neg ho, ok_bind] at h
        cases h
  | gen =>
    by_cases hv : s.treeValid = false
    · exact preconditions_error_of (r0 := ⟨.noTree, 0⟩) (by unfold preconditions; dsimp only; rw [raiseIf_pos hv]; rfl)
        (by unfold bodyOf bodyGen; dsimp only; rw [raiseIf_pos hv]; rfl) rfl
    · refine preconditions_ok_of (by unfold preconditions; dsimp only; rw [raiseIf_neg hv]) fun r h => ?_
      unfold bodyOf bodyGen at h
      dsimp only at h
      rw [raiseIf_neg hv, ok_bind] at h
      cases h
  | psym =>
    by_cases hv : s.tableValid = false
    · exact preconditions_error_of (r0 := ⟨.noTable, 0⟩) (by unfold preconditions; dsimp only; rw [raiseIf_pos hv]; rfl)
        (by unfold bodyOf bodyPsym; dsimp only; rw [raiseIf_pos hv]; rfl) rfl
    · by_cases hr : ¬ s.srcInRange
      · exact preconditions_error_of (r0 := ⟨.range, s.srcAddr⟩)
          (by unfold preconditions; dsimp only; rw [raiseIf_neg hv, ok_bind, raiseIf_pos hr]; rfl)
          (by unfold bodyOf bodyPsym; dsimp only; rw [raiseIf_neg hv, ok_bind, raiseIf_pos hr]; rfl) rfl
      · refine preconditions_ok_of (by unfold preconditions; dsimp only; rw [raiseIf_neg hv, ok_bind, raiseIf_neg hr]) fun r h => ?_
        unfold bodyOf bodyPsym at h
        dsimp only at h
        rw [raiseIf_neg hv, ok_bind, raiseIf_neg hr, ok_bind] at h
        rcases packFrom_error h with e | e <;> rw [e] <;> rfl
  | uinit =>
    by_cases hr : ¬ s.srcInRange
    · exact preconditions_error_of (r0 := ⟨.range, s.srcAddr⟩) (by unfold preconditions; dsimp only; rw [raiseIf_pos hr]; rfl)
        (by unfold bodyOf bodyUinit; dsimp only; rw [raiseIf_pos hr]; rfl) rfl
    · refine preconditions_ok_of (by unfold preconditions; dsimp only; rw [raiseIf_neg hr]) fun r h => ?_
      unfold bodyOf bodyUinit at h
      dsimp only at h
      rw [raiseIf_neg hr, ok_bind] at h
      cases h
  | thdr =>
    by_cases hv : s.tableValid = false
    · exact preconditions_error_of (r0 := ⟨.noTable, 0⟩) (by unfold preconditions; dsimp only; rw [raiseIf_pos hv]; rfl)
        (by unfold bodyOf bodyThdr; dsimp only; rw [raiseIf_pos hv]; rfl) rfl
    · refine preconditions_ok_of (by unfold preconditions; dsimp only; rw [raiseIf_neg hv]) fun r h => ?_
      unfold bodyOf bodyThdr at h
      dsimp only at h
      rw [raiseIf_neg hv, ok_bind] at h
      rw [appendBits_error h]
      rfl
  | dsym =>
    by_cases hv : s.tableValid = false
    · exact preconditions_error_of (r0 := ⟨.noTable, 0⟩) (by unfold preconditions; dsimp only; rw [raiseIf_pos hv]; rfl)
        (by unfold bodyOf bodyDsym; dsimp only; rw [raiseIf_pos hv]; rfl) rfl
    · refine preconditions_ok_of (by unfold preconditions; dsimp only; rw [raiseIf_neg hv]) fun r h => ?_
      rcases dsym_error h with ⟨-, e⟩ | e | e | e
      · exact absurd e hv
      all_goals rw [e]; rfl
  | encode =>
    by_cases hr : ¬ s.srcInRange
    · exact preconditions_error_of (r0 := ⟨.range, s.srcAddr⟩) (by unfold preconditions; dsimp only; rw [raiseIf_pos hr]; rfl)
        (by unfold bodyOf bodyEncode; dsimp only; rw [raiseIf_pos hr]; rfl) rfl
    · refine preconditions_ok_of (by unfold preconditions; dsimp only; rw [raiseIf_neg hr]) fun r h => ?_
      rcases encode_error h with ⟨e, -⟩ | ⟨-, e⟩
      · exact absurd e hr
      · rw [e]; rfl
  | decode =>
    by_cases hr : ¬ s.srcInRange
    · exact preconditions_error_of (r0 := ⟨.range, s.srcAddr⟩) (by unfold preconditions; dsimp only; rw [raiseIf_pos hr]; rfl)
        (by unfold bodyOf bodyDecode; dsimp only; rw [raiseIf_pos hr]; rfl) rfl
    · refine preconditions_ok_of (by unfold preconditions; dsimp only; rw [raiseIf_neg hr]) fun r h => ?_
      rcases decode_error h with ⟨e, -⟩ | ⟨-, e | e | e | e⟩
      · exact absurd e hr
      · have hall : ∀ x ∈ raisable .parse, isExecutionError x = true := by decide
        exact hall _ e
      all_goals rw [e]; rfl

/-! ### The results of a command -/

/-- `t` agrees with `s` on the parts outside `ps`. -/
structure AgreeOutside (ps : List Part) (s t : State) : Prop where
  hist : .hist ∉ ps → t.hist = s.hist
  htotal : .htotal ∉ ps → t.htotal = s.htotal
  origLen : .origLen ∉ ps → t.origLen = s.origLen
  symcount : .symcount ∉ ps → t.symcount = s.symcount
  ctab : .ctab ∉ ps → t.ctab = s.ctab
  treeValid : .treeValid ∉ ps → t.treeValid = s.treeValid
  tableValid : .tableValid ∉ ps → t.tableValid = s.tableValid
  result : .result ∉ ps → t.result = s.result
  iend : .iend ∉ ps → t.iend = s.iend
  tree : .tree ∉ ps → t.node = s.node ∧ t.nodeCount = s.nodeCount ∧ t.root = s.root
  packer : .packer ∉ ps → t.optr = s.optr ∧ t.acc = s.acc ∧ t.accN = s.accN
  stream : .stream ∉ ps → t.iptr = s.iptr ∧ t.ibit = s.ibit
  errors : .errors ∉ ps → t.err = s.err ∧ t.errcode = s.errcode ∧ t.errInfo = s.errInfo ∧ t.ovr = s.ovr
  operands : .operands ∉ ps → t.ie = s.ie ∧ t.srcAddr = s.srcAddr ∧ t.srcLen = s.srcLen ∧ t.dstAddr = s.dstAddr ∧
    t.arg = s.arg ∧ t.idx = s.idx

/-- Drawing parts keeps every other part. -/
theorem drawParts_agree (ps : List Part) (s : State) : AgreeOutside ps s (s.drawParts ps) := by
  constructor <;> intro h <;> simp [h]

/-- A body writes no part but the results of its command. -/
theorem body_agree {i : Instr} {s t : State} (h : bodyOf i s = .ok t) : AgreeOutside (results i) s t := by
  have pack : SameButPacker s t → AgreeOutside [.packer] s t := fun f => by
    rw [f.eq]
    constructor <;> simp
  cases i with
  | nop => obtain rfl := Except.ok.inj h; constructor <;> simp
  | sreset => constructor <;> simp [results]
  | hclr =>
    obtain rfl := Except.ok.inj h
    constructor <;> simp [results]
  | count =>
    rw [count_frame h]
    constructor <;> simp [results]
  | build =>
    rw [build_frame h]
    constructor <;> simp [results]
  | gen =>
    rw [(gen_frame h).2.1]
    constructor <;> simp [results]
  | pinit =>
    obtain rfl := Except.ok.inj h
    constructor <;> simp [results]
  | putb n => exact pack (appendBits_frame h)
  | psym => exact pack (psym_frame h)
  | pflush => exact pack (flush_frame h)
  | thdr => exact pack (thdr_frame h)
  | uinit =>
    rw [(uinit_frame h).2]
    constructor <;> simp [results]
  | getb n =>
    rw [getb_frame h]
    constructor <;> simp [results]
  | ualign =>
    obtain rfl := Except.ok.inj h
    split
    all_goals constructor <;> simp [results]
  | parse =>
    rw [parse_frame h]
    constructor <;> simp [results]
  | dsym =>
    rw [(dsym_frame h).1.eq]
    constructor <;> simp [results]
  | encode =>
    obtain ⟨u, -, hc, hf⟩ := encode_frame h
    rw [hf, hc.frame]
    constructor <;> simp [results]
  | decode =>
    obtain ⟨u, v, -, -, -, hf⟩ := decode_frame h
    rw [hf]
    constructor <;> simp [results]

/-! ### All that a race or an abandonment can leave -/

theorem decodeFN_ok {w : Word} {mk : BitVec 6 → Instr} {i : Instr} (h : decodeFN w mk = .ok i) : ∃ n, i = mk n := by
  unfold decodeFN at h
  split at h
  · cases h
  · split at h
    · exact ⟨_, (Except.ok.inj h).symm⟩
    · cases h

/-- SRESET has one word (R66, R71). -/
theorem decode_sreset {w : Word} : decode w = .ok .sreset ↔ w = 0x0000_0001#32 := by
  refine ⟨fun h => ?_, fun h => by rw [h]; decide⟩
  unfold decode at h
  dsimp only at h
  split at h
  · obtain ⟨n, hn⟩ := decodeFN_ok h
    cases hn
  split at h
  · obtain ⟨n, hn⟩ := decodeFN_ok h
    cases hn
  split at h
  · rename_i i hl
    split at h
    · cases h
    · rename_i hz
      rw [Except.ok.inj h] at hl
      have ho : field w 7 0 = 1#8 := (by decide : ∀ o : Byte, f0Opcodes.lookup o = some .sreset → o = 1#8) _ hl
      have h1 := congrArg BitVec.toNat ho
      have h2 := congrArg BitVec.toNat (not_not.1 hz)
      simp only [field, BitVec.extractLsb'_toNat, Nat.shiftRight_eq_div_pow] at h1 h2
      apply BitVec.eq_of_toNat_eq
      have := w.isLt
      simp at h1 h2 ⊢
      omega
  · cases h

/-- Only SRESET has the error registers and the operands among its results (R71). -/
theorem results_host {i : Instr} (h : .errors ∈ results i ∨ .operands ∈ results i) : i = .sreset := by
  cases i <;> simp [results] at h ⊢

/-- What abandoning the command c can leave (R132): a draw of some of its results and of OBUF, with validity bits of its
own, over the state `u` it reached, which is `s` or an applied reset; the error registers and the operands are drawn only
where c is a raced SRESET. -/
theorem abandon_cases (c : Word) (s : State) : ∃ u ps a b, (u = s ∨ c = 0x0000_0001#32 ∧ u = s.softReset) ∧
    (.errors ∈ ps ∨ .operands ∈ ps → c = 0x0000_0001#32 ∧ s.raced = true) ∧
    s.abandon c = { u.drawParts ps with treeValid := a, tableValid := b } := by
  unfold State.abandon
  split
  · exact ⟨s, [], s.treeValid, s.tableValid, .inl rfl, by simp, rfl⟩
  · rename_i i hd
    split
    · exact ⟨s, [], s.treeValid, s.tableValid, .inl rfl, by simp, rfl⟩
    · split
      · rename_i hr
        exact ⟨s, results i, _, _, .inl rfl, fun h => ⟨decode_sreset.1 (by rw [hd, results_host h]), hr⟩, rfl⟩
      · split
        · rename_i hi
          rw [hi] at hd
          split
          · exact ⟨s.softReset, [], false, false, .inr ⟨decode_sreset.1 hd, rfl⟩, by simp, rfl⟩
          · exact ⟨s, [], s.treeValid, s.tableValid, .inl rfl, by simp, rfl⟩
        · rename_i hi
          exact ⟨s, results i, _, _, .inl rfl, fun h => absurd (results_host h) hi, rfl⟩

/-- What a raced command can leave (R58, R116, R117): a precondition error with OBUF free, an execution error of those R115
lists for it, or its results and OBUF free. -/
theorem raced_cases (i : Instr) (s : State) :
    (∃ r, preconditions i s = .error r ∧ racedResult i s = (s.drawParts []).recordError r.code r.info) ∨
    preconditions i s = .ok () ∧
      ((∃ r, isExecutionError r.code = true ∧ r.code ∈ raisable i ∧ racedResult i s = s.takeError r) ∨
        racedResult i s = (if i = .sreset then s.softReset else s).drawParts (results i)) := by
  unfold racedResult
  cases preconditions i s with
  | error r => exact .inl ⟨r, rfl, rfl⟩
  | ok _ =>
    refine .inr ⟨rfl, ?_⟩
    dsimp only
    split
    · rename_i e info _
      split
      · rename_i he
        exact .inl ⟨⟨e, info⟩, he.1, he.2, rfl⟩
      · exact .inr rfl
    · exact .inr rfl

end Sys2Proof.Machine
end

