-- ==== Sys2Proof/Laws/Step.lean ====
section
/-! SUPPORT. Everything one step can do (R10, R114): the block's turn, and each move of the host (R59); and the invariants
every step keeps. -/

namespace Sys2Proof.Machine

open Sys2Proof Config

/-- The state a turn starts from: the turn taken off the list. -/
def State.turn (s : State) : State := { s with turns := s.turns.tail }

/-- What the block's turn can do, where the host did not race. -/
inductive BlockDid (s t : State) : Prop
  | idle (hp : s.pending = none) (ht : t = s)
  | illegal (w : Word) (hp : s.pending = some w) (r : Illegal) (hd : decode w = .error r)
      (ht : t = (s.takeError ⟨.illegalCmd, w⟩).complete)
  | ran (w : Word) (i : Instr) (u : State) (hp : s.pending = some w) (hd : decode w = .ok i) (hb : bodyOf i s = .ok u)
      (ht : t = u.complete)
  | failed (w : Word) (i : Instr) (r : Raise) (hp : s.pending = some w) (hd : decode w = .ok i)
      (hb : bodyOf i s = .error r) (ht : t = (s.takeError r).complete)

/-- What a host move can do. -/
inductive HostDid (s t : State) : Prop
  | read (w : Word) (d : Nat) (ht : t = { s with rdata := w, draws := d })
  | ignored (ht : t = s)
  | ctrl (b : Bool) (ht : t = { s with ie := b })
  | clearDone (ht : t = { s with done := false })
  | overrun (hb : s.busy = true) (ht : t = { s with ovr := true })
  | operand (hb : s.pending = none) (ht : t = { s with
      srcAddr := t.srcAddr, srcLen := t.srcLen, dstAddr := t.dstAddr, arg := t.arg, origLen := t.origLen, idx := t.idx })
  | accepted (w : Word) (hb : s.pending = none) (he : s.err = false) (ht : t = s.accept w)
  | reset (hb : s.pending = none) (ht : t = s.accept 0x0000_0001#32)
  | abandoned (c : Word) (hp : s.pending = some c) (ht : t = (s.abandon c).accept 0x0000_0001#32)
  | ibufWrite (a : Nat) (v : Byte) (ha : a < s.params.ibufSize)
      (ht : t = { s with ibuf := s.ibuf.set a v, raced := s.raced || s.busy })
  | obufWrite (a : Nat) (v : Byte) (ha : a < s.params.obufSize)
      (ht : t = { s with obuf := s.obuf.set a v, raced := s.raced || s.busy })
  | power (ht : t = s.powerOn)

theorem busy_false {s : State} (h : ¬ s.busy = true) : s.pending = none := by
  unfold State.busy at h
  cases hp : s.pending with
  | none => rfl
  | some w => rw [hp] at h; simp at h

theorem blockTurn_cases {s t : State} (hr : s.raced = false) (h : blockTurn s = .next t) : BlockDid s t := by
  unfold blockTurn at h
  cases hp : s.pending with
  | none =>
    rw [hp] at h
    exact .idle hp (Host.Outcome.next.inj h).symm
  | some w =>
    rw [hp] at h
    unfold blockStep at h
    simp only [hr] at h
    cases hd : decode w with
    | error r =>
      rw [hd] at h
      exact .illegal w hp r hd (Host.Outcome.next.inj h).symm
    | ok i =>
      rw [hd] at h
      rcases exec_cases i s with ⟨u, hb, hx⟩ | ⟨r, hb, hx⟩
      · exact .ran w i u hp hd hb (by simp only [hx] at h; exact (Host.Outcome.next.inj h).symm)
      · exact .failed w i r hp hd hb (by simp only [hx] at h; exact (Host.Outcome.next.inj h).symm)

theorem offerCommand_cases (w : Word) (s : State) : HostDid s (offerCommand w s) := by
  unfold offerCommand
  split
  · rename_i hw
    rw [hw]
    split
    · rename_i c hp
      exact .abandoned c hp rfl
    · rename_i hp
      exact .reset hp rfl
  · split
    · rename_i hb
      exact .overrun hb rfl
    · rename_i hb
      split
      · exact .ignored rfl
      · rename_i he
        exact .accepted w (busy_false hb) (by simpa using he) rfl

theorem whenIdle_cases (s t : State) (h : t = { s with
    srcAddr := t.srcAddr, srcLen := t.srcLen, dstAddr := t.dstAddr, arg := t.arg, origLen := t.origLen, idx := t.idx }) :
    HostDid s (s.whenIdle t) := by
  unfold State.whenIdle
  split
  · rename_i hb
    exact .overrun hb rfl
  · rename_i hb
    exact .operand (busy_false hb) h

theorem csrPut_cases (s : State) (w : Word) (r : Csr) : HostDid s (s.csrPut w r) := by
  cases r with
  | ctrl => exact .ctrl _ rfl
  | status =>
    show HostDid s (if w.getLsbD 1 then { s with done := false } else s)
    split
    · exact .clearDone rfl
    · exact .ignored rfl
  | cmd => exact offerCommand_cases w s
  | srcAddr => exact whenIdle_cases _ _ rfl
  | srcLen => exact whenIdle_cases _ _ rfl
  | dstAddr => exact whenIdle_cases _ _ rfl
  | arg => exact whenIdle_cases _ _ rfl
  | origLen => exact whenIdle_cases _ _ rfl
  | idx => exact whenIdle_cases _ _ rfl
  | id => exact .ignored rfl
  | errInfo => exact .ignored rfl
  | result => exact .ignored rfl
  | htotal => exact .ignored rfl
  | symcount => exact .ignored rfl
  | nodeCount => exact .ignored rfl
  | root => exact .ignored rfl
  | optr => exact .ignored rfl
  | pstate => exact .ignored rfl
  | iptr => exact .ignored rfl
  | iend => exact .ignored rfl
  | ustate => exact .ignored rfl
  | histRd => exact .ignored rfl
  | nodeRd0 => exact .ignored rfl
  | nodeRd1 => exact .ignored rfl
  | ctLen => exact .ignored rfl
  | ctCode k => exact .ignored rfl
  | ibufSz => exact .ignored rfl
  | obufSz => exact .ignored rfl

theorem bufferWritten_eq (s : State) : s.bufferWritten = { s with raced := s.raced || s.busy } := by
  unfold State.bufferWritten
  split
  · rename_i hb
    rw [hb, Bool.or_true]
  · rename_i hb
    rw [Bool.not_eq_true] at hb
    rw [hb, Bool.or_false]

theorem hostMove_cases {m : HostMove} {s t : State} (h : hostMove m s = .next t) : HostDid s t := by
  have hread : ∀ v, HostDid s (s.bufferRead v) := fun v => by
    unfold State.bufferRead
    split
    · exact .read _ _ rfl
    · exact .read _ _ rfl
  cases m with
  | csrRead i =>
    obtain rfl := Host.Outcome.next.inj h
    unfold csrRead
    split
    · exact .read _ _ rfl
    · split
      · exact .read _ _ rfl
      · exact .read _ _ rfl
  | csrWrite i w =>
    obtain rfl := Host.Outcome.next.inj h
    unfold csrWrite
    split
    · exact .ignored rfl
    · exact csrPut_cases s w _
  | ibufRead a =>
    unfold hostMove at h
    dsimp only at h
    split at h
    · obtain rfl := Host.Outcome.next.inj h
      exact hread _
    · cases h
  | obufRead a =>
    unfold hostMove at h
    dsimp only at h
    split at h
    · obtain rfl := Host.Outcome.next.inj h
      exact hread _
    · cases h
  | ibufWrite a v =>
    unfold hostMove at h
    dsimp only at h
    split at h
    · rename_i ha
      obtain rfl := Host.Outcome.next.inj h
      refine .ibufWrite a.toNat v ha ?_
      exact bufferWritten_eq _
    · cases h
  | obufWrite a v =>
    unfold hostMove at h
    dsimp only at h
    split at h
    · rename_i ha
      obtain rfl := Host.Outcome.next.inj h
      refine .obufWrite a.toNat v ha ?_
      exact bufferWritten_eq _
    · cases h
  | resetPin => exact .power (Host.Outcome.next.inj h).symm

/-- With the block's turn next, or no turn left to the host, a step is the block's turn (R114, log 1). -/
theorem step_block {s : State} (h : s.turns = [] ∨ s.turns.head? = some .block) : step s = blockTurn s.turn := by
  unfold step
  cases ht : s.turns with
  | nil =>
    rw [show s.turn = s by unfold State.turn; rw [ht, List.tail_nil, ← ht]]
  | cons x l =>
    rw [ht] at h
    simp only [reduceCtorEq, List.head?_cons, Option.some.injEq, false_or] at h
    subst h
    unfold State.turn
    rw [ht]
    rfl

/-- The step of a raced command (R58): its raced result, completed. -/
theorem step_raced {s : State} {w : Word} {i : Instr} (hp : s.pending = some w) (hd : decode w = .ok i)
    (hr : s.raced = true) (ht : s.turns = [] ∨ s.turns.head? = some .block) :
    step s = .next (racedResult i s.turn).complete := by
  rw [step_block ht]
  unfold blockTurn blockStep State.turn
  simp only [hp, hd, hr, if_true]

/-- Everything one step can do, where the host did not race: the block's turn or a host move, on the state with the turn
taken. -/
theorem step_cases {s t : State} (hr : s.raced = false) (h : step s = .next t) :
    BlockDid s.turn t ∨ HostDid s.turn t := by
  by_cases hc : s.turns = [] ∨ s.turns.head? = some .block
  · rw [step_block hc] at h
    exact .inl (blockTurn_cases hr h)
  · unfold step at h
    cases ht : s.turns with
    | nil => exact absurd (.inl ht) hc
    | cons x rest =>
      rw [ht] at h
      have he : s.turn = { s with turns := rest } := by unfold State.turn; rw [ht]; rfl
      rw [he]
      cases x with
      | block => exact absurd (.inr (by rw [ht]; rfl)) hc
      | host m => exact .inr (hostMove_cases h)

/-! ### Invariants every step keeps -/

/-- An invariant of the datapath while it is specified: every body keeps it, and nothing else the step does while the
datapath is specified touches it. -/
theorem datapath_invariant {P : State → Prop}
    (hframe : ∀ s t : State, P s → t.params = s.params → t.hist = s.hist → t.htotal = s.htotal → t.node = s.node →
      t.root = s.root → t.symcount = s.symcount → t.ctab = s.ctab → t.treeValid = s.treeValid →
      t.tableValid = s.tableValid → t.acc = s.acc → t.accN = s.accN → t.iptr = s.iptr → t.iend = s.iend →
      t.ibit = s.ibit → t.pq = s.pq → t.wstack = s.wstack → t.dacc = s.dacc → P t)
    (hbody : ∀ i s t, i ≠ .sreset → P s → bodyOf i s = .ok t → P t) (hreset : ∀ s : State, P s.resetRegs)
    {s t : State} (hr : s.raced = false) (h : step s = .next t) (hs : s.specified → P s) : t.specified → P t := by
  intro hspec
  have hs' : s.turn.specified → P s.turn := fun hsp =>
    hframe s s.turn (hs hsp) rfl rfl rfl rfl rfl rfl rfl rfl rfl rfl rfl rfl rfl rfl rfl rfl rfl
  have hc := step_cases hr h
  generalize s.turn = s' at hs' hc
  rcases hc with hb | hh
  · cases hb with
    | idle hp ht =>
      subst ht
      exact hs' hspec
    | illegal w hp r hd ht =>
      exfalso
      have := hspec.1
      rw [ht] at this
      cases this
    | failed w i r hp hd hb ht =>
      exfalso
      have := hspec.1
      rw [ht] at this
      cases this
    | ran w i u hp hd hb ht =>
      have hu : P u := by
        by_cases hi : i = .sreset
        · subst hi
          obtain rfl := Except.ok.inj hb
          exact hreset _
        · have f := body_frame hi hb
          have e : u.err = s'.err := by unfold SameButDatapath at f; rw [← f]
          have hw : w ≠ 0x0000_0001#32 := fun e => by
            rw [e] at hd
            exact hi (Except.ok.inj hd).symm
          have het : t.err = u.err := by rw [ht]; rfl
          refine hbody i s' u hi (hs' ⟨?_, ?_⟩) hb
          · rw [← e, ← het]; exact hspec.1
          · rw [hp]; intro e; exact hw (Option.some.inj e)
      rw [ht]
      exact hframe u _ hu rfl rfl rfl rfl rfl rfl rfl rfl rfl rfl rfl rfl rfl rfl rfl rfl rfl
  · cases hh with
    | read w d ht =>
      rw [ht] at hspec ⊢
      exact hframe s' _ (hs' hspec) rfl rfl rfl rfl rfl rfl rfl rfl rfl rfl rfl rfl rfl rfl rfl rfl rfl
    | ignored ht => rw [ht] at hspec ⊢; exact hs' hspec
    | ctrl b ht =>
      rw [ht] at hspec ⊢
      exact hframe s' _ (hs' hspec) rfl rfl rfl rfl rfl rfl rfl rfl rfl rfl rfl rfl rfl rfl rfl rfl rfl
    | clearDone ht =>
      rw [ht] at hspec ⊢
      exact hframe s' _ (hs' hspec) rfl rfl rfl rfl rfl rfl rfl rfl rfl rfl rfl rfl rfl rfl rfl rfl rfl
    | overrun hb ht =>
      rw [ht] at hspec ⊢
      exact hframe s' _ (hs' hspec) rfl rfl rfl rfl rfl rfl rfl rfl rfl rfl rfl rfl rfl rfl rfl rfl rfl
    | operand hb ht =>
      rw [ht] at hspec ⊢
      exact hframe s' _ (hs' hspec) rfl rfl rfl rfl rfl rfl rfl rfl rfl rfl rfl rfl rfl rfl rfl rfl rfl
    | accepted w hb he ht =>
      rw [ht] at hspec ⊢
      refine hframe s' _ (hs' ⟨he, ?_⟩) rfl rfl rfl rfl rfl rfl rfl rfl rfl rfl rfl rfl rfl rfl rfl rfl rfl
      rw [hb]
      simp
    | reset hb ht =>
      exfalso
      rw [ht] at hspec
      exact hspec.2 rfl
    | abandoned c hp ht =>
      exfalso
      rw [ht] at hspec
      exact hspec.2 rfl
    | ibufWrite a v ha ht =>
      rw [ht] at hspec ⊢
      exact hframe s' _ (hs' hspec) rfl rfl rfl rfl rfl rfl rfl rfl rfl rfl rfl rfl rfl rfl rfl rfl rfl
    | obufWrite a v ha ht =>
      rw [ht] at hspec ⊢
      exact hframe s' _ (hs' hspec) rfl rfl rfl rfl rfl rfl rfl rfl rfl rfl rfl rfl rfl rfl rfl rfl rfl
    | power ht =>
      rw [ht]
      exact hframe s'.resetRegs _ (hreset _) rfl rfl rfl rfl rfl rfl rfl rfl rfl rfl rfl rfl rfl rfl rfl rfl rfl

/-! ### The canonical form of the buffers is kept by every step, raced or not -/

theorem drawParts_memoryOk {s : State} (hm : s.MemoryOk) (ps : List Part) : (s.drawParts ps).MemoryOk :=
  ⟨hm.1, Memory.wf_drawn _ _⟩

theorem raced_memoryOk {s : State} (hm : s.MemoryOk) (i : Instr) : (racedResult i s).MemoryOk := by
  rcases raced_cases i s with ⟨r, -, h⟩ | ⟨-, ⟨r, -, -, h⟩ | h⟩
  · rw [h]; exact drawParts_memoryOk hm []
  · rw [h]; exact takeError_memoryOk hm r
  · rw [h]
    split
    · exact drawParts_memoryOk (s := s.softReset) hm _
    · exact drawParts_memoryOk hm _

theorem hostDid_memoryOk {s t : State} (hm : s.MemoryOk) (h : HostDid s t) : t.MemoryOk := by
  cases h with
  | read w d ht => rw [ht]; exact hm
  | ignored ht => rw [ht]; exact hm
  | ctrl b ht => rw [ht]; exact hm
  | clearDone ht => rw [ht]; exact hm
  | overrun hb ht => rw [ht]; exact hm
  | operand hb ht => rw [ht]; exact hm
  | accepted w hb he ht => rw [ht]; exact hm
  | reset hb ht => rw [ht]; exact hm
  | abandoned c hp ht =>
    obtain ⟨u, ps, a, b, hu, -, he⟩ := abandon_cases c s
    rw [ht, he]
    rcases hu with rfl | ⟨-, rfl⟩
    · exact drawParts_memoryOk hm ps
    · exact drawParts_memoryOk (s := s.softReset) hm ps
  | ibufWrite a v ha ht => rw [ht]; exact ⟨Memory.wf_set hm.1 ha v, hm.2⟩
  | obufWrite a v ha ht => rw [ht]; exact ⟨hm.1, Memory.wf_set hm.2 ha v⟩
  | power ht => rw [ht]; exact ⟨Memory.wf_drawn _ _, Memory.wf_drawn _ _⟩

end Sys2Proof.Machine
end

