-- ==== Sys2Proof/Tests/Slice0.lean ====
section
/-! SUPPORT. Tests: ill-formed commands, words decoded bit by bit, single steps with the results of 95_test_vectors.md,
and for each statement with hypotheses a state and operands that meet them. -/

namespace Sys2Proof.Tests

open Sys2Proof Sys2Proof.Machine Sys2Proof.Config

-- One kernel evaluation at a time: many at once run out of threads.
set_option Elab.async false

/-! ### WellFormed (R62) -/

theorem test_wellFormed_refuses : ([.putb 0, .putb 33, .putb 63, .getb 0, .getb 33, .getb 63].map Instr.wellFormed) =
    [false, false, false, false, false, false] := by decide

theorem test_wellFormed_accepts : ([.putb 1, .putb 32, .getb 1, .getb 32, .nop].map Instr.wellFormed) =
    [true, true, true, true, true] := by decide

/-! ### Decoding, words written from the fields of R61 to R63 -/

theorem test_decode_control : decode 0b000000000000000000000000_00000000#32 = .ok .nop ∧
    decode 0b000000000000000000000000_00000001#32 = .ok .sreset := by decide

theorem test_decode_histogram : decode 0b000000000000000000000000_00010000#32 = .ok .hclr ∧
    decode 0b000000000000000000000000_00010001#32 = .ok .count := by decide

theorem test_decode_tree : decode 0b000000000000000000000000_00100000#32 = .ok .build ∧
    decode 0b000000000000000000000000_00100001#32 = .ok .gen := by decide

theorem test_decode_packer : decode 0b000000000000000000000000_00110000#32 = .ok .pinit ∧
    decode 0b000000000000000000_000001_00110001#32 = .ok (.putb 1) ∧
    decode 0b000000000000000000_100000_00110001#32 = .ok (.putb 32) ∧
    decode 0b000000000000000000000000_00110010#32 = .ok .psym ∧
    decode 0b000000000000000000000000_00110011#32 = .ok .pflush := by decide

theorem test_decode_unpacker : decode 0b000000000000000000000000_00111000#32 = .ok .uinit ∧
    decode 0b000000000000000000_000100_00111001#32 = .ok (.getb 4) ∧
    decode 0b000000000000000000_100000_00111001#32 = .ok (.getb 32) ∧
    decode 0b000000000000000000000000_00111010#32 = .ok .ualign := by decide

theorem test_decode_container : decode 0b000000000000000000000000_01000000#32 = .ok .thdr ∧
    decode 0b000000000000000000000000_01000001#32 = .ok .parse ∧
    decode 0b000000000000000000000000_01000010#32 = .ok .dsym := by decide

theorem test_decode_composite : decode 0b000000000000000000000000_01010000#32 = .ok .encode ∧
    decode 0b000000000000000000000000_01010001#32 = .ok .decode := by decide

/-- TV-CTL-2 to TV-CTL-10. -/
theorem test_decode_illegal : decode 0x100#32 = .error .nonzeroZeroField ∧ decode 0x101#32 = .error .nonzeroZeroField ∧
    decode 0x12#32 = .error .unassignedOpcode ∧ decode 0x31#32 = .error .countOutOfRange ∧
    decode 0x2131#32 = .error .countOutOfRange ∧ decode 0x4031#32 = .error .nonzeroZeroField ∧
    decode 0x20031#32 = .error .nonzeroZeroField ∧ decode 0x151#32 = .error .nonzeroZeroField ∧
    decode 0xFFFFFFFF#32 = .error .unassignedOpcode := by decide

theorem test_encode_words : encode .nop = 0x0#32 ∧ encode (.putb 3) = 0x331#32 ∧ encode (.getb 4) = 0x439#32 ∧
    encode .decode = 0x51#32 := by decide

/-! ### States for tests -/

/-- Reset, with the bytes `bs` in IBUF from address 0 and SRC_LEN their number. -/
def ready (bs : List Nat) : State :=
  { State.reset with
    ibuf := ⟨bs.zipIdx.map fun (v, a) => (a, BitVec.ofNat 8 v), 0⟩
    srcLen := BitVec.ofNat 32 bs.length }

/-- What exec answers; every command answers a next state (`exec_next`). -/
def after (i : Instr) (s : State) : State :=
  match exec i s with
  | .next t => t
  | .fault _ => s
  | .refused _ => s

/-- What a step answers after the word w is accepted (R114). -/
def run (w : Nat) (s : State) : State :=
  match step (s.withFetchWord 32 w) with
  | .next t => t
  | .fault _ => s
  | .refused _ => s

theorem exec_next (i : Instr) (s : State) : exec i s = .next (after i s) := by
  unfold after
  rcases exec_cases i s with ⟨t, -, h⟩ | ⟨r, -, h⟩ <;> rw [h]

/-- "AAAAB". -/
def aaaab : State := ready [0x41, 0x41, 0x41, 0x41, 0x42]

/-- The container of "AAAAB" (TV-DOC-2), to be decoded to 0x40. -/
def container : State :=
  { ready [0x00, 0x02, 0x41, 0x01, 0x80, 0x42, 0x01, 0x00, 0x00, 0x00, 0x00, 0x05, 0xF0] with dstAddr := 0x40 }

/-- Reset with the table A = "1", B = "0" (TV-GEN-1), and "AAAAB" in IBUF. -/
def coded : State :=
  { aaaab with ctab := ((aaaab.setCode 0x41 [true]).setCode 0x42 [false]).ctab, tableValid := true, symcount := 2
               origLen := 5 }

/-- The entries of TV-DOC-2's container. -/
def entries : List Entry := [⟨0x41, [true], zeros 7⟩, ⟨0x42, [false], zeros 7⟩]

/-- The first n bytes of OBUF from address a. -/
def out (s : State) (a n : Nat) : List Nat := (s.obufBytes a n).map BitVec.toNat

/-! ### Single steps (95_test_vectors.md) -/

/-- TV-CTL-1. -/
theorem test_nop : (run 0x00 State.reset).statusWord = 0x2#32 := by decide +kernel

/-- TV-CTL-2. -/
theorem test_nop_illegal : (run 0x100 State.reset).statusWord = 0x106#32 ∧ (run 0x100 State.reset).errInfo = 0x100#32 := by
  decide +kernel

/-- TV-CTL-13. -/
theorem test_sreset : (run 0x01 (run 0x12 State.reset)).statusWord = 0x2#32 ∧
    (run 0x01 (run 0x12 State.reset)).errInfo = 0 := by decide +kernel

/-- R71: the operands too take their reset values, and IBUF keeps its bytes. -/
theorem test_sreset_operands : (run 0x01 container).srcLen = 0 ∧ (run 0x01 container).dstAddr = 0 ∧
    (run 0x01 container).ibufByte 2 = 0x41#8 := by decide +kernel

/-- TV-HIST-8. -/
theorem test_hclr : (run 0x10 (run 0x11 aaaab)).histAt 0x41 = 0 ∧ (run 0x10 (run 0x11 aaaab)).htotal = 0 := by
  decide +kernel

/-- TV-HIST-1. -/
theorem test_count : (run 0x11 aaaab).histAt 0x41 = 4 ∧ (run 0x11 aaaab).histAt 0x42 = 1 ∧ (run 0x11 aaaab).htotal = 5 := by
  decide +kernel

/-- TV-HIST-6: the range check does not wrap. -/
theorem test_count_range : (run 0x11 { aaaab with srcAddr := 0xFFFFFFFF, srcLen := 2 }).statusWord = 0x206#32 ∧
    (run 0x11 { aaaab with srcAddr := 0xFFFFFFFF, srcLen := 2 }).errInfo = 0xFFFFFFFF := by decide +kernel

/-- TV-BLD-1: node 2 as NODE_RD0 and NODE_RD1 show it, and ROOT. -/
theorem test_build : State.nodeRd0 { run 0x20 (run 0x11 aaaab) with idx := 2 } = 0xC0000001#32 ∧
    State.nodeRd1 { run 0x20 (run 0x11 aaaab) with idx := 2 } = 5 ∧ (run 0x20 (run 0x11 aaaab)).root = 2 := by
  decide +kernel

/-- TV-BLD-6: "ABCC"; the leaf C leaves the queue before the node of the same frequency. -/
theorem test_build_tie : State.nodeRd0 { run 0x20 (run 0x11 (ready [0x41, 0x42, 0x43, 0x43])) with idx := 4 } =
    0xC0030002#32 := by decide +kernel

/-- TV-GEN-1: CT_LEN and CT_CODE0 at 0x41. -/
theorem test_gen : State.ctLenWord { run 0x21 (run 0x20 (run 0x11 aaaab)) with idx := 0x41 } = 0x80000001#32 ∧
    State.ctCodeWord { run 0x21 (run 0x20 (run 0x11 aaaab)) with idx := 0x41 } 0 = 0x80000000#32 := by decide +kernel

/-- TV-GEN-8. -/
theorem test_gen_noTree : (run 0x21 State.reset).statusWord = 0x406#32 := by decide +kernel

/-- TV-PK-6: the pending bits are discarded. -/
theorem test_pinit : (run 0x30 { State.reset with dstAddr := 0x100, acc := 0x1F, accN := 5 }).pstateWord = 0 ∧
    (run 0x30 { State.reset with dstAddr := 0x100, acc := 0x1F, accN := 5 }).optr = 0x100 := by decide +kernel

/-- TV-PK-2. -/
theorem test_putb : out (run 0x731 { State.reset with acc := 5, accN := 3, arg := 0x7F }) 0 1 = [0xBF] ∧
    (run 0x731 { State.reset with acc := 5, accN := 3, arg := 0x7F }).pstateWord = 0x203#32 := by decide +kernel

/-- TV-PK-4. -/
theorem test_putb_word : out (run 0x2031 { State.reset with arg := 0x12345678 }) 0 4 = [0x12, 0x34, 0x56, 0x78] := by
  decide +kernel

/-- TV-PK-10. -/
theorem test_psym : (run 0x32 coded).pstateWord = 0x51E#32 ∧ (run 0x32 coded).optr = 0 := by decide +kernel

/-- TV-PK-11: byte 0x43 at address 2 has no code. -/
theorem test_psym_miss : (run 0x32 { ready [0x41, 0x42, 0x43] with ctab := coded.ctab, tableValid := true }).errcode = 0x06#8 ∧
    (run 0x32 { ready [0x41, 0x42, 0x43] with ctab := coded.ctab, tableValid := true }).errInfo = 2 := by decide +kernel

/-- TV-PK-3. -/
theorem test_pflush : out (run 0x33 { State.reset with optr := 1, acc := 3, accN := 2 }) 1 1 = [0xC0] ∧
    (run 0x33 { State.reset with optr := 1, acc := 3, accN := 2 }).optr = 2 := by decide +kernel

/-- TV-PK-5. -/
theorem test_pflush_empty : (run 0x33 State.reset).optr = 0 ∧ (run 0x33 State.reset).obuf.cells = [] := by decide +kernel

/-- TV-UPK-1. -/
theorem test_uinit : (run 0x38 (ready [0xA5, 0x0F])).iend = 2 ∧ (run 0x38 (ready [0xA5, 0x0F])).iptr = 0 := by decide +kernel

/-- TV-UPK-3: GETB 8 from bit 4 of the first byte. -/
theorem test_getb : (run 0x839 { ready [0xA5, 0x0F] with iend := 2, ibit := 4 }).result = 0x50 ∧
    (run 0x839 { ready [0xA5, 0x0F] with iend := 2, ibit := 4 }).iptr = 1 := by decide +kernel

/-- TV-UPK-7. -/
theorem test_getb_exhausted : (run 0x2039 { ready [0xDE, 0xAD, 0xBE] with iend := 3 }).errcode = 0x08#8 ∧
    (run 0x2039 { ready [0xDE, 0xAD, 0xBE] with iend := 3 }).errInfo = 3 := by decide +kernel

/-- TV-UPK-8. -/
theorem test_ualign : (run 0x3A { ready [0xC3, 0x81] with iend := 2, ibit := 3 }).iptr = 1 ∧
    (run 0x3A { ready [0xC3, 0x81] with iend := 2, iptr := 1 }).iptr = 1 := by decide +kernel

/-- TV-CON-1. -/
theorem test_thdr : out (run 0x40 coded) 0 12 = [0x00, 0x02, 0x41, 0x01, 0x80, 0x42, 0x01, 0x00, 0x00, 0x00, 0x00, 0x05] := by
  decide +kernel

/-- TV-CON-23. -/
theorem test_parse : ((run 0x41 { container with iend := 13 }).ctabAt 0x41).code = [true] ∧
    (run 0x41 { container with iend := 13 }).iptr = 12 ∧ (run 0x41 { container with iend := 13 }).statusWord = 0x22#32 := by
  decide +kernel

/-- TV-CON-9. -/
theorem test_parse_clash : (run 0x41 { ready [0, 2, 0x41, 1, 0, 0x42, 2, 0, 0, 0, 0, 1, 0] with iend := 13 }).errcode = 0x14#8 ∧
    (run 0x41 { ready [0, 2, 0x41, 1, 0, 0x42, 2, 0, 0, 0, 0, 1, 0] with iend := 13 }).errInfo = 0x4241 := by decide +kernel

/-- TV-CON-24. -/
theorem test_dsym : out (run 0x42 { ready [0xF0] with ctab := coded.ctab, tableValid := true, origLen := 5, iend := 1 }) 0 5 =
    [0x41, 0x41, 0x41, 0x41, 0x42] := by decide +kernel

/-- TV-CON-26. -/
theorem test_dsym_truncated :
    (run 0x42 { ready [0xF0] with ctab := coded.ctab, tableValid := true, origLen := 9, iend := 1 }).errcode = 0x16#8 ∧
    (run 0x42 { ready [0xF0] with ctab := coded.ctab, tableValid := true, origLen := 9, iend := 1 }).errInfo = 8 := by
  decide +kernel

/-- TV-DOC-2: ENCODE raises no error, and writes the container's bytes. -/
theorem test_encode : (after .encode aaaab).err = false ∧ (after .encode aaaab).obufBytes 0 13 = container.source := by
  decide +kernel

/-- TV-ENC-1: "ABRACADABRA". -/
theorem test_encode_abracadabra :
    out (run 0x50 (ready [0x41, 0x42, 0x52, 0x41, 0x43, 0x41, 0x44, 0x41, 0x42, 0x52, 0x41])) 0 24 =
      [0x00, 0x05, 0x41, 0x01, 0x00, 0x42, 0x03, 0xC0, 0x43, 0x03, 0x80, 0x44, 0x03, 0xA0, 0x52, 0x03, 0xE0,
       0x00, 0x00, 0x00, 0x0B, 0x6E, 0x8A, 0xDC] := by decide +kernel

/-- TV-DOC-2: DECODE. -/
theorem test_decode : out (run 0x51 container) 0x40 5 = [0x41, 0x41, 0x41, 0x41, 0x42] ∧ (run 0x51 container).iptr = 12 ∧
    (run 0x51 container).ibit = 5 ∧ (run 0x51 container).statusWord = 0x22#32 := by decide +kernel

/-- TV-DOC-4: eleven of the container's bytes. -/
theorem test_decode_truncated : (run 0x51 { container with srcLen := 11 }).errcode = 0x10#8 ∧
    (run 0x51 { container with srcLen := 11 }).errInfo = 11 := by decide +kernel

/-- TV-EXC-6: a command written while BUSY is dropped, and OVR stands after completion. -/
theorem test_ovr : (csrWrite 3 0#32 (aaaab.accept 0x50#32)).ovr = true ∧ (csrWrite 3 0#32 (aaaab.accept 0x50#32)).pending = some 0x50#32 := by
  decide +kernel

/-! ### The hypotheses of the statements are met -/

/-- A command word pending, with the turns to come. -/
def pendingAt (w : Word) (ts : List Turn) : State := { State.reset.accept w with turns := ts }

theorem test_meets_OpcodeMapDecodes : (1 ≤ (1 : BitVec 6).toNat ∧ (1 : BitVec 6).toNat ≤ 32) ∧
    (1 ≤ (32 : BitVec 6).toNat ∧ (32 : BitVec 6).toNat ≤ 32) ∧ (0x12#32).toNat % 256 ∉ [0x00, 0x01, 0x10, 0x11, 0x20, 0x21,
      0x30, 0x31, 0x32, 0x33, 0x38, 0x39, 0x3A, 0x40, 0x41, 0x42, 0x50, 0x51] := by decide

theorem test_meets_StepRunsDecodedCommand :
    ((pendingAt 0#32 [.block]).pending = some 0#32 ∧ decode 0#32 = .ok .nop ∧ (pendingAt 0#32 [.block]).raced = false ∧
      (pendingAt 0#32 [.block]).turns.head? = some .block ∧ (pendingAt 0#32 []).turns = [] ∧
      exec .nop { pendingAt 0#32 [.block] with turns := [] } = .next (pendingAt 0#32 [])) ∧
    (decode (BitVec.ofNat 32 0x51) = .ok .decode ∧ ∃ t, exec .decode (State.reset.accept (BitVec.ofNat 32 0x51)) = .next t) ∧
    (State.reset.pending = none ∧ State.reset.turns = [] ∧
      ({ State.reset with turns := [.block] } : State).turns.head? = some .block) :=
  ⟨⟨rfl, by decide, rfl, rfl, rfl, rfl⟩, ⟨by decide, _, exec_next _ _⟩, rfl, rfl, rfl⟩

theorem test_meets_IllegalCommandRaises : (pendingAt 0x12#32 [.block]).pending = some 0x12#32 ∧
    decode 0x12#32 = .error .unassignedOpcode ∧ (pendingAt 0x12#32 [.block]).raced = false ∧
    (pendingAt 0x12#32 [.block]).turns.head? = some .block ∧ (pendingAt 0x12#32 []).turns = [] ∧
    ({ pendingAt 0x12#32 [] with raced := true } : State).raced = true := ⟨rfl, by decide, rfl, rfl, rfl, rfl⟩

theorem test_meets_EveryCommandCompletes : (pendingAt 0x50#32 [.block]).pending = some 0x50#32 ∧
    (pendingAt 0x50#32 [.block]).turns.head? = some .block ∧ (pendingAt 0x50#32 []).turns = [] := ⟨rfl, rfl, rfl⟩

theorem test_meets_NopOnlyCompletes : (({ State.reset with turns := [.block] } : State).pending = none ∧
      ({ State.reset with turns := [.block] } : State).err = false ∧ State.reset.raced = false ∧ State.reset.turns = [] ∧
      ({ State.reset with turns := [.block] } : State).turns.head? = some .block) ∧
    ((State.reset.recordError .noTree 0).pending = none ∧ (State.reset.recordError .noTree 0).err = true) ∧
    ((0x100#32).toNat % 256 = 0 ∧ 0x100#32 ≠ 0) := ⟨⟨rfl, rfl, rfl, rfl, rfl⟩, ⟨rfl, rfl⟩, by decide⟩

theorem test_meets_AbandonedCommandResets : (pendingAt 0x50#32 [.block]).busy = true ∧
    (pendingAt 0x50#32 [.block]).turns.head? = some .block ∧ (pendingAt 0x50#32 []).turns = [] := ⟨rfl, rfl, rfl⟩

theorem test_meets_ResetStateReads : Csr.status ≠ .id ∧ Csr.status ≠ .root ∧ Csr.status ≠ .ibufSz ∧ Csr.status ≠ .obufSz := by
  decide

theorem test_meets_CommandsAfterReset : State.reset.AtReset ∧ (Instr.getb 1).wellFormed = true ∧
    (Instr.getb 32).wellFormed = true :=
  ⟨⟨rfl, ⟨rfl, rfl, rfl, rfl, rfl, rfl⟩, ⟨rfl, rfl⟩, ⟨rfl, rfl, rfl, rfl, rfl⟩, ⟨rfl, rfl, rfl⟩, ⟨rfl, rfl, rfl⟩,
    ⟨rfl, rfl, rfl⟩, ⟨rfl, rfl, rfl⟩, fun b => by simp [State.reset, State.histAt],
    fun b => by simp [State.reset, State.ctabAt], rfl, rfl, rfl⟩, by decide, by decide⟩

theorem test_meets_RegisterMapAndWrites : 35 ≤ (35 : BitVec 6).toNat ∧ 35 ≤ (63 : BitVec 6).toNat ∧
    csrAt 0 = some .id ∧ csrAt 34 = some .obufSz ∧ (pendingAt 0#32 []).busy = true ∧ State.reset.busy = false := by decide

theorem test_meets_CommandAcceptance : 0#32 ≠ 0x0000_0001#32 ∧ (pendingAt 0x50#32 []).busy = true ∧
    ((State.reset.recordError .noTree 0).busy = false ∧ (State.reset.recordError .noTree 0).err = true) ∧
    (State.reset.busy = false ∧ State.reset.err = false) ∧
    ((pendingAt 0x32#32 []).pending = some 0x32#32 ∧
      (∀ i ∈ [Instr.hclr, .count, .build, .encode, .sreset], decode 0x32#32 ≠ .ok i) ∧
      (∀ i ∈ [Instr.build, .gen, .parse, .encode, .decode, .sreset], decode 0x32#32 ≠ .ok i) ∧ 0x32#32 ≠ 0x0000_0001#32) ∧
    ((pendingAt 0x1#32 []).pending = some 0x0000_0001#32 ∧ (pendingAt 0x1#32 []).raced = false) := by decide

theorem test_meets_CsrReadsExact : csrAt 34 = some .obufSz ∧ State.reset.busy = false ∧ (pendingAt 0#32 []).busy = true ∧
    csrAt 2 = some .status := by decide

theorem test_meets_WindowsShowMemories : (0xFF#8).toNat = ({ State.reset with idx := 0x1FF } : State).idx.toNat % 256 ∧
    State.reset.nodeCount.toNat ≤ State.reset.idx.toNat ∧
    (let s : State := { State.reset.setNode 0 (State.reset.leafNode 0x41) with nodeCount := 1 }
     s.idx.toNat < s.nodeCount.toNat ∧ (s.nodeAt s.idx).kind = .leaf) ∧
    let s : State := { State.reset.setNode 2 (State.reset.mergedNode 1 0) with nodeCount := 3, idx := 2 }
    s.idx.toNat < s.nodeCount.toNat ∧ (s.nodeAt s.idx).kind = .internal := by decide +kernel

theorem test_meets_BufferAccesses : State.reset.busy = false ∧ (0x0#32).toNat < State.reset.params.ibufSize ∧
    (0xFFF#32).toNat < State.reset.params.ibufSize ∧ (0xFFF#32).toNat < State.reset.params.obufSize := by decide

theorem test_meets_InterruptLevel : State.reset.ie = false ∧ ({ State.reset with ie := true } : State).ie = true ∧
    (2#32).getLsbD 1 = true ∧ State.reset.busy = false ∧ State.reset.err = false := by decide

theorem test_meets_CountAddsOccurrences :
    (State.reset.params.ibufSize < ({ State.reset with srcAddr := 4096, srcLen := 1 } : State).srcAddr.toNat +
      ({ State.reset with srcAddr := 4096, srcLen := 1 } : State).srcLen.toNat) ∧
    (let s : State := { State.reset with srcAddr := 4095, srcLen := 1, htotal := 0xFFFFFFFF }
     s.srcAddr.toNat + s.srcLen.toNat ≤ s.params.ibufSize ∧ 2 ^ 32 - 1 < s.htotal.toNat + s.srcLen.toNat) ∧
    (let s : State := { State.reset with srcLen := 4096 }
     s.htotal.toNat = s.histSum ∧ s.srcAddr.toNat + s.srcLen.toNat ≤ s.params.ibufSize ∧
       s.htotal.toNat + s.srcLen.toNat ≤ 2 ^ 32 - 1) := by decide +kernel

theorem test_meets_ExtractMinTakesLeastKey : ({ State.reset with pq := [1, 0] } : State).pq ≠ [] ∧
    ({ State.reset with pq := [1, 0] } : State).pq.Nodup := by decide

/-- The map of "AAAAB". -/
theorem test_present : (after .count aaaab).present = [0x41#8, 0x42#8] ∧
    (after .count aaaab).htotal.toNat = (after .count aaaab).histSum := by decide +kernel

theorem test_meets_BuildMergesLeast : State.reset.present = [] ∧ (after .count aaaab).present ≠ [] :=
  ⟨by decide +kernel, by rw [test_present.1]; decide⟩

theorem test_meets_BuiltTreeShape : (after .count aaaab).HistOk ∧ (after .count aaaab).present ≠ [] ∧
    exec .build (after .count aaaab) = .next (after .build (after .count aaaab)) :=
  ⟨test_present.2, by rw [test_present.1]; decide, exec_next _ _⟩

theorem test_meets_BuildDependsOnHistOnly :
    ({ after .count aaaab with nodeCount := 7, root := 3, treeValid := true } : State).hist = (after .count aaaab).hist ∧
    exec .build (after .count aaaab) = .next (after .build (after .count aaaab)) ∧
    ∃ v, exec .build { after .count aaaab with nodeCount := 7, root := 3, treeValid := true } = .next v :=
  ⟨rfl, exec_next _ _, _, exec_next _ _⟩

theorem test_meets_BuildDegenerateInputs : State.reset.present = [] ∧
    (after .count (ready [0x41, 0x41, 0x41])).present = [0x41#8] := by decide +kernel

theorem test_meets_GenWritesPaths : State.reset.treeValid = false ∧
    (({ State.reset with treeValid := true } : State).treeValid = true ∧
      ({ State.reset with treeValid := true } : State).root = nilIdx) ∧
    (let s : State := { State.reset with
       node := (((State.reset.setNode 0 (State.reset.leafNode 0x41)).setNode 1 (State.reset.leafNode 0x42)).setNode 2
         (State.reset.mergedNode 1 0)).node
       nodeCount := 3, root := 2, treeValid := true }
     s.treeValid = true ∧ s.root ≠ nilIdx ∧ s.Represents s.root (.fork (.leaf 0x42) (.leaf 0x41)) ∧
       (Tree.fork (.leaf 0x42) (.leaf 0x41)).leaves.Nodup) := by
  refine ⟨rfl, ⟨rfl, rfl⟩, ?_⟩
  unfold State.Represents State.Represents
  decide +kernel

theorem test_meets_GeneratedCodesComplete : 2 ≤ (after .count aaaab).present.length := by rw [test_present.1]; decide

theorem test_meets_PutbAppendsArg : (Instr.putb 1).wellFormed = true ∧ (Instr.putb 32).wellFormed = true ∧
    (State.reset.accN.toNat < 8 ∧ State.reset.acc.toNat < 2 ^ State.reset.accN.toNat) ∧
    State.reset.Room (bitsMsb 0 32) ∧
    (let s : State := { State.reset with optr := 4096, acc := 0x7F, accN := 7 }
     (s.accN.toNat < 8 ∧ s.acc.toNat < 2 ^ s.accN.toNat) ∧ ¬ s.Room (bitsMsb s.arg.toNat 1)) := by
  unfold State.Room
  decide

theorem test_meets_PsymPacksSource : coded.PackerOk ∧ State.reset.tableValid = false ∧ coded.tableValid = true ∧
    (let s : State := { coded with srcAddr := 4092 }
     s.tableValid = true ∧ s.params.ibufSize < s.srcAddr.toNat + s.srcLen.toNat) ∧
    (coded.srcAddr.toNat + coded.srcLen.toNat ≤ coded.params.ibufSize ∧
      (∀ b ∈ coded.source, (coded.ctabAt b).valid = true) ∧ coded.Room (payload coded.codeOf coded.source)) ∧
    (let s : State := { coded with ibuf := ⟨[(0, 0x41#8), (1, 0x43#8)], 0⟩, srcLen := 2 }
     (∀ b ∈ s.source.take 1, (s.ctabAt b).valid = true) ∧ s.Room (payload s.codeOf (s.source.take 1)) ∧ 1 < s.srcLen.toNat ∧
       (s.ctabAt (s.ibufByte (s.srcAddr.toNat + 1))).valid = false) ∧
    (let s : State := { coded with optr := 4096, acc := 0x7F, accN := 7 }
     s.PackerOk ∧ (∀ b ∈ s.source.take 1, (s.ctabAt b).valid = true) ∧
       ¬ s.Room (payload s.codeOf (s.source.take 1))) := by
  unfold State.Room State.PackerOk
  decide +kernel

theorem test_meets_PflushPadsByte : State.reset.PackerOk ∧ State.reset.accN = 0 ∧
    (let s : State := { State.reset with optr := 4095, acc := 0x7F, accN := 7 }
     s.PackerOk ∧ s.accN ≠ 0 ∧ s.optr.toNat < s.params.obufSize) ∧
    (let s : State := { State.reset with optr := 4096, acc := 1, accN := 1 }
     s.PackerOk ∧ s.accN ≠ 0 ∧ s.params.obufSize ≤ s.optr.toNat) := by
  unfold State.PackerOk
  decide

theorem test_meets_UinitSetsRange :
    (let s : State := { State.reset with srcAddr := 4096, srcLen := 1 }
     s.params.ibufSize < s.srcAddr.toNat + s.srcLen.toNat) ∧
    (let s : State := { State.reset with srcAddr := 4096, srcLen := 0 }
     s.srcAddr.toNat + s.srcLen.toNat ≤ s.params.ibufSize) := by decide

theorem test_meets_GetbReadsBits : (Instr.getb 8).wellFormed = true ∧ (Instr.getb 9).wellFormed = true ∧
    (let s : State := { ready [0xA5] with iend := 1 }
     s.UnpackerOk ∧ (8#6).toNat ≤ s.inputBits.length ∧ s.inputBits.length < (9#6).toNat) := by
  unfold State.UnpackerOk
  decide

theorem test_meets_UalignSkipsToByte : (State.reset.UnpackerOk ∧ State.reset.ibit = 0) ∧
    (let s : State := { ready [0xA5] with iend := 1, ibit := 7 }
     s.UnpackerOk ∧ s.ibit ≠ 0) := by
  unfold State.UnpackerOk
  decide

theorem test_meets_ThdrWritesHeader : State.reset.PackerOk ∧ State.reset.tableValid = false ∧
    (coded.PackerOk ∧ coded.tableValid = true ∧ coded.Room (headerStream coded.tableEntries coded.origLen.toNat)) ∧
    (let s : State := { coded with optr := 4085 }
     s.PackerOk ∧ s.tableValid = true ∧ ¬ s.Room (headerStream s.tableEntries s.origLen.toNat)) := by
  unfold State.Room State.PackerOk
  decide +kernel

/-- The table of TV-GEN-1 has the entries of TV-DOC-2. -/
theorem test_tableEntries : coded.tableEntries = entries := by decide +kernel

/-- TV-DOC-2's header is one PARSE accepts. -/
theorem test_legalHeader : LegalHeader entries 5 :=
  ⟨by decide, by decide, by decide, by decide, by decide, by unfold PrefixFree; decide, by decide, by decide⟩

theorem test_container : unpackBytes container.source = headerStream entries 5 ++ (([true, true, true, true, false] : Bits) ++ zeros 3) ∧
    container.srcAddr.toNat + container.srcLen.toNat ≤ container.params.ibufSize := by decide +kernel

theorem test_meets_HeaderSize : (coded.PackerOk ∧ coded.tableValid = true ∧
      coded.Room (headerStream coded.tableEntries coded.origLen.toNat) ∧ exec .thdr coded = .next (after .thdr coded)) ∧
    (container.srcAddr.toNat + container.srcLen.toNat ≤ container.params.ibufSize ∧ LegalHeader entries 5 ∧
      unpackBytes container.source = headerStream entries 5 ++ ([true, true, true, true, false] ++ zeros 3) ∧
      exec .uinit container = .next (after .uinit container) ∧
      exec .parse (after .uinit container) = .next (after .parse (after .uinit container))) :=
  ⟨⟨test_meets_ThdrWritesHeader.2.2.1.1, rfl, test_meets_ThdrWritesHeader.2.2.1.2.2, exec_next _ _⟩, test_container.2,
    test_legalHeader, test_container.1, exec_next _ _, exec_next _ _⟩

/-- The state UINIT leaves over the container. -/
theorem test_unpacker : (after .uinit container).UnpackerOk ∧
    (after .uinit container).inputBits = headerStream entries 5 ++ ([true, true, true, true, false] ++ zeros 3) := by
  unfold State.UnpackerOk
  decide +kernel

theorem test_meets_ParseLoadsHeader : (after .uinit container).UnpackerOk ∧ LegalHeader entries 5 ∧
    (after .uinit container).inputBits = headerStream entries 5 ++ ([true, true, true, true, false] ++ zeros 3) :=
  ⟨test_unpacker.1, test_legalHeader, test_unpacker.2⟩

theorem test_meets_ParseAcceptsOnlyLegal : (after .uinit container).UnpackerOk ∧ (after .uinit container).err = false ∧
    exec .parse (after .uinit container) = .next (after .parse (after .uinit container)) ∧
    (after .parse (after .uinit container)).err = false :=
  ⟨test_unpacker.1, by decide +kernel, exec_next _ _, by decide +kernel⟩

/-- The unpacker over the bytes `bs`. -/
def reading (bs : List Nat) : State := { ready bs with iend := BitVec.ofNat 32 bs.length }

theorem test_meets_ParseFormatErrors :
    ((reading [0]).UnpackerOk ∧ (reading [0]).inputBits ++ (headerStream entries 5).drop 8 = headerStream entries 5 ∧
      (headerStream entries 5).drop 8 ≠ []) ∧
    ((reading [1, 1]).UnpackerOk ∧ 257 < 2 ^ 16 ∧ (reading [1, 1]).inputBits = bitsMsb 257 16 ++ []) ∧
    ((reading [0, 2, 0x41, 1, 0x80, 0x41]).UnpackerOk ∧ (entries.take 1).length < 2 ∧ ((entries.take 1).map Entry.byte).Nodup ∧
      (∀ e ∈ entries.take 1, e.code.length ≤ 255 ∧ e.pad.length = wholeBytes e.code.length - e.code.length ∧
        (e.code = [] → 2 = 1)) ∧ 0x41#8 ∈ (entries.take 1).map Entry.byte ∧
      (reading [0, 2, 0x41, 1, 0x80, 0x41]).inputBits =
        bitsMsb 2 16 ++ (entries.take 1).flatMap Entry.bits ++ bitsMsb (0x41#8).toNat 8 ++ []) ∧
    ((reading [1, 0, 0xFF, 0]).UnpackerOk ∧ 0xFF#8 ∉ ([] : List Entry).map Entry.byte ∧
      (reading [1, 0, 0xFF, 0]).inputBits =
        bitsMsb 256 16 ++ ([] : List Entry).flatMap Entry.bits ++ bitsMsb (0xFF#8).toNat 8 ++ zeros 8 ++ []) ∧
    ((reading [0, 0, 0xFF, 0xFF, 0xFF, 0xFF]).UnpackerOk ∧
      (reading [0, 0, 0xFF, 0xFF, 0xFF, 0xFF]).inputBits = zeros 16 ++ bitsMsb (2 ^ 32 - 1) 32 ++ []) := by
  unfold State.UnpackerOk
  decide +kernel

theorem test_meets_ParseReportsFirstClash :
    let s := reading [0, 2, 0x41, 1, 0, 0x42, 2, 0]
    let e : Entry := ⟨0x41, [false], zeros 7⟩
    let f : Entry := ⟨0x42, [false, false], zeros 6⟩
    s.UnpackerOk ∧ [e, f].length ≤ 256 ∧ ([e, f].map Entry.byte).Nodup ∧
    (∀ x ∈ [e, f], x.code.length ≤ 255 ∧ x.pad.length = wholeBytes x.code.length - x.code.length ∧
      (x.code = [] → [e, f].length = 1)) ∧
    s.inputBits = bitsMsb [e, f].length 16 ++ [e, f].flatMap Entry.bits ++ [] ∧ e ∈ [e, f] ∧ f ∈ [e, f] ∧
    e.byte.toNat < f.byte.toNat ∧ (e.code <+: f.code ∨ f.code <+: e.code) ∧
    ∀ x ∈ [e, f], ∀ y ∈ [e, f], x.byte.toNat < y.byte.toNat → (x.code <+: y.code ∨ y.code <+: x.code) →
      e.byte.toNat < x.byte.toNat ∨ e.byte = x.byte ∧ f.byte.toNat ≤ y.byte.toNat := by
  unfold State.UnpackerOk
  decide +kernel

/-- The coded state reading the bytes `bs`. -/
def decoding (bs : List Nat) : State := { reading bs with ctab := coded.ctab, tableValid := true, symcount := 2, origLen := 5 }

theorem test_codes : validCodes coded.ctab = [(0x41#8, [true]), (0x42#8, [false])] := by decide +kernel

theorem test_codes_prefixFree : PrefixFree (validCodes coded.ctab) := by
  rw [test_codes]
  unfold PrefixFree
  decide

theorem test_meets_DsymDecodesSymbols : State.reset.tableValid = false ∧
    ((decoding [0xF0]).tableValid = true ∧ PrefixFree (validCodes (decoding [0xF0]).ctab) ∧ (decoding [0xF0]).UnpackerOk ∧
      (decoding [0xF0]).PackerOk ∧ [0x41#8, 0x41#8, 0x41#8, 0x41#8, 0x42#8].length = (decoding [0xF0]).origLen.toNat ∧
      (∀ b ∈ [0x41#8, 0x41#8, 0x41#8, 0x41#8, 0x42#8], ((decoding [0xF0]).ctabAt b).valid = true) ∧
      (decoding [0xF0]).inputBits =
        payload (decoding [0xF0]).codeOf [0x41#8, 0x41#8, 0x41#8, 0x41#8, 0x42#8] ++ zeros 3 ∧
      (decoding [0xF0]).Room (unpackBytes [0x41#8, 0x41#8, 0x41#8, 0x41#8, 0x42#8])) := by
  refine ⟨rfl, rfl, test_codes_prefixFree, ?_⟩
  unfold State.UnpackerOk State.PackerOk State.Room
  decide +kernel

/-- One code, "0", and 9 symbols to decode. -/
def lone (bs : List Nat) : State :=
  { reading bs with ctab := (State.reset.setCode 0x41 [false, false]).ctab, tableValid := true, symcount := 1, origLen := 9 }

theorem test_lone (b : Byte) (c : Bits) (h : (lone [0x00]).HasCode b c) : c = [false, false] := by
  have hv : validCodes (lone [0x00]).ctab = [(0x41#8, [false, false])] := by decide +kernel
  have hm : (b, c) ∈ validCodes (lone [0x00]).ctab := mem_validCodes.2 h
  rw [hv, List.mem_singleton] at hm
  exact (Prod.mk.inj hm).2

theorem test_lone_hasCode : (lone [0x00]).HasCode 0x41 [false, false] := by
  unfold State.HasCode
  decide +kernel

theorem test_lone_prefixFree : PrefixFree (validCodes (lone [0x00]).ctab) := by
  unfold PrefixFree
  decide +kernel

/-- Four symbols decoded and no bit left; one bit left that no code starts with; no room for the byte of a symbol. -/
theorem test_meets_DsymReportsSymbol : PrefixFree (validCodes (lone [0x00]).ctab) ∧ (lone [0x00]).tableValid = true ∧
    ((lone [0x00]).UnpackerOk ∧ (lone [0x00]).PackerOk ∧ (∀ b ∈ List.replicate 4 0x41#8, ((lone [0x00]).ctabAt b).valid = true) ∧
      (lone [0x00]).inputBits = payload (lone [0x00]).codeOf (List.replicate 4 0x41#8) ++ [] ∧
      (lone [0x00]).Room (unpackBytes (List.replicate 4 0x41#8)) ∧
      (List.replicate 4 0x41#8).length < (lone [0x00]).origLen.toNat) ∧
    ((∀ b c, (lone [0x00]).HasCode b c → ¬ c <+: ([] : Bits)) ∧ ∃ b c, (lone [0x00]).HasCode b c ∧ ([] : Bits) <+: c) ∧
    ((lone [0x01]).UnpackerOk ∧ (∀ b ∈ List.replicate 3 0x41#8, ((lone [0x01]).ctabAt b).valid = true) ∧
      (lone [0x01]).inputBits = payload (lone [0x01]).codeOf (List.replicate 3 0x41#8) ++ [false, true]) ∧
    ((∀ b c, (lone [0x01]).HasCode b c → ¬ c <+: [false, true]) ∧ ∀ b c, (lone [0x01]).HasCode b c → ¬ [false, true] <+: c) ∧
    (({ lone [0x00] with optr := 4096 } : State).PackerOk ∧
      ¬ ({ lone [0x00] with optr := 4096 } : State).Room (unpackBytes (List.replicate 1 0x41#8)) ∧
      (List.replicate 1 0x41#8).length ≤ (lone [0x00]).origLen.toNat) := by
  refine ⟨test_lone_prefixFree, rfl, ?_, ⟨fun b c h => ?_, 0x41, _, test_lone_hasCode, List.nil_prefix⟩, ?_, ⟨fun b c h => ?_, fun b c h => ?_⟩, ?_⟩
  · unfold State.UnpackerOk State.PackerOk State.Room
    decide +kernel
  · rw [test_lone b c h]; decide
  · unfold State.UnpackerOk
    decide +kernel
  · rw [test_lone b c h]; decide
  · rw [test_lone b c h]; decide
  · unfold State.PackerOk State.Room
    decide +kernel

/-- What ENCODE's table stage leaves. -/
def staged (s : State) : State :=
  match tableStage s with
  | .ok u => u
  | .error _ => s

theorem tableStage_staged {s : State} (hr : s.srcInRange) : tableStage s = .ok (staged s) := by
  obtain ⟨u, hu, -⟩ := tableStage_ok hr
  unfold staged
  rw [hu]

theorem test_aaaab_inRange : aaaab.srcAddr.toNat + aaaab.srcLen.toNat ≤ aaaab.params.ibufSize := by decide

/-- The container of "AAAAB" takes 13 bytes. -/
theorem test_aaaab_length :
    containerLength (validCodes (staged aaaab).ctab) (payload (staged aaaab).codeOf aaaab.source).length = 13 := by
  decide +kernel

theorem test_meets_EncodeWritesContainer : aaaab.srcAddr.toNat + aaaab.srcLen.toNat ≤ aaaab.params.ibufSize ∧
    tableStage aaaab = .ok (staged aaaab) ∧ aaaab.dstAddr.toNat +
      containerLength (validCodes (staged aaaab).ctab) (payload (staged aaaab).codeOf aaaab.source).length ≤
        aaaab.params.obufSize :=
  ⟨test_aaaab_inRange, tableStage_staged test_aaaab_inRange, by rw [test_aaaab_length]; decide⟩

theorem test_meets_EncodeErrors :
    (let s : State := { State.reset with srcAddr := 4096, srcLen := 1 }
     s.params.ibufSize < s.srcAddr.toNat + s.srcLen.toNat) ∧
    (let s : State := { State.reset with dstAddr := 4091 }
     s.srcAddr.toNat + s.srcLen.toNat ≤ s.params.ibufSize ∧ tableStage s = .ok (staged s) ∧
       s.params.obufSize < s.dstAddr.toNat +
         containerLength (validCodes (staged s).ctab) (payload (staged s).codeOf s.source).length) :=
  ⟨by decide, by decide, tableStage_staged (by decide), by decide +kernel⟩

theorem test_meets_EncodeWithRoomCompletes :
    let s : State := { State.reset with params := ⟨4096, 8728, by decide, by decide, by decide, by decide⟩, srcLen := 0 }
    s.srcAddr.toNat + s.srcLen.toNat ≤ s.params.ibufSize ∧
      s.dstAddr.toNat + (6 + 256 * 34 + (255 * s.srcLen.toNat + 7) / 8) ≤ s.params.obufSize := by decide

theorem test_meets_EncodeDegenerateInputs :
    (let s : State := { State.reset with srcAddr := 4096, dstAddr := 4090 }
     s.srcLen = 0 ∧ s.srcAddr.toNat ≤ s.params.ibufSize ∧ s.dstAddr.toNat + 6 ≤ s.params.obufSize) ∧
    (let s : State := { ready [0x41] with dstAddr := 4086 }
     0 < s.srcLen.toNat ∧ s.srcAddr.toNat + s.srcLen.toNat ≤ s.params.ibufSize ∧ (∀ x ∈ s.source, x = 0x41#8) ∧
       s.dstAddr.toNat + (9 + (s.srcLen.toNat + 7) / 8) ≤ s.params.obufSize) := by decide

theorem test_meets_EncodeDeterministic :
    let s' : State := { aaaab with nodeCount := 9, root := 4, origLen := 9 }
    s'.source = aaaab.source ∧ aaaab.err = false ∧ s'.err = false ∧ exec .encode aaaab = .next (after .encode aaaab) ∧
      exec .encode s' = .next (after .encode s') ∧ (after .encode aaaab).err = false ∧ (after .encode s').err = false :=
  ⟨rfl, rfl, rfl, exec_next _ _, exec_next _ _, test_encode.1, by decide +kernel⟩

theorem test_meets_DecodeRecoversBytes :
    (let bs := [0x41#8, 0x41#8, 0x41#8, 0x41#8, 0x42#8]
     container.srcAddr.toNat + container.srcLen.toNat ≤ container.params.ibufSize ∧ LegalHeader entries bs.length ∧
       (∀ b ∈ bs, (b, coded.codeOf b) ∈ tableOf entries) ∧
       unpackBytes container.source = headerStream entries bs.length ++ payload coded.codeOf bs ++ zeros 3 ∧
       container.dstAddr.toNat + bs.length ≤ container.params.obufSize) ∧
    (let s : State := { ready [0, 0, 0, 0, 0, 0] with dstAddr := 4097 }
     s.srcAddr.toNat + s.srcLen.toNat ≤ s.params.ibufSize ∧ LegalHeader [] 0 ∧
       unpackBytes s.source = headerStream [] 0 ++ payload coded.codeOf [] ++ [] ∧
       s.params.obufSize < s.dstAddr.toNat) :=
  ⟨⟨test_container.2, test_legalHeader, by decide +kernel, by decide +kernel, by decide⟩, by decide,
    ⟨by decide, by decide, by decide, by decide, by decide, by unfold PrefixFree; decide, by decide, by decide⟩,
    by decide +kernel, by decide⟩

/-- A source of DECODE for each header PARSE rejects. -/
theorem test_badHeaders : BadHeader (unpackBytes (ready [1, 1]).source) .fmtCount 257 ∧
    BadHeader (unpackBytes (ready [0, 2, 0x41, 1, 0x80, 0x41]).source) .fmtDupSymbol 0x41 ∧
    BadHeader (unpackBytes (ready [1, 0, 0xFF, 0]).source) .fmtZeroLen 0xFF ∧
    BadHeader (unpackBytes (ready [0, 2, 0x41, 1, 0, 0x42, 2, 0]).source) .fmtNotPrefixFree 0x4241 ∧
    BadHeader (unpackBytes (ready [0, 0, 0xFF, 0xFF, 0xFF, 0xFF]).source) .fmtEmptyTable (2 ^ 32 - 1) := by
  refine ⟨?_, ?_, ?_, ?_, ?_⟩
  · exact .count 257 [] (by decide) (by decide)
  · refine .duplicate 2 (entries.take 1) 0x41 [] (by decide) (by decide) (fun e he => ?_) (by decide) (by decide)
    rw [List.mem_singleton.1 he]
    exact ⟨by decide, by decide, by decide⟩
  · exact .zeroLength 256 [] 0xFF [] (by decide) (by decide) (by simp) (by decide) (by decide) (by decide)
  · refine .clash [⟨0x41, [false], zeros 7⟩, ⟨0x42, [false, false], zeros 6⟩] ⟨0x41, [false], zeros 7⟩
      ⟨0x42, [false, false], zeros 6⟩ [] (by decide) (fun e he => ?_) (by decide) (by decide) (by decide) (by decide)
      (by decide) (by decide)
    rcases List.mem_pair.1 he with rfl | rfl
    all_goals exact ⟨by decide, by decide, by decide⟩
  · have h : unpackBytes (ready [0, 0, 0xFF, 0xFF, 0xFF, 0xFF]).source = zeros 16 ++ bitsMsb (2 ^ 32 - 1) 32 ++ [] := by
      decide +kernel
    rw [h]
    exact .emptyTable _ [] (by norm_num) (by norm_num)

/-- The header of one code, "00", and 9 symbols; the payload ends, leaves the code, or overflows OBUF. -/
def loneEntry : List Entry := [⟨0x41, [false, false], zeros 6⟩]

def loneContainer (payload : List Nat) : State :=
  { ready ([0, 1, 0x41, 2, 0, 0, 0, 0, 9] ++ payload) with dstAddr := 4092 }

theorem test_meets_DecodeErrors :
    (let s : State := { State.reset with srcAddr := 0xFFFFFFFF, srcLen := 1 }
     s.params.ibufSize < s.srcAddr.toNat + s.srcLen.toNat) ∧
    (LegalHeader entries 5 ∧ LegalHeader loneEntry 9) ∧
    (let s : State := { container with srcLen := 11 }
     s.srcAddr.toNat + s.srcLen.toNat ≤ s.params.ibufSize ∧ (headerStream entries 5).drop 88 ≠ [] ∧
       unpackBytes s.source ++ (headerStream entries 5).drop 88 = headerStream entries 5) ∧
    (let s : State := { container with srcLen := 12, dstAddr := 4097 }
     s.srcAddr.toNat + s.srcLen.toNat ≤ s.params.ibufSize ∧
       unpackBytes s.source = headerStream entries 5 ++ payload coded.codeOf [] ++ [] ∧
       (∀ e ∈ tableOf entries, ¬ e.2 <+: ([] : Bits)) ∧ (∃ e ∈ tableOf entries, ([] : Bits) <+: e.2)) ∧
    (let s := loneContainer [1]
     s.srcAddr.toNat + s.srcLen.toNat ≤ s.params.ibufSize ∧
       (∀ b ∈ List.replicate 3 0x41#8, (b, [false, false]) ∈ tableOf loneEntry) ∧
       unpackBytes s.source =
         headerStream loneEntry 9 ++ payload (fun _ => [false, false]) (List.replicate 3 0x41#8) ++ [false, true] ∧
       s.dstAddr.toNat + (List.replicate 3 0x41#8).length ≤ s.params.obufSize ∧
       (∀ e ∈ tableOf loneEntry, ¬ e.2 <+: [false, true]) ∧ ∀ e ∈ tableOf loneEntry, ¬ [false, true] <+: e.2) ∧
    (let s := loneContainer [0, 0]
     s.srcAddr.toNat + s.srcLen.toNat ≤ s.params.ibufSize ∧
       (∀ b ∈ List.replicate 5 0x41#8, (b, [false, false]) ∈ tableOf loneEntry) ∧
       unpackBytes s.source =
         headerStream loneEntry 9 ++ payload (fun _ => [false, false]) (List.replicate 5 0x41#8) ++ zeros 6 ∧
       (List.replicate 5 0x41#8).length ≤ 9 ∧ s.params.obufSize < s.dstAddr.toNat + (List.replicate 5 0x41#8).length) := by
  refine ⟨by decide, ⟨test_legalHeader, ⟨by decide, by decide, by decide, by decide, by decide, by unfold PrefixFree; decide,
    by decide, by decide⟩⟩, ?_⟩
  decide +kernel

theorem test_meets_RoundTrip : aaaab.err = false ∧ aaaab.srcAddr.toNat + aaaab.srcLen.toNat ≤ aaaab.params.ibufSize ∧
    tableStage aaaab = .ok (staged aaaab) ∧ aaaab.dstAddr.toNat + 13 ≤ aaaab.params.obufSize ∧
    container.err = false ∧ container.srcLen.toNat = 13 ∧ container.srcAddr.toNat + 13 ≤ container.params.ibufSize ∧
    exec .encode aaaab = .next (after .encode aaaab) ∧
    container.source = (after .encode aaaab).obufBytes aaaab.dstAddr.toNat 13 ∧
    container.dstAddr.toNat + aaaab.srcLen.toNat ≤ container.params.obufSize :=
  ⟨rfl, test_aaaab_inRange, tableStage_staged test_aaaab_inRange, by decide, rfl, by decide, by decide, exec_next _ _,
    test_encode.2.symm, by decide⟩

theorem test_meets_ErrorTaken : ErrorCode.noTable ∈ [ErrorCode.illegalCmd, .range, .countOverflow, .noTree, .noTable] := by
  decide

theorem test_meets_ErrorSticky :
    let s : State := { State.reset.recordError .noTree 0 with turns := [.host (.csrWrite 3 0x50#32)] }
    s.ErrorBlocks ∧ s.err = true ∧ s.pending ≠ some 0x0000_0001#32 ∧ s.turns.head? ≠ some (.host .resetPin) ∧
      ∃ t, step s = .next t := ⟨fun _ => .inl rfl, rfl, by decide, by decide, _, rfl⟩

/-- A command raced with: the host wrote a buffer byte while it ran. -/
def racedAt (w : Word) : State := { pendingAt w [] with raced := true }

theorem test_meets_HostOwnedNeverWritten :
    (Instr.encode ≠ .sreset ∧ exec .encode aaaab = .next (after .encode aaaab)) ∧
    ((racedAt 0x50#32).pending = some 0x50#32 ∧ decode 0x50#32 = .ok .encode ∧ (racedAt 0x50#32).raced = true ∧
      (racedAt 0x50#32).turns = [] ∧ ∃ t, step (racedAt 0x50#32) = .next t) :=
  ⟨⟨by decide, exec_next _ _⟩, rfl, by decide, rfl, rfl, _, step_raced (i := .encode) rfl (by decide) rfl (.inl rfl)⟩

theorem test_meets_ValidityBits : (aaaab.err = false ∧ exec .encode aaaab = .next (after .encode aaaab) ∧
      (after .encode aaaab).err = false) ∧ State.reset.treeValid = false ∧ State.reset.tableValid = false :=
  ⟨⟨rfl, exec_next _ _, test_encode.1⟩, rfl, rfl⟩

theorem test_meets_MemoriesHaveTheirWriters : (aaaab.err = false ∧ exec .nop aaaab = .next aaaab ∧ Instr.nop ≠ .sreset ∧
      Instr.nop ∉ [Instr.hclr, .count, .encode] ∧ Instr.nop ∉ [Instr.gen, .parse, .encode, .decode]) ∧
    ((racedAt 0#32).err = false ∧ (racedAt 0#32).pending = some 0#32 ∧ decode 0#32 = .ok .nop ∧
      (racedAt 0#32).raced = true ∧ (racedAt 0#32).turns = []) :=
  ⟨⟨rfl, rfl, by decide, by decide, by decide⟩, rfl, rfl, by decide, rfl, rfl⟩

/-- No execution error is R115's for NOP, so a raced NOP leaves no error (R58). -/
theorem test_raced_nop : ∃ t, step (racedAt 0#32) = .next t ∧ t.err = false ∧ t.hist = State.reset.hist ∧
    t.treeValid = false ∧ t.tableValid = false := by
  refine ⟨_, step_raced (i := .nop) rfl (by decide) rfl (.inl rfl), ?_⟩
  rcases raced_cases .nop (racedAt 0#32).turn with ⟨r, h, -⟩ | ⟨-, ⟨r, -, h, -⟩ | h⟩
  · cases h
  · cases h
  · rw [h]
    exact ⟨rfl, rfl, rfl, rfl⟩

/-- R58: SRESET writes ERR, CTRL and the operands (R71), so a race with it leaves them free. -/
theorem test_raced_sreset : ∃ t, step (racedAt 1#32) = .next t ∧ t.err = freeFlag 2 .err ∧ t.ie = freeFlag 2 .ie ∧
    t.arg = freeReg 2 .arg ∧ t.ibuf = State.reset.ibuf := by
  refine ⟨_, step_raced (i := .sreset) rfl (by decide) rfl (.inl rfl), ?_⟩
  rcases raced_cases .sreset (racedAt 1#32).turn with ⟨r, h, -⟩ | ⟨-, ⟨r, -, h, -⟩ | h⟩
  · cases h
  · cases h
  · rw [h]
    exact ⟨rfl, rfl, rfl, rfl⟩

/-- R132: SRESET abandons the NOP that runs, and STATUS shows TREE_VALID as it was until SRESET is executed. -/
theorem test_abandon_nop : (csrWrite 3 1#32 { pendingAt 0#32 [] with treeValid := true }).treeValid = true := by decide

/-- A step runs COUNT on "AAAAB": before and after it the datapath is specified. -/
theorem test_meets_DatapathInvariantKept :
    let s : State := aaaab.withFetchWord 32 0x11
    s.raced = false ∧ s.DatapathOk ∧ step s = .next (run 0x11 aaaab) ∧ (run 0x11 aaaab).specified := by
  refine ⟨rfl, ⟨?_, ?_, ?_, fun h => ?_, ⟨fun b _ => ?_, fun h => ?_⟩, rfl, rfl, rfl⟩, rfl, ?_⟩
  · unfold State.HistOk
    decide +kernel
  · unfold State.PackerOk
    decide
  · unfold State.UnpackerOk
    decide
  · cases h
  · simp [State.withFetchWord, State.accept, aaaab, ready, State.reset, State.ctabAt, CodeEntry.invalid]
  · cases h
  · unfold State.specified
    decide +kernel

theorem test_meets_MemoryFormKept : aaaab.MemoryOk ∧ ∃ t, step aaaab = .next t := by
  refine ⟨?_, _, rfl⟩
  unfold State.MemoryOk
  decide

theorem test_meets_ErrorStateKept : (∃ t, step State.reset = .next t) ∧ State.reset.ErrorBlocks ∧ State.reset.ErrcodeOk ∧
    ¬ (State.reset.raced = true ∧ State.reset.pending = some 0x0000_0001#32) ∧ State.reset.ErrInfoOk :=
  ⟨⟨_, rfl⟩, fun h => (by cases h), fun _ => rfl, by decide, fun _ => rfl⟩

end Sys2Proof.Tests
end

/-! The invariants of the datapath (R33, R38 to R40, R45 to R47), together: what keeps them, and O57. -/

namespace Sys2Proof.Machine

open Sys2Proof Config

/-- The invariants read the datapath's own fields, so they carry over to a state that agrees on those. -/
theorem DatapathOk.of_eq {s t : State} (h : s.DatapathOk) (hparams : t.params = s.params) (hhist : t.hist = s.hist)
    (hhtotal : t.htotal = s.htotal) (hnode : t.node = s.node) (hroot : t.root = s.root)
    (hsymcount : t.symcount = s.symcount) (hctab : t.ctab = s.ctab) (htree : t.treeValid = s.treeValid)
    (htable : t.tableValid = s.tableValid) (hacc : t.acc = s.acc) (haccN : t.accN = s.accN) (hiptr : t.iptr = s.iptr)
    (hiend : t.iend = s.iend) (hibit : t.ibit = s.ibit) (hpq : t.pq = s.pq) (hwstack : t.wstack = s.wstack)
    (hdacc : t.dacc = s.dacc) : t.DatapathOk where
  hist := histOk_of_eq h.hist hhist hhtotal
  packer := PackerOk.of_eq h.packer hacc haccN
  unpacker := UnpackerOk.of_eq h.unpacker hparams hiptr hiend hibit
  tree := treeOk_of_eq h.tree htree hnode hroot
  table := tableOk_of_eq h.table hctab htable hsymcount
  hidden := by
    obtain ⟨pqEmpty, wstackEmpty, daccEmpty⟩ := h.hidden
    exact ⟨hpq.trans pqEmpty, hwstack.trans wstackEmpty, hdacc.trans daccEmpty⟩

/-- The body of every command keeps the invariants of the datapath. -/
theorem body_datapathOk {i : Instr} {s t : State} (hs : s.DatapathOk) (h : bodyOf i s = .ok t) : t.DatapathOk where
  hist := body_histOk hs.hist h
  packer := body_packerOk hs.packer hs.unpacker h
  unpacker := body_unpackerOk hs.packer hs.unpacker h
  tree := body_treeOk hs.tree h
  table := body_tableOk hs.tree hs.unpacker hs.table h
  hidden := body_hiddenEmpty hs.hidden h

/-- The reset values of R137 meet the invariants, whatever state the reset finds. -/
theorem resetRegs_datapathOk (s : State) : s.resetRegs.DatapathOk where
  hist := histOk_zero (histAt_zero _ rfl) rfl
  packer := packerOk_zero rfl rfl
  unpacker := ⟨Nat.le_refl _, Nat.zero_le _, fun _ => rfl⟩
  tree := treeOk_false rfl
  table := by
    have hinvalid : ∀ b, s.resetRegs.ctabAt b = CodeEntry.invalid := fun b => by simp [State.ctabAt]
    exact ⟨fun b _ => by rw [hinvalid b]; rfl, fun hv => by cases hv⟩
  hidden := ⟨rfl, rfl, rfl⟩

/-- Settles O57: every body keeps the invariants, a reset establishes them, and no other part of a step writes the
datapath while it is specified. -/
theorem datapathInvariantKept : Obligations.DatapathInvariantKept := by
  intro s t hraced hs hstep
  exact datapath_invariant (fun _ _ h => DatapathOk.of_eq h) (fun _ _ _ _ h hbody => body_datapathOk h hbody)
    resetRegs_datapathOk hraced hstep hs

end Sys2Proof.Machine

/-! Everything a step, raced or not, can do to the error state (R24, R26, R58, R118, R119), and O59. -/

namespace Sys2Proof.Machine

open Sys2Proof Config

/-- What a step can do to ERR, ERRCODE and ERR_INFO, and what is pending then. -/
inductive ErrorDid (s t : State) : Prop
  | kept (herr : t.err = s.err) (hcode : t.errcode = s.errcode) (hinfo : t.errInfo = s.errInfo)
      (hpending : t.pending = s.pending ∨ t.pending = none ∨ t.pending = some 0x0000_0001#32 ∨ s.err = false)
  | cleared (herr : t.err = false) (hcode : t.errcode = 0) (hinfo : t.errInfo = 0)
  | raised (herr : t.err = true) (hpending : t.pending = none)
  /-- A raced SRESET: its results are free, but ERRCODE stays 0 where the ERR drawn is 0 (R24, R58). -/
  | drawn (hraced : s.raced = true) (hsreset : s.pending = some 0x0000_0001#32) (hcode : t.ErrcodeOk)
      (hpending : t.pending = none ∨ t.pending = some 0x0000_0001#32)

/-- Where ERR and ERRCODE are drawn, ERRCODE is 0 if the ERR drawn is 0 (R24). -/
theorem drawParts_errcodeOk {ps : List Part} (hp : .errors ∈ ps) (s : State) : (s.drawParts ps).ErrcodeOk := by
  intro herr
  simp only [State.drawParts, if_pos hp] at herr ⊢
  rw [if_neg (by simp [herr])]

/-- The error registers are no result of a command but SRESET (R71). -/
theorem errors_notMem_results {i : Instr} (hi : i ≠ .sreset) : .errors ∉ results i := fun h => hi (results_host (.inl h))

/-- A completed state whose error registers agree with those of `s`. -/
theorem ErrorDid.of_agree {ps : List Part} {s t : State} (h : AgreeOutside ps s t) (hp : .errors ∉ ps) :
    ErrorDid s t.complete := by
  obtain ⟨herr, hcode, hinfo, -⟩ := h.errors hp
  exact .kept herr hcode hinfo (.inr (.inl rfl))

/-- The block's step without a race (R114). -/
theorem BlockDid.errorDid {s t : State} (h : BlockDid s t) : ErrorDid s t := by
  cases h with
  | idle hp ht => rw [ht]; exact .kept rfl rfl rfl (.inl rfl)
  | illegal w hp r hd ht => rw [ht]; exact .raised rfl rfl
  | failed w i r hp hd hb ht => rw [ht]; exact .raised rfl rfl
  | ran w i u hp hd hb ht =>
    rw [ht]
    by_cases hi : i = .sreset
    · subst hi
      obtain rfl := Except.ok.inj hb
      exact .cleared rfl rfl rfl
    · exact .of_agree (body_agree hb) (errors_notMem_results hi)

/-- The step of a raced command (R58). -/
theorem racedResult_errorDid {s : State} {i : Instr} (hraced : s.raced = true)
    (hi : i = .sreset → s.pending = some 0x0000_0001#32) : ErrorDid s (racedResult i s).complete := by
  rcases raced_cases i s with ⟨r, -, h⟩ | ⟨-, ⟨r, -, -, h⟩ | h⟩
  · rw [h]; exact .raised rfl rfl
  · rw [h]; exact .raised rfl rfl
  · rw [h]
    by_cases his : i = .sreset
    · rw [if_pos his, his]
      exact .drawn hraced (hi his) (drawParts_errcodeOk (ps := results .sreset) (by decide) s.softReset) (.inl rfl)
    · rw [if_neg his]
      exact .of_agree (drawParts_agree _ s) (errors_notMem_results his)

/-- The block's turn, raced or not. -/
theorem blockTurn_errorDid {s t : State} (h : blockTurn s = .next t) : ErrorDid s t := by
  cases hraced : s.raced with
  | false => exact (blockTurn_cases hraced h).errorDid
  | true =>
    cases hp : s.pending with
    | none =>
      simp only [blockTurn, hp] at h
      obtain rfl := Host.Outcome.next.inj h
      exact .kept rfl rfl rfl (.inl rfl)
    | some w =>
      cases hd : decode w with
      | error r =>
        simp only [blockTurn, blockStep, hp, hd] at h
        obtain rfl := Host.Outcome.next.inj h
        exact .raised rfl rfl
      | ok i =>
        simp only [blockTurn, blockStep, hp, hd, hraced, if_true] at h
        obtain rfl := Host.Outcome.next.inj h
        refine racedResult_errorDid hraced fun hi => ?_
        rw [hp, decode_sreset.1 (hd.trans (congrArg Except.ok hi))]

/-- SRESET's word accepted while the command c runs (R132). -/
theorem abandon_errorDid {s : State} {c : Word} (hp : s.pending = some c) :
    ErrorDid s ((s.abandon c).accept 0x0000_0001#32) := by
  obtain ⟨u, ps, a, b, hu, hdrawn, he⟩ := abandon_cases c s
  rw [he]
  by_cases herrors : .errors ∈ ps
  · obtain ⟨hc, hraced⟩ := hdrawn (.inl herrors)
    exact .drawn hraced (by rw [hp, hc]) (drawParts_errcodeOk herrors u) (.inr rfl)
  · obtain ⟨herr, hcode, hinfo, -⟩ := (drawParts_agree ps u).errors herrors
    rcases hu with rfl | ⟨-, rfl⟩
    · exact .kept herr hcode hinfo (.inr (.inr (.inl rfl)))
    · exact .cleared herr hcode hinfo

/-- A move of the host (R59). -/
theorem HostDid.errorDid {s t : State} (h : HostDid s t) : ErrorDid s t := by
  cases h with
  | read w d ht => rw [ht]; exact .kept rfl rfl rfl (.inl rfl)
  | ignored ht => rw [ht]; exact .kept rfl rfl rfl (.inl rfl)
  | ctrl b ht => rw [ht]; exact .kept rfl rfl rfl (.inl rfl)
  | clearDone ht => rw [ht]; exact .kept rfl rfl rfl (.inl rfl)
  | overrun hb ht => rw [ht]; exact .kept rfl rfl rfl (.inl rfl)
  | operand hb ht => rw [ht]; exact .kept rfl rfl rfl (.inl rfl)
  | ibufWrite a v ha ht => rw [ht]; exact .kept rfl rfl rfl (.inl rfl)
  | obufWrite a v ha ht => rw [ht]; exact .kept rfl rfl rfl (.inl rfl)
  | accepted w hb he ht => rw [ht]; exact .kept rfl rfl rfl (.inr (.inr (.inr he)))
  | reset hb ht => rw [ht]; exact .kept rfl rfl rfl (.inr (.inr (.inl rfl)))
  | abandoned c hp ht => rw [ht]; exact abandon_errorDid hp
  | power ht => rw [ht]; exact .cleared rfl rfl rfl

/-- A step is the block's turn or a host move, on the state with the turn taken, whether or not the host raced. -/
theorem step_turn {s t : State} (h : step s = .next t) : blockTurn s.turn = .next t ∨ HostDid s.turn t := by
  by_cases hblock : s.turns = [] ∨ s.turns.head? = some .block
  · exact .inl (by rw [← step_block hblock, h])
  · right
    unfold step at h
    cases hturns : s.turns with
    | nil => exact absurd (.inl hturns) hblock
    | cons x rest =>
      have hturn : s.turn = { s with turns := rest } := by unfold State.turn; rw [hturns]; rfl
      rw [hturns] at h
      cases x with
      | block => exact absurd (.inr (by rw [hturns]; rfl)) hblock
      | host m => rw [hturn]; exact hostMove_cases h

theorem step_errorDid {s t : State} (h : step s = .next t) : ErrorDid s.turn t := by
  rcases step_turn h with hblock | hhost
  · exact blockTurn_errorDid hblock
  · exact hhost.errorDid

/-- R119, R125: with ERR = 1 nothing but SRESET's word is pending. -/
theorem ErrorDid.errorBlocks {s t : State} (h : ErrorDid s t) (hs : s.ErrorBlocks) : t.ErrorBlocks := by
  intro hterr
  cases h with
  | kept herr _ _ hpending =>
    rw [herr] at hterr
    rcases hpending with same | idle | sreset | noError
    · rw [same]; exact hs hterr
    · exact .inl idle
    · exact .inr sreset
    · rw [noError] at hterr; cases hterr
  | cleared herr _ _ => rw [herr] at hterr; cases hterr
  | raised _ hpending => exact .inl hpending
  | drawn _ _ _ hpending => exact hpending

/-- R24: ERRCODE is 0 while ERR = 0. -/
theorem ErrorDid.errcodeOk {s t : State} (h : ErrorDid s t) (hs : s.ErrcodeOk) : t.ErrcodeOk := by
  cases h with
  | kept herr hcode _ _ => exact fun ht => by rw [hcode]; exact hs (herr ▸ ht)
  | cleared _ hcode _ => exact fun _ => hcode
  | raised herr _ => exact fun ht => by rw [herr] at ht; cases ht
  | drawn _ _ hcode _ => exact hcode

/-- R26: ERR_INFO is 0 while ERR = 0, unless the host raced with SRESET. -/
theorem ErrorDid.errInfoOk {s t : State} (h : ErrorDid s t)
    (hrace : ¬ (s.raced = true ∧ s.pending = some 0x0000_0001#32)) (hs : s.ErrInfoOk) : t.ErrInfoOk := by
  cases h with
  | kept herr _ hinfo _ => exact fun ht => by rw [hinfo]; exact hs (herr ▸ ht)
  | cleared _ _ hinfo => exact fun _ => hinfo
  | raised herr _ => exact fun ht => by rw [herr] at ht; cases ht
  | drawn hraced hsreset _ _ => exact absurd ⟨hraced, hsreset⟩ hrace

/-- Settles O59, from all that a step can do to the error state. -/
theorem errorStateKept : Obligations.ErrorStateKept := by
  intro s t hstep
  have h := step_errorDid hstep
  exact ⟨h.errorBlocks, h.errcodeOk, h.errInfoOk⟩

end Sys2Proof.Machine

/-! TREE_VALID and TABLE_VALID (R45): what each body leaves in them, what requires them, and O55. -/

namespace Sys2Proof.Machine

open Sys2Proof Config

/-- TREE_VALID after a command that raised no error: the writers of the bit one by one, and every other command keeps it. -/
theorem body_treeValid {i : Instr} {s t : State} (h : bodyOf i s = .ok t) :
    t.treeValid = if i ∈ [Instr.hclr, .count, .sreset] then false
      else if i ∈ [Instr.build, .encode] then true else s.treeValid := by
  have kept : .treeValid ∉ results i → t.treeValid = s.treeValid := (body_agree h).treeValid
  cases i with
  | hclr => obtain rfl := Except.ok.inj h; rfl
  | count => rw [count_frame h]; rfl
  | sreset => obtain rfl := Except.ok.inj h; rfl
  | build => rw [build_frame h]; rfl
  | encode =>
    obtain ⟨u, -, hcoded, hframe⟩ := encode_frame h
    rw [hframe, hcoded.frame]
    rfl
  | _ => simpa using kept (by simp [results])

/-- TABLE_VALID after a command that raised no error. -/
theorem body_tableValid {i : Instr} {s t : State} (h : bodyOf i s = .ok t) :
    t.tableValid = if i ∈ [Instr.build, .sreset] then false
      else if i ∈ [Instr.gen, .parse, .encode, .decode] then true else s.tableValid := by
  have kept : .tableValid ∉ results i → t.tableValid = s.tableValid := (body_agree h).tableValid
  cases i with
  | build => rw [build_frame h]; rfl
  | sreset => obtain rfl := Except.ok.inj h; rfl
  | gen => obtain ⟨-, hframe, -⟩ := gen_frame h; rw [hframe]; rfl
  | parse => rw [parse_frame h]; rfl
  | encode =>
    obtain ⟨u, -, hcoded, hframe⟩ := encode_frame h
    rw [hframe, hcoded.frame]
    rfl
  | decode =>
    obtain ⟨-, -, -, -, -, hframe⟩ := decode_frame h
    rw [hframe]
    rfl
  | _ => simpa using kept (by simp [results])

/-- A command that ends without ERR ended with its body's result. -/
theorem body_of_exec {i : Instr} {s t : State} (h : exec i s = .next t) (herr : t.err = false) : bodyOf i s = .ok t := by
  rcases exec_cases i s with ⟨u, hbody, hexec⟩ | ⟨r, -, hexec⟩
  · rw [hbody, Host.Outcome.next.inj (hexec.symm.trans h)]
  · rw [← Host.Outcome.next.inj (hexec.symm.trans h)] at herr
    cases herr

/-- GEN without a tree marked valid (R81). -/
theorem exec_gen_noTree {s : State} (hv : s.treeValid = false) : exec .gen s = .next (s.recordError .noTree 0) :=
  exec_error (i := .gen) (gen_noTree hv)

/-- The commands that use the code table, without one marked valid (R92, R102, R106). -/
theorem exec_noTable {s : State} (hv : s.tableValid = false) {i : Instr} (hi : i ∈ [Instr.psym, .thdr, .dsym]) :
    exec i s = .next (s.recordError .noTable 0) := by
  have hpre : preconditions i s = .error ⟨.noTable, 0⟩ := by
    simp only [List.mem_cons, List.not_mem_nil, or_false] at hi
    rcases hi with rfl | rfl | rfl <;> (simp only [preconditions, raiseIf_pos hv]; rfl)
  obtain ⟨hbody, -⟩ := (preconditions_error i s _).1 hpre
  exact exec_error hbody

/-- Settles O55, from what each body leaves in the two bits. -/
theorem validityBits : Obligations.ValidityBits := by
  refine ⟨fun i s t _ hexec herr => ?_, fun s => ⟨exec_gen_noTree, fun hv i => exec_noTable hv⟩⟩
  have hbody := body_of_exec hexec herr
  exact ⟨body_treeValid hbody, body_tableValid hbody⟩

end Sys2Proof.Machine

/-! The CSR window (R21 to R42, R48, R49): the map, reads and writes (O12, O14), the layouts (O15) and the windows (O16). -/

namespace Sys2Proof.Machine

open Sys2Proof Config

/-! ### The map, writes and reads -/

/-- The offsets above the 35 registers are reserved (R21). -/
theorem csrAt_reserved {i : BitVec 6} (h : 35 ≤ i.toNat) : csrAt i = none :=
  List.getElem?_eq_none h

theorem csrRead_reserved {i : BitVec 6} (h : csrAt i = none) (s : State) : csrRead i s = s.answer 0 := by
  simp only [csrRead, h]

theorem csrWrite_reserved {i : BitVec 6} (h : csrAt i = none) (w : Word) (s : State) : csrWrite i w s = s := by
  simp only [csrWrite, h]

theorem csrWrite_mapped {i : BitVec 6} {r : Csr} (h : csrAt i = some r) (w : Word) (s : State) :
    csrWrite i w s = s.csrPut w r := by
  simp only [csrWrite, h]

/-- A read of a register that is exact now: the machine is idle, or R49 lists the register. -/
theorem csrRead_exact {i : BitVec 6} {r : Csr} (h : csrAt i = some r) {s : State}
    (hexact : s.busy = false ∨ exactWhileBusy r = true) : csrRead i s = s.answer (s.csrValue r) := by
  have hcond : (s.busy && !exactWhileBusy r) = false := by
    rcases hexact with e | e <;> simp [e]
  simp only [csrRead, h, hcond, Bool.false_eq_true, if_false]

/-- A read of a register the block writes, while BUSY (R49). -/
theorem csrRead_free {i : BitVec 6} {r : Csr} (h : csrAt i = some r) {s : State} (hb : s.busy = true)
    (hr : exactWhileBusy r = false) : csrRead i s = s.answerFree (freeRead s.draws) := by
  simp only [csrRead, h, hb, hr, Bool.not_false, Bool.and_self, if_true]

theorem whenIdle_busy {s : State} (h : s.busy = true) (t : State) : s.whenIdle t = { s with ovr := true } := if_pos h

theorem whenIdle_idle {s : State} (h : s.busy = false) (t : State) : s.whenIdle t = t := if_neg (by simp [h])

/-- A write to an operand register while BUSY is dropped and sets OVR (R48, R120). -/
theorem csrPut_busy {s : State} (h : s.busy = true) (w : Word) {r : Csr}
    (hr : r ∈ [Csr.srcAddr, .srcLen, .dstAddr, .arg, .origLen, .idx]) : s.csrPut w r = { s with ovr := true } := by
  simp only [List.mem_cons, List.not_mem_nil, or_false] at hr
  rcases hr with rfl | rfl | rfl | rfl | rfl | rfl <;> exact whenIdle_busy h _

/-- A write to STATUS clears DONE where bit 1 is set (R24). -/
theorem csrPut_status (s : State) (w : Word) : s.csrPut w .status = { s with done := s.done && !w.getLsbD 1 } := by
  simp only [State.csrPut]
  cases w.getLsbD 1 with
  | true => simp
  | false => simp

/-- The registers that a write does not reach (R21). -/
theorem csrPut_readOnly {r : Csr} (hr : r ∉ [Csr.srcAddr, .srcLen, .dstAddr, .arg, .origLen, .idx, .ctrl, .status, .cmd])
    (s : State) (w : Word) : s.csrPut w r = s := by
  cases r with
  | srcAddr | srcLen | dstAddr | arg | origLen | idx | ctrl | status | cmd => exact absurd (by decide) hr
  | _ => rfl

/-- Settles O12: the map by evaluation, then a rule for each group of registers. -/
theorem registerMapAndWrites : Obligations.RegisterMapAndWrites := by
  refine ⟨by decide, fun i w s hi => ?_, fun i w s r h => csrWrite_mapped h w s, fun s w => ?_⟩
  · have h := csrAt_reserved hi
    exact ⟨csrRead_reserved h s, csrWrite_reserved h w s⟩
  · refine ⟨fun hb r hr => csrPut_busy hb w hr, fun hidle => ?_, rfl, csrPut_status s w, fun r hr => csrPut_readOnly hr s w⟩
    exact ⟨whenIdle_idle hidle _, whenIdle_idle hidle _, whenIdle_idle hidle _, whenIdle_idle hidle _,
      whenIdle_idle hidle _, whenIdle_idle hidle _⟩

/-- Settles O14: a read is exact or free, and it is exact where the machine is idle or R49 (CMD: R25) says so. -/
theorem csrReadsExact : Obligations.CsrReadsExact := by
  intro s i r h
  refine ⟨?_, fun hexact => csrRead_exact h (hexact.imp_right ?_)⟩
  · by_cases hexact : s.busy = false ∨ exactWhileBusy r = true
    · exact ⟨_, _, csrRead_exact h hexact⟩
    · simp only [not_or, Bool.not_eq_false, Bool.not_eq_true] at hexact
      exact ⟨_, _, csrRead_free h hexact.1 hexact.2⟩
  · exact (by decide : ∀ r ∈ [Csr.id, .ctrl, .status, .cmd, .srcAddr, .srcLen, .dstAddr, .arg, .idx, .ibufSz, .obufSz],
      exactWhileBusy r = true) r

/-! ### Fields of a word -/

/-- Concatenation as a sum: the left part stands above the right one. -/
theorem toNat_append_add {m n : Nat} (x : BitVec m) (y : BitVec n) : (x ++ y).toNat = 2 ^ n * x.toNat + y.toNat := by
  rw [BitVec.toNat_append, Nat.shiftLeft_eq, Nat.mul_comm, Nat.two_pow_add_eq_or_of_lt y.isLt]

/-- A field put above the low k bits of a word. -/
theorem toNat_shiftLeft_or {x y : Word} {k : Nat} (hx : x.toNat < 2 ^ k) (hy : 2 ^ k * y.toNat < 2 ^ 32) :
    (y <<< k ||| x).toNat = 2 ^ k * y.toNat + x.toNat := by
  rw [BitVec.toNat_or, BitVec.toNat_shiftLeft, Nat.shiftLeft_eq, Nat.mul_comm, Nat.mod_eq_of_lt hy,
    Nat.two_pow_add_eq_or_of_lt hx]

/-- A register narrower than a word reads zero-extended. -/
theorem toNat_setWidth_word {n : Nat} (hn : n ≤ 32) (x : BitVec n) : (x.setWidth 32).toNat = x.toNat :=
  BitVec.toNat_setWidth_of_le hn

/-- STATUS by its fields (R24). -/
theorem statusWord_toNat (s : State) : s.statusWord.toNat = s.busy.toNat + 2 * s.done.toNat + 4 * s.err.toNat +
    8 * s.ovr.toNat + 16 * s.treeValid.toNat + 32 * s.tableValid.toNat + 256 * s.errcode.toNat := by
  simp only [State.statusWord, toNat_append_add, BitVec.toNat_ofBool, BitVec.toNat_ofNat]
  omega

/-- PSTATE by its fields (R38). -/
theorem pstateWord_toNat (s : State) : s.pstateWord.toNat = s.acc.toNat + 256 * s.accN.toNat := by
  have hacc := toNat_setWidth_word (by decide) s.acc
  have haccN := toNat_setWidth_word (by decide) s.accN
  unfold State.pstateWord
  rw [BitVec.or_comm, toNat_shiftLeft_or (by omega) (by omega), hacc, haccN, Nat.add_comm]
  rfl

/-- A buffer size reads whole: it is at most 2^31 (R6, R41). -/
theorem toNat_ofNat_size {n : Nat} (h : n ≤ 2 ^ 31) : (BitVec.ofNat 32 n).toNat = n := by
  rw [BitVec.toNat_ofNat, Nat.mod_eq_of_lt (by omega)]

/-- Settles O15: the words by their fields, the narrow registers zero-extended, the others whole. -/
theorem registerLayouts : Obligations.RegisterLayouts := by
  intro s
  refine ⟨rfl, rfl, statusWord_toNat s, ?ctrl, pstateWord_toNat s, toNat_setWidth_word (by decide) _,
    toNat_setWidth_word (by decide) _, toNat_setWidth_word (by decide) _, toNat_setWidth_word (by decide) _,
    rfl, rfl, rfl, rfl, rfl, rfl, rfl, rfl, rfl, rfl, rfl, toNat_setWidth_word (by decide) _,
    toNat_ofNat_size s.params.ibuf_le, toNat_ofNat_size s.params.obuf_le⟩
  case ctrl => exact (toNat_setWidth_word (by decide) _).trans (BitVec.toNat_ofBool s.ie)

/-! ### The windows (R42) -/

/-- The bits of the number of a bit sequence are the sequence, first bit highest. -/
theorem testBit_natOfBits {bs : Bits} {j : Nat} (h : j < bs.length) :
    (natOfBits bs).testBit (bs.length - 1 - j) = bs[j] := by
  have hbit := bitsMsb_getElem (natOfBits bs) bs.length j (by simpa using h)
  simp only [bitsMsb_natOfBits] at hbit
  exact hbit.symm

/-- CT_LEN: valid in bit 31 above the length of the code. -/
theorem ctLenWord_toNat (s : State) : s.ctLenWord.toNat =
    2 ^ 31 * (s.ctabAt s.idxByte).valid.toNat + (s.ctabAt s.idxByte).len.toNat := by
  have hvalid := (toNat_setWidth_word (by decide) (BitVec.ofBool (s.ctabAt s.idxByte).valid)).trans (BitVec.toNat_ofBool _)
  have hlen := toNat_setWidth_word (by decide) (s.ctabAt s.idxByte).len
  have hle := Bool.toNat_le (s.ctabAt s.idxByte).valid
  unfold State.ctLenWord
  dsimp only
  rw [toNat_shiftLeft_or (by omega) (by omega), hvalid, hlen]

/-- CT_CODEk shows the code bits 32k to 32k + 31, the first of them in bit 31. -/
theorem ctCodeWord_getLsbD (s : State) (k : Nat) {j : Nat} (hj : j < 32) :
    (s.ctCodeWord k).getLsbD (31 - j) = (s.ctabAt s.idxByte).code.getD (32 * k + j) false := by
  have hbit := testBit_natOfBits (j := j)
    (bs := (List.range 32).map fun j => (s.ctabAt s.idxByte).code.getD (32 * k + j) false) (by simpa using hj)
  simp only [List.length_map, List.length_range, List.getElem_map, List.getElem_range] at hbit
  unfold State.ctCodeWord
  dsimp only
  rw [BitVec.getLsbD_ofNat, ← hbit, decide_eq_true (by omega), Bool.true_and]

/-- NODE_RD0 of a leaf: bit 31 above the symbol. -/
theorem nodeRd0_leaf {s : State} (hi : s.idx.toNat < s.nodeCount.toNat) (hk : (s.nodeAt s.idx).kind = .leaf) :
    s.nodeRd0.toNat = 2 ^ 31 + (s.nodeAt s.idx).sym.toNat := by
  have hsym := toNat_setWidth_word (by decide) (s.nodeAt s.idx).sym
  unfold State.nodeRd0
  simp only [if_pos hi, hk]
  rw [toNat_shiftLeft_or (by omega) (by decide), hsym]
  rfl

/-- NODE_RD0 of an internal node: bits 31 and 30 above the children. -/
theorem nodeRd0_internal {s : State} (hi : s.idx.toNat < s.nodeCount.toNat) (hk : (s.nodeAt s.idx).kind = .internal) :
    s.nodeRd0.toNat =
      2 ^ 31 + 2 ^ 30 + 2 ^ 16 * (s.nodeAt s.idx).right.toNat + (s.nodeAt s.idx).left.toNat := by
  have hright := toNat_setWidth_word (by decide) (s.nodeAt s.idx).right
  have hleft := toNat_setWidth_word (by decide) (s.nodeAt s.idx).left
  have hone : (1#32).toNat = 1 := rfl
  unfold State.nodeRd0
  simp only [if_pos hi, hk, BitVec.or_assoc]
  have hchildren := toNat_shiftLeft_or (k := 16) (x := (s.nodeAt s.idx).left.setWidth 32)
    (y := (s.nodeAt s.idx).right.setWidth 32) (by omega) (by omega)
  have hbit30 := toNat_shiftLeft_or (k := 30) (y := 1#32) (x := (s.nodeAt s.idx).right.setWidth 32 <<< 16 |||
    (s.nodeAt s.idx).left.setWidth 32) (by omega) (by omega)
  rw [toNat_shiftLeft_or (by omega) (by omega), hbit30, hchildren, hright, hleft, hone]
  omega

/-- The nodes not allocated read 0. -/
theorem nodeRd_unallocated {s : State} (h : s.nodeCount.toNat ≤ s.idx.toNat) : s.nodeRd0 = 0 ∧ s.nodeRd1 = 0 := by
  unfold State.nodeRd0 State.nodeRd1
  dsimp only
  rw [if_neg (by omega), if_neg (by omega)]
  exact ⟨rfl, rfl⟩

/-- Settles O16, with b the byte that IDX selects. -/
theorem windowsShowMemories : Obligations.WindowsShowMemories := by
  intro s b hb
  obtain rfl : b = s.idxByte := BitVec.eq_of_toNat_eq (by rw [hb, State.idxByte, BitVec.toNat_setWidth])
  exact ⟨rfl, ctLenWord_toNat s, fun k j hj => ctCodeWord_getLsbD s k.val hj, nodeRd_unallocated,
    fun hi => ⟨if_pos hi, nodeRd0_leaf hi, nodeRd0_internal hi⟩⟩

end Sys2Proof.Machine

/-! Host buffer accesses (R53) and the form of the buffers (R50, R54): O17 and O58. -/

namespace Sys2Proof.Machine

open Sys2Proof Config

/-! ### Host accesses while idle -/

/-- A read of a buffer while idle answers the byte and does nothing else (R53). -/
theorem bufferRead_idle {s : State} (h : s.busy = false) (v : Byte) : s.bufferRead v = { s with rdata := v.setWidth 32 } :=
  if_neg (by simp [h])

/-- A write of a buffer while idle is no race (R58). -/
theorem bufferWritten_idle {s : State} (h : s.busy = false) : s.bufferWritten = s := if_neg (by simp [h])

/-- A read of IBUF while idle (R53, log 11). -/
theorem hostMove_ibufRead_idle {s : State} (hidle : s.busy = false) {a : Word} (ha : a.toNat < s.params.ibufSize) :
    hostMove (.ibufRead a) s = .next { s with rdata := (s.ibufByte a.toNat).setWidth 32 } :=
  (if_pos ha).trans (congrArg _ (bufferRead_idle hidle _))

/-- A read of OBUF while idle (R53, log 11). -/
theorem hostMove_obufRead_idle {s : State} (hidle : s.busy = false) {a : Word} (ha : a.toNat < s.params.obufSize) :
    hostMove (.obufRead a) s = .next { s with rdata := (s.obufByte a.toNat).setWidth 32 } :=
  (if_pos ha).trans (congrArg _ (bufferRead_idle hidle _))

/-- A write of IBUF while idle (R53). -/
theorem hostMove_ibufWrite_idle {s : State} (hidle : s.busy = false) {a : Word} (ha : a.toNat < s.params.ibufSize) (v : Byte) :
    hostMove (.ibufWrite a v) s = .next { s with ibuf := s.ibuf.set a.toNat v } :=
  (if_pos ha).trans (congrArg _ (bufferWritten_idle hidle))

/-- A write of OBUF while idle (R53, log 28). -/
theorem hostMove_obufWrite_idle {s : State} (hidle : s.busy = false) {a : Word} (ha : a.toNat < s.params.obufSize) (v : Byte) :
    hostMove (.obufWrite a v) s = .next { s with obuf := s.obuf.set a.toNat v } :=
  (if_pos ha).trans (congrArg _ (bufferWritten_idle hidle))

/-- Settles O17: each move by its rule while idle, and the written buffer by `Memory.get_set`. -/
theorem bufferAccesses : Obligations.BufferAccesses := by
  intro s a v hidle
  exact ⟨fun ha => ⟨hostMove_ibufRead_idle hidle ha, _, hostMove_ibufWrite_idle hidle ha v, rfl, Memory.get_set freeIbuf _ _ v⟩,
    fun ha => ⟨hostMove_obufRead_idle hidle ha, _, hostMove_obufWrite_idle hidle ha v, rfl, Memory.get_set freeObuf _ _ v⟩⟩

/-! ### The canonical form -/

/-- A command, with an error or without, keeps both buffers in form. -/
theorem exec_memoryOk {i : Instr} {s t : State} (hm : s.MemoryOk) (h : exec i s = .next t) : t.MemoryOk := by
  rcases exec_cases i s with ⟨u, hbody, hexec⟩ | ⟨r, -, hexec⟩
  · obtain rfl := Host.Outcome.next.inj (hexec.symm.trans h)
    exact body_memoryOk hm hbody
  · obtain rfl := Host.Outcome.next.inj (hexec.symm.trans h)
    exact takeError_memoryOk hm r

/-- The block's step on a pending word (R114), raced or not. -/
theorem blockStep_memoryOk {w : Word} {s t : State} (hm : s.MemoryOk) (h : blockStep w s = .next t) : t.MemoryOk := by
  unfold blockStep at h
  cases hd : decode w with
  | error r =>
    simp only [hd] at h
    obtain rfl := Host.Outcome.next.inj h
    refine takeError_memoryOk (s := if s.raced then s.drawParts [] else s) ?_ _
    split
    · exact drawParts_memoryOk hm []
    · exact hm
  | ok i =>
    simp only [hd] at h
    split at h
    · obtain rfl := Host.Outcome.next.inj h
      exact raced_memoryOk hm i
    · cases hexec : exec i s with
      | next u =>
        rw [hexec] at h
        obtain rfl := Host.Outcome.next.inj h
        exact exec_memoryOk (t := u) hm hexec
      | fault f => rw [hexec] at h; cases h
      | refused r => rw [hexec] at h; cases h

theorem blockTurn_memoryOk {s t : State} (hm : s.MemoryOk) (h : blockTurn s = .next t) : t.MemoryOk := by
  unfold blockTurn at h
  split at h
  · exact blockStep_memoryOk hm h
  · obtain rfl := Host.Outcome.next.inj h
    exact hm

/-- Settles O58, for the block's turn and for every move of the host. -/
theorem memoryFormKept : Obligations.MemoryFormKept := by
  intro s t hm hstep
  have hturn : s.turn.MemoryOk := hm
  rcases step_turn hstep with hblock | hhost
  · exact blockTurn_memoryOk hturn hblock
  · exact hostDid_memoryOk hturn hhost

end Sys2Proof.Machine

/-! Who writes what: what the host owns (R23, R27 to R30, R42, R50) and the memories (R31, R35, R43 to R46), under every
command but SRESET, raced or not (R58): O54 and O56. -/

namespace Sys2Proof.Machine

open Sys2Proof Config

/-! ### What the host owns -/

/-- `t` has what the host owns as `s` has it, and the turns and the completion flags too. -/
structure HostOwnedKept (s t : State) : Prop where
  ie : t.ie = s.ie
  srcAddr : t.srcAddr = s.srcAddr
  srcLen : t.srcLen = s.srcLen
  dstAddr : t.dstAddr = s.dstAddr
  arg : t.arg = s.arg
  idx : t.idx = s.idx
  ovr : t.ovr = s.ovr
  ibuf : t.ibuf = s.ibuf
  params : t.params = s.params
  pending : t.pending = s.pending
  done : t.done = s.done
  turns : t.turns = s.turns

/-- Nothing the host owns is part of the datapath. -/
theorem SameButDatapath.hostOwnedKept {s t : State} (h : SameButDatapath s t) : HostOwnedKept s t := by
  unfold SameButDatapath at h
  rw [← h]
  constructor <;> rfl

/-- An error writes its bookkeeping and the datapath at most (R116, R117). -/
theorem takeError_hostOwnedKept (s : State) (r : Raise) : HostOwnedKept s (s.takeError r) := by
  unfold State.takeError
  split
  · constructor <;> rfl
  · constructor <;> rfl

/-- Drawing results other than SRESET's keeps what the host owns (R58). -/
theorem drawParts_hostOwnedKept {ps : List Part} (herrors : .errors ∉ ps) (hoperands : .operands ∉ ps) (s : State) :
    HostOwnedKept s (s.drawParts ps) := by
  obtain ⟨-, -, -, hovr⟩ := (drawParts_agree ps s).errors herrors
  obtain ⟨hie, hsrcAddr, hsrcLen, hdstAddr, harg, hidx⟩ := (drawParts_agree ps s).operands hoperands
  exact ⟨hie, hsrcAddr, hsrcLen, hdstAddr, harg, hidx, hovr, rfl, rfl, rfl, rfl, rfl⟩

theorem exec_hostOwnedKept {i : Instr} (hi : i ≠ .sreset) {s t : State} (h : exec i s = .next t) : HostOwnedKept s t := by
  rcases exec_cases i s with ⟨u, hbody, hexec⟩ | ⟨r, -, hexec⟩
  · obtain rfl := Host.Outcome.next.inj (hexec.symm.trans h)
    exact (body_frame hi hbody).hostOwnedKept
  · obtain rfl := Host.Outcome.next.inj (hexec.symm.trans h)
    exact takeError_hostOwnedKept s r

theorem racedResult_hostOwnedKept {i : Instr} (hi : i ≠ .sreset) (s : State) : HostOwnedKept s (racedResult i s) := by
  rcases raced_cases i s with ⟨r, -, h⟩ | ⟨-, ⟨r, -, -, h⟩ | h⟩
  · rw [h]
    constructor <;> rfl
  · rw [h]
    exact takeError_hostOwnedKept s r
  · rw [h, if_neg hi]
    exact drawParts_hostOwnedKept (fun he => hi (results_host (.inl he))) (fun ho => hi (results_host (.inr ho))) s

/-- Settles O54: exec and the result of a raced command keep what the host owns, and completion and the turn do not touch
it. -/
theorem hostOwnedNeverWritten : Obligations.HostOwnedNeverWritten := by
  intro i s t hi
  refine ⟨fun hexec => ?_, fun w hp hd hraced hturns hstep => ?_⟩
  · have h := exec_hostOwnedKept hi hexec
    exact ⟨h.ie, h.srcAddr, h.srcLen, h.dstAddr, h.arg, h.idx, h.ovr, h.ibuf, h.params, h.pending, h.done, h.turns⟩
  · have h := racedResult_hostOwnedKept hi s.turn
    obtain rfl := Host.Outcome.next.inj ((step_raced hp hd hraced hturns).symm.trans hstep)
    exact ⟨h.ie, h.srcAddr, h.srcLen, h.dstAddr, h.arg, h.idx, h.ovr, h.ibuf, h.params⟩

/-! ### The writers of each memory -/

section
variable {i : Instr}

theorem hist_mem_results : .hist ∈ results i ↔ i ∈ [Instr.sreset, .hclr, .count, .encode] := by
  cases i <;> simp [results]

theorem htotal_mem_results : .htotal ∈ results i ↔ i ∈ [Instr.sreset, .hclr, .count, .encode] := by
  cases i <;> simp [results]

theorem tree_mem_results : .tree ∈ results i ↔ i ∈ [Instr.sreset, .build, .encode] := by
  cases i <;> simp [results]

theorem ctab_mem_results : .ctab ∈ results i ↔ i ∈ [Instr.sreset, .gen, .parse, .encode, .decode] := by
  cases i <;> simp [results]

theorem result_mem_results : .result ∈ results i ↔ i = .sreset ∨ ∃ n, i = .getb n := by
  cases i <;> simp [results]

theorem treeValid_mem_results : .treeValid ∈ results i ↔ i ∈ [Instr.sreset, .hclr, .count, .build, .encode] := by
  cases i <;> simp [results]

theorem tableValid_mem_results :
    .tableValid ∈ results i ↔ i ∈ [Instr.sreset, .build, .gen, .parse, .encode, .decode] := by
  cases i <;> simp [results]

end

/-- `t` agrees with `s` on every memory, on RESULT and on the validity bits but where the command i writes them. -/
structure WritersKept (i : Instr) (s t : State) : Prop where
  hist : i ∉ [Instr.hclr, .count, .encode] → t.hist = s.hist ∧ t.htotal = s.htotal
  tree : i ∉ [Instr.build, .encode] → t.node = s.node ∧ t.nodeCount = s.nodeCount ∧ t.root = s.root
  ctab : i ∉ [Instr.gen, .parse, .encode, .decode] → t.ctab = s.ctab
  result : (∀ n, i ≠ .getb n) → t.result = s.result
  treeValid : i ∉ [Instr.hclr, .count, .build, .encode] → t.treeValid = s.treeValid
  tableValid : i ∉ [Instr.build, .gen, .parse, .encode, .decode] → t.tableValid = s.tableValid

/-- The commands that have a part among their results are its writers. -/
theorem AgreeOutside.writersKept {i : Instr} {s t : State} (h : AgreeOutside (results i) s t) (hi : i ≠ .sreset) :
    WritersKept i s t where
  hist hw := ⟨h.hist (hist_mem_results.not.2 (List.not_mem_cons_of_ne_of_not_mem hi hw)),
    h.htotal (htotal_mem_results.not.2 (List.not_mem_cons_of_ne_of_not_mem hi hw))⟩
  tree hw := h.tree (tree_mem_results.not.2 (List.not_mem_cons_of_ne_of_not_mem hi hw))
  ctab hw := h.ctab (ctab_mem_results.not.2 (List.not_mem_cons_of_ne_of_not_mem hi hw))
  result hw := h.result (result_mem_results.not.2 (not_or.2 ⟨hi, not_exists.2 hw⟩))
  treeValid hw := h.treeValid (treeValid_mem_results.not.2 (List.not_mem_cons_of_ne_of_not_mem hi hw))
  tableValid hw := h.tableValid (tableValid_mem_results.not.2 (List.not_mem_cons_of_ne_of_not_mem hi hw))

/-- Only the commands that pack write OBUF (R50); PINIT sets the packer's registers alone. -/
theorem body_obuf {i : Instr} {s t : State} (h : bodyOf i s = .ok t) (hputb : ∀ n, i ≠ .putb n)
    (hi : i ∉ [Instr.psym, .pflush, .thdr, .dsym, .encode, .decode]) : t.obuf = s.obuf := by
  cases i with
  | putb n => exact absurd rfl (hputb n)
  | psym | pflush | thdr | dsym | encode | decode => exact absurd (by decide) hi
  | nop | sreset | hclr | pinit => obtain rfl := Except.ok.inj h; rfl
  | count => rw [count_frame h]
  | build => rw [build_frame h]
  | gen =>
    obtain ⟨-, hframe, -⟩ := gen_frame h
    rw [hframe]
  | uinit =>
    obtain ⟨-, hframe⟩ := uinit_frame h
    rw [hframe]
  | getb n => rw [getb_frame h]
  | ualign =>
    obtain rfl := Except.ok.inj h
    split <;> rfl
  | parse => rw [parse_frame h]

/-- A raced command that reports no error wrote its results and OBUF alone (R58). -/
theorem racedResult_agree {i : Instr} (hi : i ≠ .sreset) {s : State} (herr : (racedResult i s).err = false) :
    AgreeOutside (results i) s (racedResult i s) := by
  rcases raced_cases i s with ⟨r, -, h⟩ | ⟨-, ⟨r, -, -, h⟩ | h⟩
  · rw [h] at herr; cases herr
  · rw [h] at herr; cases herr
  · rw [h, if_neg hi]
    exact drawParts_agree _ s

/-- Settles O56: what a command writes are its results and OBUF, and a part is a result of its writers alone. -/
theorem memoriesHaveTheirWriters : Obligations.MemoriesHaveTheirWriters := by
  intro i s t _ hi herr
  refine ⟨fun hexec => ?_, fun w hp hd hraced hturns hstep => ?_⟩
  · have hbody := body_of_exec hexec herr
    have h := (body_agree hbody).writersKept hi
    exact ⟨h.hist, h.tree, h.ctab, h.result, body_obuf hbody⟩
  · obtain rfl := Host.Outcome.next.inj ((step_raced hp hd hraced hturns).symm.trans hstep)
    have h := (racedResult_agree (s := s.turn) hi herr).writersKept hi
    exact ⟨h.hist, h.tree, h.ctab, h.result, h.treeValid, h.tableValid⟩

end Sys2Proof.Machine

/-! The encoding of commands (R60 to R66): decoder and encoder by the fields of a word (O1 to O3), and the step of an
ILLEGAL word (O5). -/

namespace Sys2Proof.Machine

open Sys2Proof Config

/-! ### The fields of a command word (R60) -/

section
variable (w : Word)

theorem field_opcode_toNat : (field w 7 0).toNat = w.toNat % 256 := by
  simp [field]

theorem field_count_toNat : (field w 13 8).toNat = w.toNat / 256 % 64 := by
  simp [field, Nat.shiftRight_eq_div_pow]

/-- The ZERO field of either format is all of the word above its low bits (R61, R62). -/
theorem field_zero_toNat {lo : Nat} (hlo : lo ≤ 31) : (field w 31 lo).toNat = w.toNat / 2 ^ lo := by
  have hlt : w.toNat / 2 ^ lo < 2 ^ (31 - lo + 1) := by
    rw [Nat.div_lt_iff_lt_mul (Nat.two_pow_pos lo), ← Nat.pow_add, show 31 - lo + 1 + lo = 32 by omega]
    exact w.isLt
  rw [field, BitVec.extractLsb'_toNat, Nat.shiftRight_eq_div_pow, Nat.mod_eq_of_lt hlt]

theorem field_zero_eq_zero_iff {lo : Nat} (hlo : lo ≤ 31) : field w 31 lo = 0 ↔ w.toNat / 2 ^ lo = 0 := by
  rw [← field_zero_toNat w hlo, BitVec.toNat_eq]
  rfl

/-- An opcode by its number. -/
theorem opcode_eq_iff {o : Byte} : field w 7 0 = o ↔ w.toNat % 256 = o.toNat := by
  rw [← field_opcode_toNat, BitVec.toNat_eq]

/-- A word is of format F0 exactly when its ZERO field is 0, and it is then its opcode (R61). -/
theorem setWidth_opcode_eq_iff {o : Byte} : o.setWidth 32 = w ↔ field w 7 0 = o ∧ field w 31 8 = 0 := by
  rw [opcode_eq_iff, field_zero_eq_zero_iff w (by decide), BitVec.toNat_eq, toNat_setWidth_word (by decide)]
  omega

end

/-! ### Words of format FN (R62) -/

theorem countLegal_iff {n : BitVec 6} : countLegal n = true ↔ 1 ≤ n.toNat ∧ n.toNat ≤ 32 := decide_eq_true_iff

theorem encodeFN_toNat (opc : Byte) (n : BitVec 6) :
    (encodeFN (opc.setWidth 32) n).toNat = 2 ^ 8 * n.toNat + opc.toNat := by
  have hopc := toNat_setWidth_word (by decide) opc
  have hn := toNat_setWidth_word (by decide) n
  unfold encodeFN
  rw [BitVec.or_comm, toNat_shiftLeft_or (by omega) (by omega), hopc, hn]

/-- A word is of format FN exactly when its ZERO field is 0; its opcode and N are then the ones encoded. -/
theorem encodeFN_eq_iff {opc : Byte} {n : BitVec 6} {w : Word} :
    encodeFN (opc.setWidth 32) n = w ↔ field w 7 0 = opc ∧ field w 13 8 = n ∧ field w 31 14 = 0 := by
  have hn := field_count_toNat w
  rw [opcode_eq_iff, field_zero_eq_zero_iff w (by decide), BitVec.toNat_eq, BitVec.toNat_eq, encodeFN_toNat]
  omega

section
variable {w : Word} {mk : BitVec 6 → Instr}

/-- A word of format FN is a command exactly when its ZERO field is 0 and its N is legal. -/
theorem decodeFN_cases (w : Word) (mk : BitVec 6 → Instr) :
    ((field w 31 14 = 0 ∧ countLegal (field w 13 8) = true) ∧ decodeFN w mk = .ok (mk (field w 13 8))) ∨
    ¬ (field w 31 14 = 0 ∧ countLegal (field w 13 8) = true) ∧ ∃ r, decodeFN w mk = .error r := by
  unfold decodeFN
  by_cases hzero : field w 31 14 = 0
  · rw [if_neg (not_not.2 hzero)]
    by_cases hcount : countLegal (field w 13 8) = true
    · exact .inl ⟨⟨hzero, hcount⟩, if_pos hcount⟩
    · exact .inr ⟨fun h => hcount h.2, _, if_neg hcount⟩
  · exact .inr ⟨fun h => hzero h.1, _, if_pos hzero⟩

theorem decodeFN_ok_iff {i : Instr} :
    decodeFN w mk = .ok i ↔ (field w 31 14 = 0 ∧ countLegal (field w 13 8) = true) ∧ mk (field w 13 8) = i := by
  rcases decodeFN_cases w mk with ⟨hlegal, h⟩ | ⟨hlegal, r, h⟩
  · simp only [h, Except.ok.injEq, and_iff_right hlegal]
  · simp only [h, reduceCtorEq, hlegal, false_and]

/-- What decodes with opcode `opc` of format FN is encoded back. -/
theorem encodeFN_of_decodeFN {opc : Byte} {i : Instr} (ho : field w 7 0 = opc) (h : decodeFN w mk = .ok i) :
    ∃ n, i = mk n ∧ countLegal n = true ∧ encodeFN (opc.setWidth 32) n = w := by
  obtain ⟨⟨hzero, hcount⟩, hi⟩ := decodeFN_ok_iff.1 h
  exact ⟨_, hi.symm, hcount, encodeFN_eq_iff.2 ⟨ho, rfl, hzero⟩⟩

/-- The encoded word has the opcode `opc`, and with a legal N it decodes. -/
theorem decodeFN_encodeFN (opc : Byte) {n : BitVec 6} (h : countLegal n = true) :
    field (encodeFN (opc.setWidth 32) n) 7 0 = opc ∧ decodeFN (encodeFN (opc.setWidth 32) n) mk = .ok (mk n) := by
  obtain ⟨hopc, hn, hzero⟩ := encodeFN_eq_iff.1 (rfl : encodeFN (opc.setWidth 32) n = _)
  exact ⟨hopc, decodeFN_ok_iff.2 ⟨⟨hzero, by rwa [hn]⟩, congrArg mk hn⟩⟩

/-- The ILLEGAL words of format FN, by their numbers (R62, R64). -/
theorem decodeFN_error_iff : (∃ r, decodeFN w mk = .error r) ↔
    w.toNat / 2 ^ 14 ≠ 0 ∨ w.toNat / 256 % 64 = 0 ∨ 32 < w.toNat / 256 % 64 := by
  rcases decodeFN_cases w mk with ⟨hlegal, h⟩ | ⟨hlegal, r, h⟩
  all_goals rw [field_zero_eq_zero_iff w (by decide), countLegal_iff, field_count_toNat] at hlegal
  · exact iff_of_false (by rw [h]; exact nofun) (by omega)
  · exact iff_of_true ⟨r, h⟩ (by omega)

end

/-! ### The opcode map (R63) -/

/-- A row of format F0 is the word of its command. -/
theorem row_encode : ∀ p ∈ f0Opcodes, p.2.wellFormed = true ∧ encode p.2 = p.1.setWidth 32 := by decide

/-- A row of format F0 is found by its opcode, which is none of format FN. -/
theorem row_lookup : ∀ p ∈ f0Opcodes, p.1 ≠ 0x31#8 ∧ p.1 ≠ 0x39#8 ∧ f0Opcodes.lookup p.1 = some p.2 := by decide

section
variable {w : Word}

/-- The opcode numbers of format F0 are those of the rows. -/
theorem opcode_mem_rows : w.toNat % 256 ∈ f0Opcodes.map (·.1.toNat) ↔ ∃ i, (field w 7 0, i) ∈ f0Opcodes := by
  constructor
  · intro h
    obtain ⟨⟨o, i⟩, hrow, ho⟩ := List.mem_map.1 h
    exact ⟨i, by rwa [(opcode_eq_iff w).2 ho.symm]⟩
  · rintro ⟨i, hrow⟩
    rw [← field_opcode_toNat]
    exact List.mem_map_of_mem hrow

theorem decode_putb (ho : field w 7 0 = 0x31#8) : decode w = decodeFN w .putb := if_pos ho

theorem decode_getb (ho : field w 7 0 = 0x39#8) : decode w = decodeFN w .getb := by
  unfold decode
  rw [ho]
  rfl

theorem decode_row {i : Instr} (hrow : (field w 7 0, i) ∈ f0Opcodes) :
    decode w = if field w 31 8 ≠ 0 then .error .nonzeroZeroField else .ok i := by
  obtain ⟨hputb, hgetb, hlookup⟩ := row_lookup _ hrow
  simp only [decode, if_neg hputb, if_neg hgetb, hlookup]

/-- The ILLEGAL words of format F0, by their numbers (R61, R64). -/
theorem decode_row_error_iff {i : Instr} (hrow : (field w 7 0, i) ∈ f0Opcodes) :
    (∃ r, decode w = .error r) ↔ w.toNat / 256 ≠ 0 := by
  have hnumber : field w 31 8 ≠ 0 ↔ w.toNat / 256 ≠ 0 := (field_zero_eq_zero_iff w (by decide)).ne
  rw [decode_row hrow, ← hnumber]
  split
  case isTrue hzero => exact iff_of_true ⟨_, rfl⟩ hzero
  case isFalse hzero => exact iff_of_false nofun hzero

theorem decode_unassigned (hputb : field w 7 0 ≠ 0x31#8) (hgetb : field w 7 0 ≠ 0x39#8)
    (hrow : ¬ ∃ i, (field w 7 0, i) ∈ f0Opcodes) : decode w = .error .unassignedOpcode := by
  have hlookup : f0Opcodes.lookup (field w 7 0) = none :=
    List.lookup_eq_none_iff.2 fun p hp => bne_iff_ne.2 fun ho => hrow ⟨p.2, ho ▸ hp⟩
  simp only [decode, if_neg hputb, if_neg hgetb, hlookup]

/-- A word that decodes is the word of the command it decodes to. -/
theorem encode_of_decode {i : Instr} (h : decode w = .ok i) : i.wellFormed = true ∧ encode i = w := by
  by_cases hputb : field w 7 0 = 0x31#8
  · obtain ⟨n, rfl, hcount, hword⟩ := encodeFN_of_decodeFN hputb ((decode_putb hputb).symm.trans h)
    exact ⟨hcount, hword⟩
  by_cases hgetb : field w 7 0 = 0x39#8
  · obtain ⟨n, rfl, hcount, hword⟩ := encodeFN_of_decodeFN hgetb ((decode_getb hgetb).symm.trans h)
    exact ⟨hcount, hword⟩
  by_cases hrow : ∃ j, (field w 7 0, j) ∈ f0Opcodes
  · obtain ⟨j, hj⟩ := hrow
    obtain ⟨hwf, hword⟩ := row_encode _ hj
    rw [decode_row hj] at h
    split at h
    · cases h
    · rename_i hzero
      obtain rfl := Except.ok.inj h
      exact ⟨hwf, hword.trans ((setWidth_opcode_eq_iff w).2 ⟨rfl, not_not.1 hzero⟩)⟩
  · rw [decode_unassigned hputb hgetb hrow] at h
    cases h

end

/-- The word of a well-formed command decodes to it. -/
theorem decode_encode {i : Instr} (h : i.wellFormed = true) : decode (encode i) = .ok i := by
  cases i with
  | putb n =>
    obtain ⟨hopc, hdecode⟩ := decodeFN_encodeFN (mk := .putb) 0x31#8 h
    exact (decode_putb hopc).trans hdecode
  | getb n =>
    obtain ⟨hopc, hdecode⟩ := decodeFN_encodeFN (mk := .getb) 0x39#8 h
    exact (decode_getb hopc).trans hdecode
  | nop | sreset | hclr | count | build | gen | pinit | psym | pflush | uinit | ualign | thdr | parse | dsym | encode
  | decode => rfl

/-- Settles O1: what decodes is encoded back, and what is encoded decodes. -/
theorem decodeEncodeInverse : Obligations.DecodeEncodeInverse := by
  intro w i
  refine ⟨encode_of_decode, ?_⟩
  rintro ⟨hwf, rfl⟩
  exact decode_encode hwf

/-- Settles O3, in the cases of the statement: the opcode is of format FN, of format F0, or unassigned. -/
theorem illegalWordsExactly : Obligations.IllegalWordsExactly := by
  intro w
  split
  case isTrue hFN =>
    rcases List.mem_pair.1 hFN with ho | ho
    · rw [decode_putb ((opcode_eq_iff w).2 ho)]
      exact decodeFN_error_iff
    · rw [decode_getb ((opcode_eq_iff w).2 ho)]
      exact decodeFN_error_iff
  case isFalse hFN =>
    split
    case isTrue hF0 =>
      obtain ⟨i, hi⟩ := opcode_mem_rows.1 hF0
      exact decode_row_error_iff hi
    case isFalse hF0 =>
      refine iff_of_true ⟨_, decode_unassigned (fun ho => hFN ?_) (fun ho => hFN ?_) fun hrow => ?_⟩ trivial
      · exact List.mem_pair.2 (.inl ((opcode_eq_iff w).1 ho))
      · exact List.mem_pair.2 (.inr ((opcode_eq_iff w).1 ho))
      · exact hF0 (opcode_mem_rows.2 hrow)

/-- Settles O2: each row is the word of its command, which decodes to it (`decode_encode`). -/
theorem opcodeMapDecodes : Obligations.OpcodeMapDecodes := by
  refine ⟨decode_encode (i := .nop) rfl, decode_encode (i := .sreset) rfl, decode_encode (i := .hclr) rfl,
    decode_encode (i := .count) rfl, decode_encode (i := .build) rfl, decode_encode (i := .gen) rfl,
    decode_encode (i := .pinit) rfl, decode_encode (i := .psym) rfl, decode_encode (i := .pflush) rfl,
    decode_encode (i := .uinit) rfl, decode_encode (i := .ualign) rfl, decode_encode (i := .thdr) rfl,
    decode_encode (i := .parse) rfl, decode_encode (i := .dsym) rfl, decode_encode (i := .encode) rfl,
    decode_encode (i := .decode) rfl, fun n hlo hhi => ?counts, fun w hw => ?unlisted⟩
  case counts =>
    have hn := countLegal_iff.2 ⟨hlo, hhi⟩
    exact ⟨decode_encode (i := .putb n) hn, decode_encode (i := .getb n) hn⟩
  case unlisted =>
    refine decode_unassigned (fun ho => hw ?_) (fun ho => hw ?_) fun hrow => hw ?_
    · rw [(opcode_eq_iff w).1 ho]; decide
    · rw [(opcode_eq_iff w).1 ho]; decide
    · exact (by decide : f0Opcodes.map (·.1.toNat) ⊆ _) (opcode_mem_rows.2 hrow)

/-! ### The step of an ILLEGAL word (R64, R114) -/

/-- Without results, a race draws OBUF alone (R58). -/
theorem drawParts_nil (s : State) :
    s.drawParts [] = { s with obuf := s.drawDatapath.obuf, draws := s.drawDatapath.draws } := rfl

/-- ILLEGAL_CMD is recorded over the state of the turn, or over a draw of OBUF where the host raced. -/
theorem step_illegal {s : State} {w : Word} {r : Illegal} (hp : s.pending = some w) (hd : decode w = .error r)
    (ht : s.turns = [] ∨ s.turns.head? = some .block) :
    step s = .next ((if s.raced then s.turn.drawParts [] else s.turn).recordError .illegalCmd w).complete := by
  rw [step_block ht]
  unfold blockTurn blockStep State.turn
  simp only [hp, hd]
  rfl

/-- Settles O5, with and without a race. -/
theorem illegalCommandRaises : Obligations.IllegalCommandRaises := by
  intro s w r hp hd ht
  rw [step_illegal hp hd ht]
  cases hraced : s.raced with
  | false => exact ⟨s.obuf, s.draws, rfl, fun _ => ⟨rfl, rfl⟩⟩
  | true => exact ⟨_, _, by rw [if_pos rfl, drawParts_nil]; rfl, nofun⟩

end Sys2Proof.Machine

/-! Control (R70, R71) and reset (R135 to R137): acceptance of a command word (R114), the step of a NOP, and the reset
values; O7 and O8. -/

namespace Sys2Proof.Machine

open Sys2Proof Config

/-! ### A word written to CMD (R25, R114) -/

/-- CMD stands at word offset 3 (R21). -/
theorem csrWrite_cmd (w : Word) (s : State) : csrWrite 3 w s = offerCommand w s :=
  csrWrite_mapped (r := .cmd) rfl w s

section
variable {s : State} (hidle : s.pending = none)
include hidle

theorem busy_of_pending_none : s.busy = false := by
  rw [State.busy, hidle, Option.isSome_none]

/-- An idle block without an error accepts every word. -/
theorem offerCommand_accepted (herr : s.err = false) (w : Word) : offerCommand w s = s.accept w := by
  simp only [offerCommand, hidle, busy_of_pending_none hidle, herr, Bool.false_eq_true, if_false, ite_self]

/-- An idle block with ERR = 1 drops every word but SRESET's (R119). -/
theorem offerCommand_dropped (herr : s.err = true) {w : Word} (hw : w ≠ 0x0000_0001#32) : offerCommand w s = s := by
  simp only [offerCommand, if_neg hw, busy_of_pending_none hidle, herr, Bool.false_eq_true, if_false, if_true]

end

/-! ### NOP (R70) -/

/-- The step of a command that was not raced: its execution, completed (R114). -/
theorem step_completed {s : State} {w : Word} {i : Instr} (hp : s.pending = some w) (hd : decode w = .ok i)
    (hraced : s.raced = false) (ht : s.turns = [] ∨ s.turns.head? = some .block) :
    step s = completed (exec i s.turn) := by
  rw [step_block ht]
  unfold blockTurn blockStep State.turn
  simp only [hp, hd, hraced, Bool.false_eq_true, if_false]

theorem decode_nop : decode 0x0000_0000#32 = .ok .nop := decode_encode (i := .nop) rfl

theorem exec_nop (s : State) : exec .nop s = .next s := rfl

/-- A NOP taken by an idle block sets DONE, and acceptance and completion leave nothing else behind. -/
theorem step_accept_nop {s : State} (hidle : s.pending = none) (hraced : s.raced = false)
    (ht : s.turns = [] ∨ s.turns.head? = some .block) :
    step (s.accept 0x0000_0000#32) = .next { s with turns := s.turns.tail, done := true } := by
  rw [step_completed (State.accept_pending s _) decode_nop (State.accept_raced s _) ht, exec_nop]
  simp only [completed, State.complete, State.turn, State.accept, hidle, hraced]

/-- A word with the opcode of NOP is of format F0, so a bit above its opcode makes it ILLEGAL (R61, R64). -/
theorem decode_nop_opcode {w : Word} (hopc : w.toNat % 256 = 0) (hw : w ≠ 0) : decode w = .error .nonzeroZeroField := by
  have hfield : field w 7 0 = 0x00#8 := (opcode_eq_iff w).2 hopc
  have hrow : (field w 7 0, Instr.nop) ∈ f0Opcodes := by rw [hfield]; decide
  have hzero : field w 31 8 ≠ 0 := fun h => hw ((setWidth_opcode_eq_iff w).2 ⟨hfield, h⟩).symm
  rw [decode_row hrow, if_pos hzero]

/-- Settles O7: NOP's word is accepted, executes to the state it found, and completes; or it is dropped. -/
theorem nopOnlyCompletes : Obligations.NopOnlyCompletes := by
  refine ⟨decode_nop, exec_nop, fun s hidle herr hraced ht => ?_, fun s hidle herr => ?_, fun w => decode_nop_opcode⟩
  · rw [csrWrite_cmd, offerCommand_accepted hidle herr, step_accept_nop hidle hraced ht]
  · rw [csrWrite_cmd, offerCommand_dropped hidle herr (by decide)]

/-! ### The resets (R71, R135 to R137) -/

theorem ctabAt_invalid (s : State) (h : s.ctab = Vector.replicate 256 CodeEntry.invalid) (b : Byte) :
    s.ctabAt b = CodeEntry.invalid := by
  simp [State.ctabAt, h]

/-- What SRESET and RST_N share: every register, HIST, CTAB and the hidden state at the value of R137. -/
theorem resetRegs_atReset (s : State) : s.resetRegs.AtReset where
  ctrl := rfl
  status := ⟨rfl, rfl, rfl, rfl, rfl, rfl⟩
  error := ⟨rfl, rfl⟩
  operands := ⟨rfl, rfl, rfl, rfl, rfl⟩
  results := ⟨rfl, rfl, rfl⟩
  tree := ⟨rfl, rfl, rfl⟩
  packer := ⟨rfl, rfl, rfl⟩
  unpacker := ⟨rfl, rfl, rfl⟩
  hist := histAt_zero _ rfl
  ctab := ctabAt_invalid _ rfl
  hidden := ⟨rfl, rfl, rfl⟩

/-- RST_N draws the buffers besides, and no reset value of R137 is in a buffer. -/
theorem powerOn_atReset (s : State) : s.powerOn.AtReset := { resetRegs_atReset s with }

/-- Settles O8: both resets put the reset values in place, SRESET around the buffers it keeps. -/
theorem resetsRestoreResetValues : Obligations.ResetsRestoreResetValues := by
  refine ⟨decode_sreset.2 rfl, fun s => ⟨?soft, ?pin⟩⟩
  case soft => exact ⟨s.softReset, rfl, resetRegs_atReset s, rfl, rfl, rfl, rfl, rfl⟩
  case pin => exact ⟨s.powerOn, rfl, powerOn_atReset s, rfl, rfl, rfl, rfl, rfl⟩

end Sys2Proof.Machine

/-! Frequency counter (R72, R73): what HCLR leaves, the outcomes of COUNT; O19 and O20. -/

namespace Sys2Proof.Machine

open Sys2Proof Config

/-- R116: a precondition error leaves all but the error's bookkeeping as it was. -/
theorem exec_preconditionError {i : Instr} {s : State} {e : ErrorCode} {info : Word}
    (h : bodyOf i s = raise e info) (he : isExecutionError e = false) :
    exec i s = .next (s.recordError e info) := by
  rw [exec_error h, State.takeError, he]
  rfl

/-! ### HCLR (R72) -/

theorem exec_hclr (s : State) :
    exec .hclr s =
      .next { s with hist := Vector.replicate 256 0, htotal := 0, origLen := 0, treeValid := false } := rfl

/-- Settles O19: the next state is that of `exec_hclr`, whose HIST reads 0 at every byte. -/
theorem hclrClearsMap : Obligations.HclrClearsMap :=
  ⟨decode_encode (i := .hclr) rfl, fun s => ⟨_, exec_hclr s, histAt_zero _ rfl, rfl⟩⟩

/-! ### COUNT (R73) -/

/-- The range check comes first (R121). -/
theorem count_range {s : State} (h : ¬ s.srcInRange) : bodyCount s = raise .range s.srcAddr := by
  unfold bodyCount
  rw [raiseIf_pos h, raise_bind]

theorem count_overflow {s : State} (hr : s.srcInRange) (h : s.htotal.toNat + s.srcLen.toNat > maxTotal) :
    bodyCount s = raise .countOverflow s.htotal := by
  unfold bodyCount
  rw [raiseIf_neg (not_not.2 hr), ok_bind, raiseIf_pos h, raise_bind]

/-- Settles O20: the two errors in the order of the checks, and past both the exact counts, which
`count_histOk` has from HTOTAL = Σ HIST. -/
theorem countAddsOccurrences : Obligations.CountAddsOccurrences := by
  refine ⟨decode_encode (i := .count) rfl, fun s => ⟨fun hrange => ?range, fun hr hover => ?overflow,
    fun hs hr hle => ?counted⟩⟩
  case range => exact exec_preconditionError (i := .count) (count_range (Nat.not_le.2 hrange)) rfl
  case overflow => exact exec_preconditionError (i := .count) (count_overflow hr hover) rfl
  case counted =>
    have hbody := count_ok hr hle
    obtain ⟨-, hhist, htotal⟩ := count_histOk hs hbody
    exact ⟨_, exec_ok (i := .count) hbody, rfl, htotal, hhist⟩

end Sys2Proof.Machine

/-! Tree builder (R74 to R79): the queue's extract_min, what a completed BUILD leaves, and the tree it makes; O21 to
O25. -/

namespace Sys2Proof.Machine

open Sys2Proof Config

/-! ### The queue (R74) -/

/-- Settles O21: the key order of `extractMin_spec`, read as frequency and then index. -/
theorem extractMinTakesLeastKey : Obligations.ExtractMinTakesLeastKey := by
  refine ⟨fun s hne hnodup => ?extract, fun s i => ?insert⟩
  case extract =>
    obtain ⟨m, hextract, hmem, hleast⟩ := extractMin_spec hne
    exact ⟨m, hextract, hmem, fun j hj hjm => of_decide_eq_true (hleast j hj hjm),
      fun j => hnodup.mem_erase_iff.trans and_comm⟩
  case insert => exact ⟨i :: s.pq, rfl, fun j => List.mem_cons⟩

/-! ### The result of BUILD (R76) -/

/-- Settles O22: `build_spec`, said of the command. -/
theorem buildMergesLeast : Obligations.BuildMergesLeast := by
  refine ⟨decode_encode (i := .build) rfl, fun s => ?_⟩
  obtain ⟨t, hbody, hframe, hsymcount, hempty, hbuilt⟩ := build_spec s
  exact ⟨t, exec_ok (i := .build) hbody, hframe, hsymcount, hempty, fun hne => (hbuilt hne).1⟩

/-- BUILD raises no error, so whatever it answers is its body's result. -/
theorem exec_build_iff {s t : State} : exec .build s = .next t ↔ bodyBuild s = .ok t := by
  refine ⟨fun hexec => ?_, exec_ok (i := .build)⟩
  obtain ⟨u, hbody, -⟩ := build_spec s
  have hnext : exec .build s = .next u := exec_ok (i := .build) hbody
  rwa [Host.Outcome.next.inj (hexec.symm.trans hnext)]

/-- Settles O24: `build_congr`, said of the command. -/
theorem buildDependsOnHistOnly : Obligations.BuildDependsOnHistOnly := by
  intro s u t v hhist ht hv
  obtain ⟨hcount, hroot, hsymcount, hnodes⟩ := build_congr hhist (exec_build_iff.1 ht) (exec_build_iff.1 hv)
  exact ⟨hroot, hcount, hsymcount, hnodes⟩

/-! ### The built tree (R77) -/

/-- The two children of a merge are two nodes, for the key of the one is below the key of the other. -/
theorem State.MergesLeast.left_ne_right {s : State} {i : NodeIdx} (h : s.MergesLeast i) :
    (s.nodeAt i).left ≠ (s.nodeAt i).right := by
  intro heq
  have hlt := (keyLess_iff s _ _).1 h.order
  rw [heq] at hlt
  exact Nat.lt_irrefl _ hlt

/-- The leaves of a built tree, in terms of a state with the same frequency map. -/
theorem State.Built.leaf_of_hist {s t : State} (h : t.Built) (hhist : t.hist = s.hist) (i : Nat)
    (hi : i < s.present.length) : t.nodeAt (BitVec.ofNat 9 i) = s.leafNode s.present[i] := by
  have hpresent : t.present = s.present := present_congr hhist
  have hleaf := h.leaf i (by rwa [hpresent])
  simpa only [hpresent, State.leafNode, histAt_of_eq hhist] using hleaf

/-- Settles O23: (a) to (d) are `State.Built`, (e) and (f) come with the trees of `build_spec`; no frequency wraps, for
their sum is HTOTAL. -/
theorem builtTreeShape : Obligations.BuiltTreeShape := by
  intro s t hhistOk hne hexec
  obtain ⟨u, hbody, hframe, -, -, hbuilt⟩ := build_spec s
  obtain rfl : t = u := Except.ok.inj ((exec_build_iff.1 hexec).symm.trans hbody)
  obtain ⟨hbuilt, F, htree, hleaves, hweight, hle⟩ := hbuilt hne
  have hhist : t.hist = s.hist := by rw [hframe]
  have hpresent : t.present = s.present := present_congr hhist
  have hsum : s.htotal.toNat = s.histSum := hhistOk
  have hcount := hbuilt.nodeCount
  have hroot := hbuilt.root
  have hfreq := hweight (hsum ▸ s.htotal.isLt)
  rw [hpresent] at hcount hroot
  refine ⟨hcount, fun i hi => ?leaf, fun i hlo hi => ?internal, hroot, hbuilt.parent, fun i hi => ?frequency, ?root⟩
  case leaf =>
    rw [hbuilt.leaf_of_hist hhist i hi]
    exact ⟨rfl, rfl⟩
  case internal =>
    have hmerge := hbuilt.merge i (by rwa [hpresent]) hi
    exact ⟨hmerge.kind, hmerge.left.1, hmerge.right.1, hmerge.left_ne_right⟩
  case frequency =>
    refine ⟨F i, htree i hi, hfreq i hi, ?_⟩
    rw [hfreq i hi, hsum]
    exact hle i hi
  case root =>
    refine ⟨F t.root, htree t.root (by omega), hleaves, fun e he => ?_⟩
    have hdepth := Tree.codes_length he
    rwa [hleaves.length_eq, List.length_nil, Nat.zero_add] at hdepth

/-! ### The degenerate inputs (R79) -/

/-- Settles O25: the two sizes, 0 and 1, of the built tree's equations. -/
theorem buildDegenerateInputs : Obligations.BuildDegenerateInputs := by
  intro s
  obtain ⟨t, hbody, hframe, hsymcount, hempty, hbuilt⟩ := build_spec s
  have hexec := exec_build_iff.2 hbody
  have hhist : t.hist = s.hist := by rw [hframe]
  refine ⟨fun hnone => ?empty, fun b hone => ?single⟩
  case empty =>
    obtain ⟨hcount, hroot⟩ := hempty hnone
    rw [hnone] at hsymcount
    exact ⟨t, hexec, hroot, by rw [hframe], hcount, BitVec.eq_of_toNat_eq hsymcount⟩
  case single =>
    obtain ⟨hbuilt, -⟩ := hbuilt (by simp [hone])
    have hcount := hbuilt.nodeCount
    have hroot := hbuilt.root
    have hleaf := hbuilt.leaf_of_hist hhist 0 (by simp [hone])
    rw [present_congr hhist] at hcount hroot
    simp only [hone, List.length_singleton] at hsymcount hcount hroot
    simp only [hone, List.getElem_cons_zero] at hleaf
    exact ⟨t, hexec, BitVec.eq_of_toNat_eq (by simpa using hroot), BitVec.eq_of_toNat_eq (by simpa using hcount),
      BitVec.eq_of_toNat_eq hsymcount, hleaf⟩

end Sys2Proof.Machine

/-! Code table generator (R80 to R84): what GEN answers, the codes of a built tree, and ENCODE on the sources of at most
one distinct byte; O26, O27 and O46. -/

namespace Sys2Proof.Machine

open Sys2Proof Config

/-! ### GEN (R81) -/

/-- GEN on the empty tree leaves no code (R81, R84). -/
theorem exec_gen_empty {s : State} (hv : s.treeValid = true) (hroot : s.root = nilIdx) :
    ∃ t, exec .gen s = .next t ∧ t.symcount = 0 ∧ ∀ b, t.ctabAt b = CodeEntry.invalid :=
  ⟨_, exec_ok (i := .gen) (gen_empty hv hroot), rfl, ctabAt_clearTable s⟩

/-- Settles O26: the frame is that of every completed GEN (`gen_frame`), the table that of `gen_spec`. -/
theorem genWritesPaths : Obligations.GenWritesPaths := by
  refine ⟨decode_encode (i := .gen) rfl, fun s => ⟨exec_gen_noTree, fun hv => ?frame, exec_gen_empty,
    fun x hv hroot hx hdistinct => ?table⟩⟩
  case frame =>
    have hbody := gen_eq hv
    obtain ⟨-, hframe, hwstack⟩ := gen_frame hbody
    exact ⟨_, exec_ok (i := .gen) hbody, hwstack, hframe⟩
  case table =>
    obtain ⟨t, hbody, -, -, htable, -, hsymcount⟩ := gen_spec hv hroot hx hdistinct
    exact ⟨t, exec_ok (i := .gen) hbody, htable, hsymcount⟩

/-! ### The codes of a built tree (R82 to R84) -/

/-- A code of a tree's table is below the number of leaves in length, but for the code [0] of a lone leaf (R83, R84). -/
theorem Tree.table_length_lt {x : Tree} {e : Byte × Bits} (h : e ∈ x.table) :
    e.2.length + 1 ≤ x.leaves.length ∨ x.leaves.length = 1 ∧ e.2 = [false] := by
  cases x with
  | leaf b =>
    obtain rfl := List.mem_singleton.1 h
    exact .inr ⟨rfl, rfl⟩
  | fork l r => exact .inl (by simpa using Tree.codes_length h)

/-- The table of a tree with an internal node is complete (R82(c)). -/
theorem Tree.table_complete {x : Tree} (h : 2 ≤ x.leaves.length) (q : Bits) : ∃ e ∈ x.table, e.2 <+: q ∨ q <+: e.2 := by
  cases x with
  | leaf b => exact absurd h (by simp [Tree.leaves])
  | fork l r => exact Tree.codes_complete (.fork l r) [] q

/-- An empty CTAB has no valid code. -/
theorem validCodes_eq_nil {s : State} (h : ∀ b, s.ctabAt b = CodeEntry.invalid) : validCodes s.ctab = [] := by
  have htable : s.TableIs [] := h
  exact List.perm_nil.1 (htable.perm List.nodup_nil)

/-- Settles O27: the codes are those of the table of the built tree (`build_gen`), whose leaves are the bytes present; of
the empty map the table is empty. -/
theorem generatedCodesComplete : Obligations.GeneratedCodesComplete := by
  intro s
  by_cases hpresent : s.present = []
  case pos =>
    obtain ⟨t, u, hbuild, hgen, hinvalid⟩ := build_gen_empty hpresent
    refine ⟨t, u, exec_build_iff.2 hbuild, exec_ok (i := .gen) hgen, ?_⟩
    simp [hinvalid, validCodes_eq_nil hinvalid, hpresent, CodeEntry.invalid, PrefixFree]
  case neg =>
    obtain ⟨t, u, x, hbuild, hgen, -, hleaves, htable, hperm⟩ := build_gen hpresent
    have hcount := hleaves.length_eq
    refine ⟨t, u, exec_build_iff.2 hbuild, exec_ok (i := .gen) hgen, fun b => ?valid,
      (Tree.table_prefixFree x).perm hperm.symm, fun e he => ?length, fun htwo q => ?complete⟩
    case valid => rw [tableIs_valid htable, Tree.table_fst, hleaves.mem_iff]
    case length =>
      have hmem := hperm.mem_iff.1 he
      have hbound := Tree.table_length_lt hmem
      have hpos := (Tree.table_length hmem).1
      rw [hcount] at hbound
      refine ⟨hpos, ?_, hbound⟩
      rcases hbound with hlt | ⟨-, hlone⟩
      · have := present_length_le s
        omega
      · simp [hlone]
    case complete =>
      obtain ⟨e, he, hprefix⟩ := Tree.table_complete (hcount ▸ htwo) q
      exact ⟨e, hperm.mem_iff.2 he, hprefix⟩

/-! ### ENCODE of at most one distinct byte (R84, R110) -/

/-- A single byte present gets the code [0] (R84). -/
theorem build_gen_single {s t u : State} {b : Byte} (hone : s.present = [b]) (hbuild : bodyBuild s = .ok t)
    (hgen : bodyGen t = .ok u) : validCodes u.ctab = [(b, [false])] := by
  obtain ⟨t', u', x, hbuild', hgen', -, hleaves, -, hperm⟩ := build_gen (s := s) (by simp [hone])
  obtain rfl : t = t' := Except.ok.inj (hbuild.symm.trans hbuild')
  obtain rfl : u = u' := Except.ok.inj (hgen.symm.trans hgen')
  rw [hone] at hleaves
  obtain rfl : x = .leaf b := by
    cases x with
    | leaf c => exact congrArg Tree.leaf (List.singleton_injective (List.perm_singleton.1 hleaves))
    | fork l r =>
      have hcount := hleaves.length_eq
      have hl := l.leaves_pos
      have hr := r.leaves_pos
      simp only [Tree.leaves, List.length_append, List.length_singleton] at hcount
      omega
  exact List.perm_singleton.1 hperm

/-- The bytes present when ENCODE's table is built are those of the source. -/
theorem tableStage_present {s u : State} (hu : tableStage s = .ok u) (hc : Coded s u) :
    ∃ v t, bodyBuild v = .ok t ∧ bodyGen t = .ok u ∧ ∀ b, b ∈ v.present ↔ b ∈ s.source := by
  obtain ⟨-, v, t, -, -, hbuild, hgen⟩ := tableStage_inv hu
  have hhist : u.hist = v.hist := by rw [(gen_frame hgen).2.1, build_frame hbuild]
  refine ⟨v, t, hbuild, hgen, fun b => ?_⟩
  rw [← present_congr hhist, mem_present, ← List.count_pos_iff, ← hc.hist b, Nat.pos_iff_ne_zero, ne_eq, ne_eq,
    ← BitVec.toNat_inj]
  rfl

/-- The table of ENCODE on copies of one byte (R84). -/
theorem tableStage_replicate {s u : State} (hu : tableStage s = .ok u) (hc : Coded s u) {n : Nat} (hn : n ≠ 0) {b : Byte}
    (hsource : s.source = List.replicate n b) : validCodes u.ctab = [(b, [false])] := by
  obtain ⟨v, t, hbuild, hgen, hpresent⟩ := tableStage_present hu hc
  have hone : v.present.Perm [b] := (List.perm_ext_iff_of_nodup (present_nodup v) (List.nodup_singleton b)).2 fun x => by
    rw [hpresent, hsource, List.mem_replicate, List.mem_singleton]
    exact and_iff_right hn
  exact build_gen_single (List.perm_singleton.1 hone) hbuild hgen

/-- ENCODE's container, once its table and its payload are known (R110, R113). -/
theorem exec_encode_container {s u : State} (hr : s.srcInRange) (hu : tableStage s = .ok u) (hc : Coded s u)
    {table : List (Byte × Bits)} {body : Bits} (htable : validCodes u.ctab = table) (hbody : payload u.codeOf s.source = body)
    {n : Nat} (hn : containerLength table body.length = n) (hfit : s.dstAddr.toNat + n ≤ s.params.obufSize) :
    ∃ t, exec .encode s = .next t ∧ t.optr.toNat = s.dstAddr.toNat + n ∧
      unpackBytes (t.obufBytes s.dstAddr.toNat n) = containerBits table s.srcLen.toNat body := by
  subst htable hbody hn
  obtain ⟨t, hencode, -, hoptr, hbits, -⟩ := encode_ok hr hu hc hfit
  exact ⟨t, exec_ok (i := .encode) hencode, hoptr, hbits⟩

theorem zeros_add (m n : Nat) : zeros (m + n) = zeros m ++ zeros n := List.replicate_add ..

theorem payload_replicate_zero {code : Byte → Bits} {b : Byte} (h : code b = [false]) (n : Nat) :
    payload code (List.replicate n b) = zeros n := by
  unfold payload zeros
  rw [List.flatMap_replicate, h, List.flatten_replicate_singleton]

/-- The container of n copies of one byte, with the code [0] (R84, R100, R101). -/
theorem containerBits_single (b : Byte) (n : Nat) :
    containerBits [(b, [false])] n (zeros n) =
      bitsMsb 1 16 ++ bitsMsb b.toNat 8 ++ bitsMsb 1 8 ++ zeros 8 ++ bitsMsb n 32 ++ zeros (8 * ((n + 7) / 8)) := by
  have hentry : entryBits (b, [false]) = bitsMsb b.toNat 8 ++ bitsMsb 1 8 ++ zeros 8 := by
    have hcode : [false] ++ zeros (wholeBytes 1 - 1) = zeros 8 := by decide
    simp only [entryBits, List.length_singleton, List.append_assoc, hcode]
  have hpad : zeros n ++ zeros (wholeBytes n - n) = zeros (8 * ((n + 7) / 8)) := by
    rw [← zeros_add, Nat.add_sub_cancel' (wholeBytes_ge n)]
    rfl
  unfold containerBits headerBits
  rw [zeros_length, List.append_assoc, hpad, List.flatMap_singleton, hentry]
  simp only [List.length_singleton, List.append_assoc]

theorem containerLength_single (b : Byte) (n : Nat) :
    containerLength [(b, [false])] (zeros n).length = 9 + (n + 7) / 8 := by
  simp [containerLength]

/-- Settles O46: `exec_encode_container` on the empty table, and on the table of one byte with the code [0]. -/
theorem encodeDegenerateInputs : Obligations.EncodeDegenerateInputs := by
  refine ⟨fun s hlen haddr hfit => ?empty, fun s b hlen hrange hsame hfit => ?single⟩
  case empty =>
    have hr : s.srcInRange := by simpa [State.srcEnd, hlen] using haddr
    have hsource : s.source = [] := List.eq_nil_of_length_eq_zero (by rw [source_length, hlen]; rfl)
    obtain ⟨u, hu, hc⟩ := tableStage_ok hr
    have hnocode : ∀ e, e ∉ validCodes u.ctab := fun e he => by
      have hvalid := (hc.valid e.1).1 (by rw [State.ctabAt, mem_validCodes.1 he])
      simp [hsource] at hvalid
    obtain ⟨t, hexec, hoptr, hbits⟩ := exec_encode_container hr hu hc (List.eq_nil_iff_forall_not_mem.2 hnocode)
      (body := []) (by rw [hsource, payload, List.flatMap_nil]) (n := 6) rfl hfit
    refine ⟨t, hexec, unpackBytes_inj (hbits.trans ?_), hoptr⟩
    rw [hlen]
    decide
  case single =>
    have hsource : s.source = List.replicate s.srcLen.toNat b := List.eq_replicate_iff.2 ⟨source_length s, hsame⟩
    obtain ⟨u, hu, hc⟩ := tableStage_ok hrange
    have htable := tableStage_replicate hu hc (Nat.pos_iff_ne_zero.1 hlen) hsource
    have hcode : u.codeOf b = [false] := by
      have hentry : u.ctabAt b = ⟨true, [false]⟩ := mem_validCodes.1 (by rw [htable]; exact List.mem_singleton_self _)
      rw [State.codeOf, hentry]
    obtain ⟨t, hexec, hoptr, hbits⟩ := exec_encode_container hrange hu hc htable
      (hsource ▸ payload_replicate_zero hcode s.srcLen.toNat) (containerLength_single b s.srcLen.toNat) hfit
    exact ⟨t, hexec, hoptr, hbits.trans (containerBits_single b s.srcLen.toNat)⟩

end Sys2Proof.Machine

/-! Bit packer (R86 to R93): PINIT, and what PUTB, PSYM and PFLUSH append to the stream; O28 to O31. -/

namespace Sys2Proof.Machine

open Sys2Proof Config

/-! ### PINIT (R90) -/

theorem exec_pinit (s : State) : exec .pinit s = .next { s with optr := s.dstAddr, acc := 0, accN := 0 } := rfl

/-- Settles O28: the word is PINIT's, and the next state is that of `exec_pinit`. -/
theorem pinitStartsStream : Obligations.PinitStartsStream := ⟨decode_encode (i := .pinit) rfl, exec_pinit⟩

/-! ### PUTB (R91) -/

/-- Settles O29: PUTB's body is append_bits, whose outcome is decided by the room. -/
theorem putbAppendsArg : Obligations.PutbAppendsArg := by
  intro s n _ hp
  refine ⟨fun hroom => ?fits, fun hfull => exec_error (i := .putb n) (appendBits_overflow hp hfull)⟩
  obtain ⟨t, hbody, hframe, hpacked⟩ := appendBits_ok hp hroom
  exact ⟨t, exec_ok (i := .putb n) hbody, hframe.eq, hpacked⟩

/-! ### PSYM (R92) -/

/-- Past its two checks PSYM is its loop over the source. -/
theorem psym_eq_packFrom {s : State} (hv : s.tableValid = true) (hr : s.srcInRange) :
    bodyPsym s = packFrom s.srcAddr.toNat s.srcLen.toNat s := by
  unfold bodyPsym
  rw [raiseIf_neg (by simp [hv]), ok_bind, raiseIf_neg (not_not.2 hr), ok_bind]

theorem psym_range {s : State} (hv : s.tableValid = true) (hr : ¬ s.srcInRange) :
    bodyPsym s = raise .range s.srcAddr := by
  unfold bodyPsym
  rw [raiseIf_neg (by simp [hv]), ok_bind, raiseIf_pos hr, raise_bind]

/-- The first n bytes of the source. -/
theorem source_take {s : State} {n : Nat} (hn : n ≤ s.srcLen.toNat) :
    s.source.take n = s.ibufBytes s.srcAddr.toNat n := by
  rw [State.source, State.ibufBytes, ← List.map_take, List.take_range'_of_length_ge hn, State.ibufBytes]

/-- Settles O30: the two checks in their order, and past them the outcomes of the loop (`packFrom_ok`, `packFrom_miss`,
`packFrom_overflow`). -/
theorem psymPacksSource : Obligations.PsymPacksSource := by
  refine ⟨decode_encode (i := .psym) rfl, fun s hp => ⟨fun hv => exec_noTable hv (by decide), fun hv hover => ?range,
    fun hv hr hcodes hroom => ?packed, fun n hv hr hn hcodes => ?error⟩⟩
  case range => exact exec_preconditionError (i := .psym) (psym_range hv (Nat.not_le.2 hover)) rfl
  case packed =>
    obtain ⟨t, hloop, hframe, hpacked⟩ := packFrom_ok hp hcodes hroom
    exact ⟨t, exec_ok (i := .psym) ((psym_eq_packFrom hv hr).trans hloop), hpacked, hframe.eq⟩
  case error =>
    have hbody := psym_eq_packFrom hv hr
    rw [source_take hn] at hcodes ⊢
    refine ⟨fun hroom hlt hmiss => ?miss, fun hfull => ?overflow⟩
    case miss =>
      obtain ⟨m, hm⟩ := Nat.exists_eq_add_of_lt hlt
      rw [hm, packFrom_miss hp hcodes hroom hmiss] at hbody
      exact exec_error (i := .psym) hbody
    case overflow =>
      obtain ⟨m, hm⟩ := Nat.exists_eq_add_of_le hn
      rw [hm, packFrom_overflow m hp hcodes hfull] at hbody
      exact exec_error (i := .psym) hbody

/-! ### PFLUSH (R93) -/

theorem flush_aligned {s : State} (h : s.accN = 0) : flush s = .ok s := if_neg (not_not.2 h)

theorem flush_partial {s : State} (h : s.accN ≠ 0) : flush s = appendBits (zeros (8 - s.accN.toNat)) s := if_pos h

/-- The pad completes exactly one byte (R89). -/
theorem bytesDone_pad {s : State} (hp : s.PackerOk) : s.bytesDone (zeros (8 - s.accN.toNat)) = 1 := by
  have hlt := hp.1
  rw [State.bytesDone, zeros_length]
  omega

theorem room_pad_iff {s : State} (hp : s.PackerOk) :
    s.Room (zeros (8 - s.accN.toNat)) ↔ s.optr.toNat < s.params.obufSize := by
  rw [State.Room, bytesDone_pad hp]
  omega

/-- A packer without pending bits holds ACC = 0 (R38). -/
theorem State.PackerOk.acc_eq_zero {s : State} (hp : s.PackerOk) (hn : s.accN = 0) : s.acc = 0 := by
  have hlt := hp.2
  rw [hn] at hlt
  exact BitVec.eq_of_toNat_eq (Nat.lt_one_iff.1 hlt)

/-- After the pad no bit is pending. -/
theorem Packed.accN_pad {s t : State} (hp : s.PackerOk) (h : Packed s t (zeros (8 - s.accN.toNat))) : t.accN = 0 := by
  have hcount := h.accN
  have hlt := hp.1
  rw [bytesDone_pad hp, zeros_length] at hcount
  exact BitVec.eq_of_toNat_eq (show t.accN.toNat = 0 by omega)

/-- Settles O31: PFLUSH appends the pad, which completes one byte and leaves no bit pending. -/
theorem pflushPadsByte : Obligations.PflushPadsByte := by
  refine ⟨decode_encode (i := .pflush) rfl, fun s hp => ⟨fun hn => exec_ok (i := .pflush) (flush_aligned hn),
    fun hn hlt => ?padded, fun hn hge => ?overflow⟩⟩
  case padded =>
    obtain ⟨t, hbody, hframe, hpacked⟩ := appendBits_ok hp ((room_pad_iff hp).2 hlt)
    have haccN := hpacked.accN_pad hp
    have ⟨hoptr, _, htOk, _⟩ := hpacked
    have hacc := htOk.acc_eq_zero haccN
    refine ⟨t, exec_ok (i := .pflush) ((flush_partial hn).trans hbody), ?_, by rw [hoptr, bytesDone_pad hp], hpacked⟩
    rw [← hacc, ← haccN]
    exact hframe.eq
  case overflow =>
    have hbody := (flush_partial hn).trans (appendBits_overflow hp ((room_pad_iff hp).not.2 (Nat.not_lt.2 hge)))
    rw [Nat.max_eq_left hge, BitVec.ofNat_toNat, BitVec.setWidth_eq] at hbody
    exact exec_error (i := .pflush) hbody

end Sys2Proof.Machine

/-! Bit unpacker (R94 to R99): UINIT, and what GETB and UALIGN take off the stream; O32 to O34. -/

namespace Sys2Proof.Machine

open Sys2Proof Config

/-! ### UINIT (R97) -/

theorem uinit_range {s : State} (hr : ¬ s.srcInRange) : bodyUinit s = raise .range s.srcAddr := by
  unfold bodyUinit
  rw [raiseIf_pos hr, raise_bind]

/-- Settles O32: UINIT past its check is that of `uinit_ok`. -/
theorem uinitSetsRange : Obligations.UinitSetsRange := by
  refine ⟨decode_encode (i := .uinit) rfl, fun s => ⟨fun hover => ?range, fun hr => ?loaded⟩⟩
  case range => exact exec_preconditionError (i := .uinit) (uinit_range (Nat.not_le.2 hover)) rfl
  case loaded =>
    obtain ⟨t, hbody, rfl, -, hiend, hbits⟩ := uinit_ok hr
    exact ⟨_, exec_ok (i := .uinit) hbody, rfl, hiend, hbits⟩

/-! ### GETB (R98) -/

theorem natOfBits_zeros_append (k : Nat) (bs : Bits) : natOfBits (zeros k ++ bs) = natOfBits bs := by
  induction k with
  | zero => rfl
  | succ k ih =>
    rw [zeros, List.replicate_succ, List.cons_append, natOfBits_cons, Bool.toNat_false, Nat.zero_mul, Nat.zero_add]
    exact ih

/-- A number written in more bits than it was read from is zero-extended (R98). -/
theorem bitsMsb_natOfBits_zeroExtend {bs : Bits} {n : Nat} (h : bs.length ≤ n) :
    bitsMsb (natOfBits bs) n = zeros (n - bs.length) ++ bs := by
  have hbits := bitsMsb_natOfBits (zeros (n - bs.length) ++ bs)
  rwa [natOfBits_zeros_append, List.length_append, zeros_length, Nat.sub_add_cancel h] at hbits

/-- The number read from at most 32 bits fits in a word. -/
theorem toNat_ofNat_natOfBits {bs : Bits} (h : bs.length ≤ 32) : (BitVec.ofNat 32 (natOfBits bs)).toNat = natOfBits bs :=
  BitVec.toNat_ofNat .. ▸ Nat.mod_eq_of_lt ((natOfBits_lt bs).trans_le (Nat.pow_le_pow_right Nat.two_pos h))

/-- GETB with n bits left: they are taken off the stream, and their number is RESULT. -/
theorem getb_ok {n : Nat} {s : State} (hu : s.UnpackerOk) (h : n ≤ s.inputBits.length) :
    ∃ t, bodyGetb n s = .ok t ∧ t.result = BitVec.ofNat 32 (natOfBits (s.inputBits.take n)) ∧
      t.inputBits = s.inputBits.drop n ∧ t.UnpackerOk := by
  obtain ⟨t, hread, -, htOk, hbits⟩ := readBits_ok hu h
  exact ⟨{ t with result := _ }, by unfold bodyGetb; rw [hread]; rfl, rfl, hbits, htOk⟩

theorem getb_exhausted {n : Nat} {s : State} (hu : s.UnpackerOk) (h : s.inputBits.length < n) :
    bodyGetb n s = raise .inExhausted s.iend := by
  unfold bodyGetb
  rw [readBits_exhausted hu h]
  rfl

/-- Settles O33: the two outcomes of read_bits (`getb_ok`, `getb_exhausted`), and the bits of the zero-extended word. -/
theorem getbReadsBits : Obligations.GetbReadsBits := by
  intro s n hwf hu
  refine ⟨fun hleft => ?read, fun hshort => exec_error (i := .getb n) (getb_exhausted hu hshort)⟩
  obtain ⟨t, hbody, hresult, hbits, htOk⟩ := getb_ok hu hleft
  obtain ⟨-, hn⟩ := countLegal_iff.1 hwf
  have hlength : (s.inputBits.take n.toNat).length = n.toNat := List.length_take_of_le hleft
  have hword : (s.inputBits.take n.toNat).length ≤ 32 := hlength.trans_le hn
  have hzeroExtend := bitsMsb_natOfBits_zeroExtend hword
  rw [← toNat_ofNat_natOfBits hword, ← hresult, hlength] at hzeroExtend
  exact ⟨t, exec_ok (i := .getb n) hbody, getb_frame hbody, hzeroExtend, hbits, htOk⟩

/-! ### UALIGN (R99) -/

/-- Inside a byte the range is not exhausted (R40). -/
theorem State.UnpackerOk.iptr_lt_iend {s : State} (hu : s.UnpackerOk) (hb : s.ibit ≠ 0) : s.iptr.toNat < s.iend.toNat :=
  Nat.lt_of_le_of_ne hu.1 fun h => hb (hu.2.2 (BitVec.eq_of_toNat_eq h))

theorem toNat_succ_of_lt {a b : Word} (h : a.toNat < b.toNat) : (a + 1).toNat = a.toNat + 1 := by bv_omega

/-- What is left of the stream past the byte being read: the bytes from the next one on (R94). -/
theorem inputBits_drop_byte {s : State} (h : s.iptr.toNat < s.iend.toNat) :
    s.inputBits.drop (8 - s.ibit.toNat) =
      unpackBytes (s.ibufBytes (s.iptr.toNat + 1) (s.iend.toNat - (s.iptr.toNat + 1))) := by
  have hibit : s.ibit.toNat + (8 - s.ibit.toNat) = 8 := Nat.add_sub_cancel' s.ibit.isLt.le
  have hlength : s.iend.toNat - s.iptr.toNat = s.iend.toNat - (s.iptr.toNat + 1) + 1 := by omega
  rw [State.inputBits, List.drop_drop, hibit, hlength, ibufBytes_succ, unpackBytes_cons]
  exact List.drop_left' (bitsMsb_length _ 8)

theorem exec_ualign_aligned {s : State} (h : s.ibit = 0) : exec .ualign s = .next s :=
  congrArg Host.Outcome.next (if_neg (not_not.2 h))

theorem exec_ualign_partial {s : State} (h : s.ibit ≠ 0) :
    exec .ualign s = .next { s with ibit := 0, iptr := s.iptr + 1 } :=
  congrArg Host.Outcome.next (if_pos h)

/-- Settles O34: inside a byte IPTR is below IEND, so its successor is a step of the range, and there the stream is that
of `inputBits_drop_byte`. -/
theorem ualignSkipsToByte : Obligations.UalignSkipsToByte := by
  refine ⟨decode_encode (i := .ualign) rfl, fun s hu => ⟨exec_ualign_aligned, fun hb => ?skipped⟩⟩
  have hlt := hu.iptr_lt_iend hb
  have hiptr := toNat_succ_of_lt hlt
  refine ⟨_, exec_ualign_partial hb, rfl, hiptr, hiptr.trans_le hlt, ?_⟩
  rw [inputBits_drop_byte hlt, ← hiptr]
  exact List.drop_zero

end Sys2Proof.Machine

/-! Container codec (R100 to R109): the header THDR writes and its size, what PARSE accepts and where it raises, and
DSYM; O35 to O42. -/

namespace Sys2Proof.Machine

open Sys2Proof Config

/-! ### THDR (R100 to R102) -/

/-- Past its check THDR appends the header of the table's entries. -/
theorem thdr_eq_appendBits {s : State} (hv : s.tableValid = true) :
    bodyThdr s = appendBits (headerStream s.tableEntries s.origLen.toNat) s := by
  rw [bodyThdr, raiseIf_neg (by simp [hv]), ok_bind, headerBits_tableEntries]

/-- THDR with room for its header (R102). -/
theorem exec_thdr_fits {s : State} (hp : s.PackerOk) (hv : s.tableValid = true)
    (hroom : s.Room (headerStream s.tableEntries s.origLen.toNat)) :
    ∃ t, exec .thdr s = .next t ∧ SameButPacker s t ∧ Packed s t (headerStream s.tableEntries s.origLen.toNat) := by
  obtain ⟨t, happend, hframe, hpacked⟩ := appendBits_ok hp hroom
  exact ⟨t, exec_ok (i := .thdr) ((thdr_eq_appendBits hv).trans happend), hframe, hpacked⟩

/-- Settles O35: past the check THDR is append_bits of the header, whose outcome is decided by the room. -/
theorem thdrWritesHeader : Obligations.ThdrWritesHeader := by
  refine ⟨decode_encode (i := .thdr) rfl, fun s hp => ⟨fun hv => exec_noTable hv (by decide), fun hv hroom => ?fits,
    fun hv hfull => ?overflow⟩⟩
  case fits =>
    obtain ⟨t, hexec, hframe, hpacked⟩ := exec_thdr_fits hp hv hroom
    exact ⟨t, hexec, hframe.eq, hpacked⟩
  case overflow => exact exec_error (i := .thdr) ((thdr_eq_appendBits hv).trans (appendBits_overflow hp hfull))

/-! ### The size of a header (R109) -/

/-- An entry takes two bytes and those of its padded code (R101). -/
theorem entries_bits_length {es : List Entry}
    (hpad : ∀ e ∈ es, e.pad.length = wholeBytes e.code.length - e.code.length) :
    (es.flatMap Entry.bits).length = 8 * (es.map fun e => 2 + (e.code.length + 7) / 8).sum := by
  induction es with
  | nil => rfl
  | cons e es ih =>
    rw [List.flatMap_cons, List.length_append, entry_bits_length e (hpad e List.mem_cons_self),
      ih fun x hx => hpad x (List.mem_cons_of_mem _ hx), List.map_cons, List.sum_cons, wholeBytes]
    omega

theorem headerStream_length {es : List Entry}
    (hpad : ∀ e ∈ es, e.pad.length = wholeBytes e.code.length - e.code.length) (orig : Nat) :
    (headerStream es orig).length = 8 * (2 + (es.map fun e => 2 + (e.code.length + 7) / 8).sum + 4) := by
  rw [headerStream, List.length_append, List.length_append, bitsMsb_length, bitsMsb_length, entries_bits_length hpad]
  omega

theorem tableEntries_pad_length (s : State) :
    ∀ e ∈ s.tableEntries, e.pad.length = wholeBytes e.code.length - e.code.length := by
  intro e he
  obtain ⟨b, -, rfl⟩ := List.mem_map.1 he
  exact zeros_length _

/-- Appending whole bytes leaves ACC_N as it was and completes exactly their number (R87). -/
theorem Packed.of_wholeBytes {s t : State} (hp : s.PackerOk) {bs : Bits} {n : Nat} (h : Packed s t bs)
    (hn : bs.length = 8 * n) : t.accN = s.accN ∧ t.optr.toNat = s.optr.toNat + n := by
  have hcount := h.accN
  obtain ⟨hoptr, -, htOk, -⟩ := h
  have hs := hp.1
  have ht := htOk.1
  exact ⟨BitVec.eq_of_toNat_eq (by omega), by omega⟩

/-- With n whole bytes left to read the unpacker stands at the start of a byte, n below IEND (R94). -/
theorem State.UnpackerOk.aligned {s : State} (hu : s.UnpackerOk) {n : Nat} (h : s.inputBits.length = 8 * n) :
    s.ibit = 0 ∧ s.iptr.toNat + n = s.iend.toNat := by
  have hlt := s.ibit.isLt
  have hle := hu.1
  rw [inputBits_length] at h
  have hibit : s.ibit.toNat = 0 := by
    by_contra hne
    have hinside := hu.iptr_lt_iend fun hzero => hne (congrArg BitVec.toNat hzero)
    omega
  exact ⟨BitVec.eq_of_toNat_eq hibit, by omega⟩

/-- Settles O36: a header is whole bytes, which neither the packer's bit count nor, from a byte boundary on, the
unpacker's bit index sees. -/
theorem headerSize : Obligations.HeaderSize := by
  refine ⟨fun s t hp hv hroom hexec => ?written, fun s t u es orig rest hr hlegal hsource huinit hparse => ?read⟩
  case written =>
    obtain ⟨t', hexec', -, hpacked⟩ := exec_thdr_fits hp hv hroom
    obtain rfl := Host.Outcome.next.inj (hexec.symm.trans hexec')
    exact hpacked.of_wholeBytes hp (headerStream_length (tableEntries_pad_length s) _)
  case read =>
    obtain ⟨t', hbody, -, htOk, hiend, hinput⟩ := uinit_ok hr
    obtain rfl := Host.Outcome.next.inj (huinit.symm.trans (exec_ok (i := .uinit) hbody))
    obtain ⟨u', hbody, hparsed⟩ := parse_ok htOk hlegal (hinput.trans hsource)
    obtain rfl := Host.Outcome.next.inj (hparse.symm.trans (exec_ok (i := .parse) hbody))
    have hend : u.iend.toNat = s.srcAddr.toNat + s.srcLen.toNat := by rw [hparsed.frame]; exact hiend
    have hlength := congrArg List.length hsource
    rw [unpackBytes_length, State.source, ibufBytes_length, List.length_append,
      headerStream_length hlegal.padLength] at hlength
    obtain ⟨hibit, hiptr⟩ := hparsed.unpacker.aligned
      (n := s.srcLen.toNat - (2 + (es.map fun e => 2 + (e.code.length + 7) / 8).sum + 4))
      (by rw [hparsed.input]; omega)
    exact ⟨hibit, by omega⟩

/-! ### PARSE (R103, R104, R108) -/

/-- Settles O37: PARSE on a legal header is that of `parse_ok`. -/
theorem parseLoadsHeader : Obligations.ParseLoadsHeader := by
  refine ⟨decode_encode (i := .parse) rfl, fun s es orig rest hu hlegal hinput => ?_⟩
  obtain ⟨t, hbody, hparsed⟩ := parse_ok hu hlegal hinput
  exact ⟨t, exec_ok (i := .parse) hbody, hparsed.frame, hparsed.table, hparsed.unpacker, hparsed.input⟩

/-- ORIG_LEN holds the whole length of a legal header (R103). -/
theorem Parsed.origLen_toNat {s t : State} {es : List Entry} {orig : Nat} {rest : Bits} (h : Parsed s es orig rest t)
    (hl : LegalHeader es orig) : t.origLen.toNat = orig := by
  rw [h.frame]
  exact (BitVec.toNat_ofNat ..).trans (Nat.mod_eq_of_lt hl.length)

/-- Settles O38: a PARSE that left ERR clear ended with its body's result, which `parse_inv` reads back. -/
theorem parseAcceptsOnlyLegal : Obligations.ParseAcceptsOnlyLegal := by
  intro s t hu _ hexec herr
  obtain ⟨es, orig, hlegal, hinput, hparsed⟩ := parse_inv hu (body_of_exec hexec herr)
  have hvalid : t.tableValid = true := by rw [hparsed.frame]
  obtain ⟨-, htable⟩ := hparsed.tableOk hlegal
  obtain ⟨hprefixFree, -⟩ := htable hvalid
  rw [hparsed.origLen_toNat hlegal]
  exact ⟨hprefixFree, es, hlegal, hinput, hparsed.table⟩

/-- PARSE on a stream whose header it rejects takes that header's error (R115). -/
theorem exec_parse_badHeader {s : State} (hu : s.UnpackerOk) {bits : Bits} (h : s.inputBits = bits) {e : ErrorCode}
    {info : Nat} (hbad : BadHeader bits e info) :
    exec .parse s = .next (s.takeError ⟨e, BitVec.ofNat 32 info⟩) :=
  exec_error (i := .parse) (parse_badHeader hu (h ▸ hbad))

theorem goodEntry_iff {cnt : Nat} {e : Entry} : GoodEntry cnt e ↔
    e.code.length ≤ 255 ∧ e.pad.length = wholeBytes e.code.length - e.code.length ∧ (e.code = [] → cnt = 1) :=
  ⟨fun h => ⟨h.codeLength, h.padLength, h.zeroLength⟩, fun ⟨hcode, hpad, hzero⟩ => ⟨hcode, hpad, hzero⟩⟩

/-- Settles O39: a header cut short is truncated, and each other clause is a way for a header to be bad. -/
theorem parseFormatErrors : Obligations.ParseFormatErrors := by
  refine ⟨fun s es orig missing hu hlegal hinput hmissing => ?truncated, fun s cnt rest hu h16 =>
    ⟨fun hcnt hinput => ?count, fun es b hcnt hlt hdistinct hgood => ⟨fun hb hinput => ?duplicate,
      fun hb hne hinput => ?zeroLength⟩, fun orig h0 h32 hinput => ?empty⟩⟩
  case truncated => exact exec_error (i := .parse) (parse_truncated hu hlegal hinput hmissing)
  case count => exact exec_parse_badHeader hu hinput (.count cnt rest hcnt h16)
  case duplicate =>
    rw [← BitVec.ofNat_toNat]
    exact exec_parse_badHeader hu hinput
      (.duplicate cnt es b rest hcnt hlt (fun e he => goodEntry_iff.2 (hgood e he)) hdistinct hb)
  case zeroLength =>
    rw [← BitVec.ofNat_toNat]
    exact exec_parse_badHeader hu hinput
      (.zeroLength cnt es b rest hcnt hlt (fun e he => goodEntry_iff.2 (hgood e he)) hdistinct hb hne)
  case empty => exact exec_parse_badHeader hu hinput (.emptyTable orig rest h0 h32)

/-- Settles O40: entries with a first offending pair are a bad header, whatever follows them. -/
theorem parseReportsFirstClash : Obligations.ParseReportsFirstClash :=
  fun _ es rest e f hu hcount hdistinct hgood hinput he hf hlt hclash hfirst => exec_parse_badHeader hu hinput
    (.clash es e f rest hcount (fun x hx => goodEntry_iff.2 (hgood x hx)) hdistinct he hf hlt hclash hfirst)

/-! ### DSYM (R105 to R107) -/

theorem hasCode_iff_mem {s : State} {b : Byte} {c : Bits} : s.HasCode b c ↔ (b, c) ∈ validCodes s.ctab :=
  mem_validCodes.symm

theorem mem_validCodes_codeOf {s : State} {b : Byte} (h : (s.ctabAt b).valid = true) :
    (b, s.codeOf b) ∈ validCodes s.ctab :=
  hasCode_iff_mem.1 (show s.ctabAt b = ⟨true, (s.ctabAt b).code⟩ by rw [← h])

/-- Settles O41: the symbols are decoded as in `dsym_ok`. -/
theorem dsymDecodesSymbols : Obligations.DsymDecodesSymbols := by
  refine ⟨decode_encode (i := .dsym) rfl, fun s => ⟨fun hv => exec_noTable hv (by decide),
    fun bs rest hv hprefixFree hu hp hlength hcodes hinput hroom => ?_⟩⟩
  obtain ⟨t, hbody, hframe, hdacc, -, hrest, hpacked⟩ := dsym_ok hv hprefixFree hcodes hlength hu hp hinput hroom
  refine ⟨t, exec_ok (i := .dsym) hbody, hpacked, hrest, ?_⟩
  rw [← hdacc]
  exact hframe.eq

/-- DSYM at a symbol that decode_symbol cannot complete (R106): its error, after the symbols `bs` are written. -/
theorem exec_dsym_raise {s : State} (hv : s.tableValid = true) (ht : PrefixFree (validCodes s.ctab)) (hu : s.UnpackerOk)
    (hp : s.PackerOk) {bs : List Byte} (hcodes : ∀ b ∈ bs, (s.ctabAt b).valid = true) {rest : Bits}
    (hinput : s.inputBits = payload s.codeOf bs ++ rest) (hroom : s.Room (unpackBytes bs))
    (hlt : bs.length < s.origLen.toNat) {e : ErrorCode} (hraise : ∀ t : State, t.UnpackerOk → t.inputBits = rest →
      decodeSymbol (validCodes s.ctab) bs.length t = raise e (BitVec.ofNat 32 bs.length)) :
    exec .dsym s = .next (s.takeError ⟨e, BitVec.ofNat 32 bs.length⟩) := by
  refine exec_error (i := .dsym) (dsym_raise hv (decodeFrom_raise ht s.codeOf
    (fun b hb => mem_validCodes_codeOf (hcodes b hb)) 0 hlt hu hp hinput hroom ?_))
  rw [Nat.zero_add]
  exact hraise

/-- Settles O42: the first two outcomes are those of decode_symbol on the rest of the stream, the third is that of the
loop when the symbols do not fit. -/
theorem dsymReportsSymbol : Obligations.DsymReportsSymbol := by
  intro s bs rest hv ht hu hp hcodes hinput
  refine ⟨fun hroom hlt hno hinside => exec_dsym_raise hv ht hu hp hcodes hinput hroom hlt fun t htOk hrest => ?truncated,
    fun hroom hlt hno houtside => exec_dsym_raise hv ht hu hp hcodes hinput hroom hlt fun t htOk hrest => ?badCode,
    fun hfull hle => ?overflow⟩
  case truncated =>
    obtain ⟨b, c, hcode, hprefix⟩ := hinside
    subst hrest
    exact decodeSymbol_truncated _ htOk (fun e he => hno e.1 e.2 (hasCode_iff_mem.2 he))
      ⟨(b, c), hasCode_iff_mem.1 hcode, hprefix⟩
  case badCode =>
    subst hrest
    exact decodeSymbol_bad _ htOk (fun e he => hno e.1 e.2 (hasCode_iff_mem.2 he))
      fun e he => houtside e.1 e.2 (hasCode_iff_mem.2 he)
  case overflow =>
    obtain ⟨n, hn⟩ := Nat.exists_eq_add_of_le hle
    have hloop := decodeFrom_overflow ht s.codeOf (fun b hb => mem_validCodes_codeOf (hcodes b hb)) 0 n hu hp hinput hfull
    rw [← hn] at hloop
    exact exec_error (i := .dsym) (dsym_raise hv hloop)

end Sys2Proof.Machine

/-! Composite commands (R110 to R113): ENCODE and DECODE out of range, the container as DECODE reads it, and DECODE past a
legal header; O43, O44 and O47 to O50. -/

namespace Sys2Proof.Machine

open Sys2Proof Config

/-! ### ENCODE (R110, R113) -/

theorem encode_range {s : State} (hr : ¬ s.srcInRange) : bodyEncode s = raise .range s.srcAddr := by
  unfold bodyEncode
  rw [raiseIf_pos hr, raise_bind]

/-- The bits of ENCODE's container, said by the entries of its table (R100 to R102). -/
theorem containerBits_tableEntries (u : State) (origLen : Nat) (body : Bits) :
    containerBits (validCodes u.ctab) origLen body =
      headerStream u.tableEntries origLen ++ body ++ zeros (wholeBytes body.length - body.length) := by
  rw [containerBits, headerBits_tableEntries]

/-- What ENCODE leaves outside the packer is what its table stage left (R110, R113). -/
theorem Coded.frame_encoded {s u t : State} (hc : Coded s u)
    (ht : t = { u with optr := t.optr, acc := 0, accN := 0, obuf := t.obuf }) :
    t = { s with hist := u.hist, htotal := s.srcLen, origLen := s.srcLen, node := u.node, nodeCount := u.nodeCount
                 root := u.root, symcount := u.symcount, ctab := u.ctab, pq := [], wstack := u.wstack
                 treeValid := true, tableValid := true, optr := t.optr, acc := 0, accN := 0, obuf := t.obuf } := by
  have hframe := hc.frame
  rw [hc.pq] at hframe
  rw [hframe] at ht
  exact ht

/-- Settles O43: the table stage is that of `tableStage_ok`, and what follows it that of `encode_ok`. -/
theorem encodeWritesContainer : Obligations.EncodeWritesContainer := by
  refine ⟨decode_encode (i := .encode) rfl, fun s hr => ?_⟩
  obtain ⟨u, hu, hc⟩ := tableStage_ok hr
  refine ⟨u, hu, hc.prefixFree, hc.valid, hc.hist, ?payload, fun hfit => ?container⟩
  case payload => simp only [hc.hist, payload_length]
  case container =>
    obtain ⟨t, hencode, hframe, hoptr, hbits, hkept⟩ := encode_ok hr hu hc hfit
    exact ⟨t, exec_ok (i := .encode) hencode, hc.frame_encoded hframe, hc.wstack, hoptr,
      hbits.trans (containerBits_tableEntries ..), hkept⟩

/-- The table stage leaves what `Coded` says, however it was reached. -/
theorem coded_of_tableStage {s u : State} (hr : s.srcInRange) (hu : tableStage s = .ok u) : Coded s u := by
  obtain ⟨u', hu', hc⟩ := tableStage_ok hr
  obtain rfl := Except.ok.inj (hu.symm.trans hu')
  exact hc

/-- Settles O44: the check of the source, and past it `encode_overflow`. -/
theorem encodeErrors : Obligations.EncodeErrors := fun _ =>
  ⟨fun hover => exec_preconditionError (i := .encode) (encode_range (Nat.not_le.2 hover)) rfl,
    fun _ hr hu hfull => exec_error (i := .encode) (encode_overflow hr hu (coded_of_tableStage hr hu) hfull)⟩

/-- An ENCODE that completes has written the whole container of its table (R110, R113). -/
theorem encode_inv {s t : State} (h : bodyEncode s = .ok t) : ∃ u, tableStage s = .ok u ∧ Coded s u ∧
    t.optr.toNat = s.dstAddr.toNat + containerLength (validCodes u.ctab) (payload u.codeOf s.source).length ∧
    unpackBytes (t.obufBytes s.dstAddr.toNat (containerLength (validCodes u.ctab) (payload u.codeOf s.source).length)) =
      containerBits (validCodes u.ctab) s.srcLen.toNat (payload u.codeOf s.source) := by
  have hr : s.srcInRange := by
    by_contra hr
    cases (encode_range hr).symm.trans h
  obtain ⟨u, hu, hc⟩ := tableStage_ok hr
  have hfit : s.dstAddr.toNat + containerLength (validCodes u.ctab) (payload u.codeOf s.source).length ≤
      s.params.obufSize := by
    by_contra hfull
    cases (encode_overflow hr hu hc (Nat.not_le.1 hfull)).symm.trans h
  obtain ⟨t', hencode, -, hoptr, hbits, -⟩ := encode_ok hr hu hc hfit
  obtain rfl := Except.ok.inj (h.symm.trans hencode)
  exact ⟨u, hu, hc, hoptr, hbits⟩

theorem codeOf_of_eq {s t : State} (h : t.ctab = s.ctab) : t.codeOf = s.codeOf :=
  funext fun b => congrArg CodeEntry.code (ctabAt_of_eq h b)

/-- Settles O47: both containers are made of the source and of its table, and that is a function of the source
(`tableStage_congr`). -/
theorem encodeDeterministic : Obligations.EncodeDeterministic := by
  intro s s' t t' hsource _ _ hexec hexec' herr herr'
  obtain ⟨u, hu, hc, hoptr, hbits⟩ := encode_inv (body_of_exec (i := .encode) hexec herr)
  obtain ⟨u', hu', hc', hoptr', hbits'⟩ := encode_inv (body_of_exec (i := .encode) hexec' herr')
  have htable : u'.ctab = u.ctab := tableStage_congr hsource hu hu' hc hc'
  have hlength : s'.srcLen.toNat = s.srcLen.toNat := by rw [← source_length, hsource, source_length]
  rw [htable, codeOf_of_eq htable, hsource] at hoptr' hbits'
  rw [hlength] at hbits'
  exact ⟨_, hoptr, hoptr', unpackBytes_inj (hbits'.trans hbits.symm)⟩

/-! ### DECODE (R111) -/

theorem decode_range {s : State} (hr : ¬ s.srcInRange) : bodyDecode s = raise .range s.srcAddr := by
  unfold bodyDecode
  rw [raiseIf_pos hr, raise_bind]

/-- Settles O48: DECODE of a legal header, the codes of the bytes, and the rest is that of `decode_ok`. -/
theorem decodeRecoversBytes : Obligations.DecodeRecoversBytes := by
  refine ⟨decode_encode (i := .decode) rfl, fun s es code bs rest hr hlegal hcodes hsource hfit => ?_⟩
  rw [List.append_assoc] at hsource
  obtain ⟨t, hbody, hdecoded⟩ := decode_ok hr hlegal code hcodes rfl hsource hfit
  exact ⟨t, exec_ok (i := .decode) hbody, hdecoded⟩

/-- An error of PARSE, which sees the whole source from its first bit on, is one of DECODE (R111). -/
theorem decode_parse_raise {s : State} (hr : s.srcInRange) {e : ErrorCode} {info : Word}
    (hraise : ∀ u : State, u.UnpackerOk → u.inputBits = unpackBytes s.source → u.iend = s.srcAddr + s.srcLen →
      bodyParse u = raise e info) : bodyDecode s = raise e info := by
  obtain ⟨u, hdecode, hframe, hu, hinput⟩ := decode_start hr
  rw [hdecode, hraise u hu hinput (by rw [hframe]), raise_bind]

section Payload

variable {s : State} {es : List Entry} {orig : Nat} {code : Byte → Bits} {bs : List Byte} {rest : Bits}

/-- DECODE past a legal header and the symbols `bs`, whose bytes fit: it raises what decode_symbol raises at the next symbol
(R106, R111). The table is read in the order of CTAB, which is a permutation of the header's. -/
theorem decode_symbol_raise (hr : s.srcInRange) (hlegal : LegalHeader es orig) (hcodes : ∀ b ∈ bs, (b, code b) ∈ tableOf es)
    (hsource : unpackBytes s.source = headerStream es orig ++ (payload code bs ++ rest)) (hlt : bs.length < orig)
    (hfit : bs = [] ∨ s.dstAddr.toNat + bs.length ≤ s.params.obufSize) {e : ErrorCode} {info : Word}
    (hraise : ∀ (table : List (Byte × Bits)) (t : State), (∀ x, x ∈ table ↔ x ∈ tableOf es) → t.UnpackerOk →
      t.inputBits = rest → decodeSymbol table bs.length t = raise e info) : bodyDecode s = raise e info := by
  obtain ⟨u, hdecode, hframe, horig, -, hperm, hu, hp, hinput, -, hroom⟩ := decode_parsed hr hlegal hsource
  have hloop : decodeFrom (validCodes u.ctab) 0 u.origLen.toNat u = raise e info :=
    decodeFrom_raise (hlegal.prefixFree.perm hperm.symm) code (fun b hb => hperm.mem_iff.2 (hcodes b hb)) 0
      (hlt.trans_eq horig.symm) hu hp hinput ((hroom bs).2 hfit) fun t ht hrest => by
        rw [Nat.zero_add]
        exact hraise _ t (fun _ => hperm.mem_iff) ht hrest
  exact hdecode.trans (dsym_raise (by rw [hframe]) hloop)

/-- DECODE past a legal header whose symbols `bs` do not fit at DST_ADDR (R87, R111). -/
theorem decode_overflow (hr : s.srcInRange) (hlegal : LegalHeader es orig) (hcodes : ∀ b ∈ bs, (b, code b) ∈ tableOf es)
    (hsource : unpackBytes s.source = headerStream es orig ++ (payload code bs ++ rest)) (hle : bs.length ≤ orig)
    (hne : bs ≠ []) (hfull : s.params.obufSize < s.dstAddr.toNat + bs.length) :
    bodyDecode s = raise .obufOverflow (BitVec.ofNat 32 (max s.dstAddr.toNat s.params.obufSize)) := by
  obtain ⟨u, hdecode, hframe, horig, -, hperm, hu, hp, hinput, -, hroom⟩ := decode_parsed hr hlegal hsource
  obtain ⟨n, hn⟩ := Nat.exists_eq_add_of_le (hle.trans_eq horig.symm)
  have hloop := decodeFrom_overflow (hlegal.prefixFree.perm hperm.symm) code (fun b hb => hperm.mem_iff.2 (hcodes b hb)) 0 n
    hu hp hinput fun hfits => ((hroom bs).1 hfits).elim hne (Nat.not_le.2 hfull)
  rw [← hn, show u.optr = s.dstAddr by rw [hframe], show u.params = s.params by rw [hframe]] at hloop
  exact hdecode.trans (dsym_raise (by rw [hframe]) hloop)

end Payload

/-- Settles O49: the check of the source, then the errors of PARSE, then those of DSYM past a legal header. -/
theorem decodeErrors : Obligations.DecodeErrors := by
  refine fun s => ⟨fun hover => ?range, fun hr e info hbad => ?badHeader, fun es orig hr hlegal =>
    ⟨fun missing hmissing hsource => ?truncated, fun code bs rest hcodes hsource => ?payload⟩⟩
  case range => exact exec_preconditionError (i := .decode) (decode_range (Nat.not_le.2 hover)) rfl
  case badHeader =>
    exact exec_error (i := .decode) (decode_parse_raise hr fun u hu hinput _ => parse_badHeader hu (hinput ▸ hbad))
  case truncated =>
    refine exec_error (i := .decode) (decode_parse_raise hr fun u hu hinput hiend => ?_)
    rw [← hiend]
    exact parse_truncated hu hlegal (hinput ▸ hsource) hmissing
  case payload =>
    rw [List.append_assoc] at hsource
    refine ⟨fun hlt hfit hno => ⟨fun hinside => ?inside, fun houtside => ?outside⟩, fun hle hne hfull => ?overflow⟩
    case inside =>
      obtain ⟨x, hx, hprefix⟩ := hinside
      refine exec_error (i := .decode) (decode_symbol_raise hr hlegal hcodes hsource hlt hfit fun table t hmem ht hrest => ?_)
      subst hrest
      exact decodeSymbol_truncated _ ht (fun y hy => hno y ((hmem y).1 hy)) ⟨x, (hmem x).2 hx, hprefix⟩
    case outside =>
      refine exec_error (i := .decode) (decode_symbol_raise hr hlegal hcodes hsource hlt hfit fun table t hmem ht hrest => ?_)
      subst hrest
      exact decodeSymbol_bad _ ht (fun y hy => hno y ((hmem y).1 hy)) fun y hy => houtside y ((hmem y).1 hy)
    case overflow => exact exec_error (i := .decode) (decode_overflow hr hlegal hcodes hsource hle hne hfull)

/-! ### The round trip (R112) -/

theorem tableOf_paddedEntry (table : List (Byte × Bits)) : tableOf (table.map paddedEntry) = table := by
  rw [tableOf, List.map_map]
  exact List.map_id table

/-- The header of ENCODE's container is one that PARSE accepts (R103, R110). -/
theorem Coded.legalHeader {s u : State} (hc : Coded s u) :
    LegalHeader ((validCodes u.ctab).map paddedEntry) s.srcLen.toNat where
  count := (List.length_map ..).trans_le (validCodes_length_le _)
  distinct := by
    rw [← tableOf_fst, tableOf_paddedEntry]
    exact validCodes_nodup _
  codeLength := List.forall_mem_map.2 fun e he => (hc.length e he).2
  padLength := List.forall_mem_map.2 fun _ _ => zeros_length _
  zeroLength := List.forall_mem_map.2 fun e he hnil =>
    absurd (congrArg List.length hnil) (Nat.pos_iff_ne_zero.1 (hc.length e he).1)
  prefixFree := by
    rw [tableOf_paddedEntry]
    exact hc.prefixFree
  length := s.srcLen.isLt
  empty hnil := by
    have hnone : ∀ b, b ∉ s.source := fun b hb => by
      have hcode := mem_validCodes_codeOf ((hc.valid b).2 hb)
      rw [List.map_eq_nil_iff.1 hnil] at hcode
      exact List.not_mem_nil hcode
    rw [← source_length, List.eq_nil_iff_forall_not_mem.2 hnone, List.length_nil]

/-- DECODE of the container of a table stage gives the source back, wherever the container and the output stand (R112). -/
theorem exec_decode_container {s u s' : State} (hc : Coded s u) (hr : s'.srcInRange)
    (hsource : unpackBytes s'.source = containerBits (validCodes u.ctab) s.srcLen.toNat (payload u.codeOf s.source))
    (hfit : s'.dstAddr.toNat + s.srcLen.toNat ≤ s'.params.obufSize) :
    ∃ t, exec .decode s' = .next t ∧ t.err = s'.err ∧ t.obufBytes s'.dstAddr.toNat s.srcLen.toNat = s.source := by
  have hcodes : ∀ b ∈ s.source, (b, u.codeOf b) ∈ tableOf ((validCodes u.ctab).map paddedEntry) := fun b hb => by
    rw [tableOf_paddedEntry]
    exact mem_validCodes_codeOf ((hc.valid b).2 hb)
  rw [containerBits, headerBits_eq, List.append_assoc] at hsource
  rw [← source_length] at hfit
  obtain ⟨t, hbody, hframe, -, -, hbytes, -⟩ :=
    decode_ok hr hc.legalHeader u.codeOf hcodes (source_length s) hsource (.inr hfit)
  refine ⟨t, exec_ok (i := .decode) hbody, by rw [hframe], ?_⟩
  rw [← source_length]
  exact hbytes

/-- Settles O50: ENCODE writes the container of its table stage (`encode_ok`), and DECODE reads it back. -/
theorem roundTrip : Obligations.RoundTrip := by
  intro s u herr hr hu n hfit
  have hc := coded_of_tableStage hr hu
  obtain ⟨t, hencode, hframe, -, hbits, -⟩ := encode_ok hr hu hc hfit
  refine ⟨t, exec_ok (i := .encode) hencode, by rw [hc.frame_encoded hframe]; exact herr, ?_⟩
  intro s' herr' hlength hr' hsource hfit'
  obtain ⟨t', hexec, hkept, hbytes⟩ := exec_decode_container hc (s' := s')
    (by rw [State.srcInRange, State.srcEnd, hlength]; exact hr') (by rw [hsource]; exact hbits) hfit'
  exact ⟨t', hexec, hkept.trans herr', hbytes⟩

end Sys2Proof.Machine

/-! The step of a pending word (R114, R130, R133), a word written to CMD (R114, R119, R120, R132), errors (R115 to R119) and
the interrupt (R123): O4, O6, O9, O13, O18 and O51 to O53. -/

namespace Sys2Proof.Machine

open Sys2Proof Config

/-! ### Errors (R115 to R119) -/

/-- `t` has ERR, ERRCODE and ERR_INFO as `s` has them. -/
structure ErrorKept (s t : State) : Prop where
  err : t.err = s.err
  errcode : t.errcode = s.errcode
  errInfo : t.errInfo = s.errInfo

/-- A body that raises nothing leaves the error state alone, but for SRESET's, which clears ERR. -/
theorem body_errorKept {i : Instr} (hi : i ≠ .sreset) {s t : State} (h : bodyOf i s = .ok t) : ErrorKept s t := by
  obtain ⟨herr, hcode, hinfo, -⟩ := (body_agree h).errors (errors_notMem_results hi)
  exact ⟨herr, hcode, hinfo⟩

/-- Settles O51: a command ends with its body's result, or with one error of its list taken (`body_error`). -/
theorem commandsRaiseListedErrors : Obligations.CommandsRaiseListedErrors := by
  intro i s
  rcases exec_cases i s with ⟨t, hbody, hexec⟩ | ⟨r, hbody, hexec⟩
  · refine ⟨t, hexec, ?_⟩
    by_cases hi : i = .sreset
    · subst hi
      obtain rfl := Except.ok.inj hbody
      exact .inr (.inl ⟨rfl, rfl⟩)
    · have hkept := body_errorKept hi hbody
      exact .inl ⟨hkept.err, hkept.errcode, hkept.errInfo⟩
  · exact ⟨_, hexec, .inr (.inr ⟨r, body_error hbody, rfl⟩)⟩

/-- A precondition error writes the error's bookkeeping alone (R116). -/
theorem takeError_precondition {r : Raise} (h : isExecutionError r.code = false) (s : State) :
    s.takeError r = s.recordError r.code r.info := by
  simp only [State.takeError, h, Bool.false_eq_true, if_false]

/-- Settles O52: the codes by evaluation; what R117 names exact is among what the host owns. -/
theorem errorTaken : Obligations.ErrorTaken := by
  refine ⟨by decide, fun s r => ?_⟩
  have hkept := takeError_hostOwnedKept s r
  have hprecondition : ∀ e ∈ [ErrorCode.illegalCmd, .range, .countOverflow, .noTree, .noTable],
      isExecutionError e = false := by decide
  exact ⟨rfl, rfl, rfl, fun h => takeError_precondition (hprecondition _ h) s, hkept.ovr, hkept.ie, hkept.ibuf,
    hkept.params, hkept.srcAddr, hkept.srcLen, hkept.dstAddr, hkept.arg, hkept.idx, hkept.pending, hkept.done,
    hkept.turns⟩

/-! ### The step of a pending word (R114) -/

/-- A step of an idle block with its turn takes the turn and nothing else (R130). -/
theorem step_idle {s : State} (hidle : s.pending = none) (ht : s.turns = [] ∨ s.turns.head? = some .block) :
    step s = .next s.turn := by
  rw [step_block ht]
  unfold blockTurn State.turn
  simp only [hidle]

/-- Settles O4: exec of the decoded command, completed; `withFetchWord` only puts the word and the turn in front. -/
theorem stepRunsDecodedCommand : Obligations.StepRunsDecodedCommand := by
  refine ⟨fun s t w i hp hd hraced ht hexec => ?pending, fun s t n w i hd hexec => ?fetched, fun s => step_idle⟩
  case pending =>
    rw [step_completed hp hd hraced ht]
    exact congrArg completed hexec
  case fetched =>
    rw [step_completed (s := s.withFetchWord n w) rfl hd rfl (.inr rfl)]
    exact congrArg completed hexec

theorem exec_turns (i : Instr) (s : State) : ∃ t, exec i s = .next t ∧ t.turns = s.turns := by
  by_cases hi : i = .sreset
  · subst hi
    exact ⟨s.softReset, rfl, rfl⟩
  · rcases exec_cases i s with ⟨t, -, hexec⟩ | ⟨r, -, hexec⟩
    · exact ⟨t, hexec, (exec_hostOwnedKept hi hexec).turns⟩
    · exact ⟨_, hexec, (exec_hostOwnedKept hi hexec).turns⟩

theorem racedResult_turns (i : Instr) (s : State) : (racedResult i s).turns = s.turns := by
  rcases raced_cases i s with ⟨r, -, h⟩ | ⟨-, ⟨r, -, -, h⟩ | h⟩
  · rw [h]; rfl
  · rw [h]; exact (takeError_hostOwnedKept s r).turns
  · rw [h]; split <;> rfl

/-- The block's step on a pending word, legal or not and raced or not, ends in a completion (R114, R133). -/
theorem step_completes {s : State} {w : Word} (hp : s.pending = some w)
    (ht : s.turns = [] ∨ s.turns.head? = some .block) : ∃ u : State, step s = .next u.complete ∧ u.turns = s.turns.tail := by
  cases hd : decode w with
  | error r => exact ⟨_, step_illegal hp hd ht, by split <;> rfl⟩
  | ok i =>
    cases hraced : s.raced with
    | true => exact ⟨_, step_raced hp hd hraced ht, racedResult_turns i s.turn⟩
    | false =>
      obtain ⟨u, hexec, hturns⟩ := exec_turns i s.turn
      exact ⟨u, by rw [step_completed hp hd hraced ht, hexec]; rfl, hturns⟩

/-- Settles O6: a completion clears PENDING and sets DONE. -/
theorem everyCommandCompletes : Obligations.EveryCommandCompletes := by
  intro s w hp ht
  obtain ⟨u, hstep, hturns⟩ := step_completes hp ht
  exact ⟨u.complete, hstep, rfl, rfl, rfl, hturns⟩

/-! ### A word written to CMD (R114, R119, R120) -/

theorem pending_some_of_busy {s : State} (h : s.busy = true) : ∃ c, s.pending = some c := Option.isSome_iff_exists.1 h

theorem pending_none_of_not_busy {s : State} (h : s.busy = false) : s.pending = none := busy_false (by simp [h])

/-- A busy block drops every word but SRESET's, with OVR (R120). -/
theorem offerCommand_overrun {s : State} (hbusy : s.busy = true) {w : Word} (hw : w ≠ 0x0000_0001#32) :
    offerCommand w s = { s with ovr := true } := by
  simp only [offerCommand, if_neg hw, hbusy, if_true]

/-- An idle block accepts SRESET's word, ERR or not. -/
theorem offerCommand_sreset {s : State} (hidle : s.pending = none) :
    offerCommand 0x0000_0001#32 s = s.accept 0x0000_0001#32 := by
  simp only [offerCommand, if_true, hidle]

/-- A busy block accepts SRESET's word and abandons the command that runs (R132). -/
theorem offerCommand_abandons {s : State} {c : Word} (hp : s.pending = some c) :
    offerCommand 0x0000_0001#32 s = (s.abandon c).accept 0x0000_0001#32 := by
  simp only [offerCommand, if_true, hp]

/-! ### Abandoning a command (R132) -/

/-- What no abandonment touches: IBUF, the sizes and the turns. -/
theorem abandon_kept (c : Word) (s : State) :
    (s.abandon c).ibuf = s.ibuf ∧ (s.abandon c).params = s.params ∧ (s.abandon c).turns = s.turns := by
  obtain ⟨u, ps, a, b, hu, -, h⟩ := abandon_cases c s
  rw [h]
  rcases hu with rfl | ⟨-, rfl⟩ <;> exact ⟨rfl, rfl, rfl⟩

/-- A validity bit that is no result of the abandoned command stays (R45). -/
theorem abandonedTreeValid_kept {i : Instr} (h : .treeValid ∉ results i) (old free : Bool) :
    abandonedTreeValid i old free = old := by
  simp only [treeValid_mem_results, List.mem_cons, List.not_mem_nil, or_false, not_or] at h
  simp [abandonedTreeValid, h]

theorem abandonedTableValid_kept {i : Instr} (h : .tableValid ∉ results i) (old free : Bool) :
    abandonedTableValid i old free = old := by
  simp only [tableValid_mem_results, List.mem_cons, List.not_mem_nil, or_false, not_or] at h
  simp [abandonedTableValid, h]

/-- Abandoning a command touches, besides OBUF, no part but results of that command (R132). -/
theorem abandon_agree (c : Word) (s : State) :
    ∃ ps, AgreeOutside ps s (s.abandon c) ∧ ∀ p ∈ ps, ∃ i, decode c = .ok i ∧ p ∈ results i := by
  unfold State.abandon
  split
  case h_1 => exact ⟨[], drawParts_agree [] s, nofun⟩
  case h_2 i hd =>
    split
    case h_1 => exact ⟨[], drawParts_agree [] s, nofun⟩
    case h_2 =>
      refine ⟨results i, ?_, fun p hp => ⟨i, hd, hp⟩⟩
      split
      case isTrue => exact drawParts_agree _ s
      case isFalse =>
        split
        case isTrue hi =>
          subst hi
          constructor <;> simp [results]
        case isFalse =>
          exact { drawParts_agree (results i) s with
            treeValid := fun h => abandonedTreeValid_kept h _ _
            tableValid := fun h => abandonedTableValid_kept h _ _ }

/-- An abandoned SRESET that was not raced had applied its whole reset or nothing of it (R71, log 10). -/
theorem abandon_sreset {s : State} (hraced : s.raced = false) :
    s.abandon 0x0000_0001#32 = s.drawParts [] ∨ s.abandon 0x0000_0001#32 = s.softReset.drawParts [] := by
  have hd : decode 0x0000_0001#32 = .ok .sreset := decode_sreset.2 rfl
  simp only [State.abandon, hd, preconditions, hraced, Bool.false_eq_true, if_false, if_true]
  split
  · exact .inr rfl
  · exact .inl rfl

/-- Settles O13: the idle and the busy cases by the rules above; after an abandonment a part outside the abandoned
command's results is kept (`abandon_agree`). -/
theorem commandAcceptance : Obligations.CommandAcceptance := by
  intro s w
  simp only [csrWrite_cmd]
  refine ⟨fun hw hbusy => offerCommand_overrun hbusy hw,
    fun hw hidle herr => offerCommand_dropped (pending_none_of_not_busy hidle) herr hw,
    fun _ hidle herr => offerCommand_accepted (pending_none_of_not_busy hidle) herr w,
    fun hidle => offerCommand_sreset (pending_none_of_not_busy hidle), fun c hp => ?abandoned⟩
  obtain ⟨hibuf, hparams, -⟩ := abandon_kept c s
  obtain ⟨ps, hagree, hresults⟩ := abandon_agree c s
  refine ⟨_, offerCommand_abandons hp, rfl, rfl, hibuf, hparams, fun hc => ?owned, fun hc hraced => ?sreset,
    fun hd => hagree.treeValid fun h => ?tree, fun hd => hagree.tableValid fun h => ?table⟩
  case owned =>
    have hsreset : ∀ i, decode c = .ok i → i ≠ .sreset := fun i hd hi => hc (decode_sreset.1 (hi ▸ hd))
    have herrors : .errors ∉ ps := fun h => by
      obtain ⟨i, hd, hi⟩ := hresults _ h
      exact hsreset i hd (results_host (.inl hi))
    have hoperands : .operands ∉ ps := fun h => by
      obtain ⟨i, hd, hi⟩ := hresults _ h
      exact hsreset i hd (results_host (.inr hi))
    obtain ⟨herr, hcode, hinfo, hovr⟩ := hagree.errors herrors
    obtain ⟨hie, hsrcAddr, hsrcLen, hdstAddr, harg, hidx⟩ := hagree.operands hoperands
    exact ⟨herr, hcode, hinfo, hovr, hie, hsrcAddr, hsrcLen, hdstAddr, harg, hidx⟩
  case sreset =>
    subst hc
    rcases abandon_sreset hraced with h | h
    · rw [h]
      exact .inl ⟨rfl, rfl, rfl, rfl, rfl, rfl, rfl, rfl, rfl, rfl, rfl, rfl⟩
    · rw [h]
      exact .inr ⟨rfl, rfl, rfl, rfl, rfl, rfl, rfl, rfl, rfl, rfl, rfl, rfl⟩
  case tree =>
    obtain ⟨i, hi, hmem⟩ := hresults _ h
    have hwriter := (List.perm_append_singleton _ _).mem_iff.2 (treeValid_mem_results.1 hmem)
    exact hd i hwriter hi
  case table =>
    obtain ⟨i, hi, hmem⟩ := hresults _ h
    have hwriter := (List.perm_append_singleton _ _).mem_iff.2 (tableValid_mem_results.1 hmem)
    exact hd i hwriter hi

/-- The block's step on SRESET's word, not raced, is the soft reset, completed (R71, R114). -/
theorem step_sreset {s : State} (hp : s.pending = some 0x0000_0001#32) (hraced : s.raced = false)
    (ht : s.turns = [] ∨ s.turns.head? = some .block) : step s = .next s.turn.softReset.complete := by
  rw [step_completed hp (decode_sreset.2 rfl) hraced ht]
  rfl

/-- Settles O9: the abandonment keeps IBUF, the sizes and the turns, and the soft reset that follows does too. -/
theorem abandonedCommandResets : Obligations.AbandonedCommandResets := by
  intro s hbusy ht
  obtain ⟨c, hp⟩ := pending_some_of_busy hbusy
  obtain ⟨hibuf, hparams, hturns⟩ := abandon_kept c s
  rw [csrWrite_cmd, offerCommand_abandons hp]
  refine ⟨_, step_sreset rfl rfl (by rw [State.accept_turns, hturns]; exact ht), ?atReset, rfl, hibuf, hparams,
    congrArg List.tail hturns⟩
  exact resetRegs_atReset ((s.abandon c).accept 0x0000_0001#32).turn

/-! ### The error state is kept until a reset (R119) -/

section
variable {s : State} (hidle : s.pending = none)
include hidle

theorem csrPut_errorKept (w : Word) (r : Csr) : ErrorKept s (s.csrPut w r) := by
  have hbusy := busy_of_pending_none hidle
  cases r with
  | srcAddr | srcLen | dstAddr | arg | origLen | idx =>
    simp only [State.csrPut, whenIdle_idle hbusy]
    exact ⟨rfl, rfl, rfl⟩
  | status => rw [csrPut_status]; exact ⟨rfl, rfl, rfl⟩
  | cmd =>
    show ErrorKept s (offerCommand w s)
    by_cases hw : w = 0x0000_0001#32
    · rw [hw, offerCommand_sreset hidle]; exact ⟨rfl, rfl, rfl⟩
    · cases herr : s.err with
      | true => rw [offerCommand_dropped hidle herr hw]; exact ⟨rfl, rfl, rfl⟩
      | false => rw [offerCommand_accepted hidle herr]; exact ⟨rfl, rfl, rfl⟩
  | _ => exact ⟨rfl, rfl, rfl⟩

/-- No move of the host but RST_N touches the error state of an idle machine. -/
theorem hostMove_errorKept {m : HostMove} (hm : m ≠ .resetPin) {t : State} (h : hostMove m s = .next t) :
    ErrorKept s t := by
  have hbusy := busy_of_pending_none hidle
  cases m with
  | resetPin => exact absurd rfl hm
  | csrRead i =>
    obtain rfl := Host.Outcome.next.inj h
    unfold csrRead
    split
    · exact ⟨rfl, rfl, rfl⟩
    · split <;> exact ⟨rfl, rfl, rfl⟩
  | csrWrite i w =>
    obtain rfl := Host.Outcome.next.inj h
    unfold csrWrite
    split
    · exact ⟨rfl, rfl, rfl⟩
    · exact csrPut_errorKept hidle w _
  | ibufRead a | obufRead a =>
    simp only [hostMove, bufferRead_idle hbusy] at h
    split at h
    · obtain rfl := Host.Outcome.next.inj h
      exact ⟨rfl, rfl, rfl⟩
    · cases h
  | ibufWrite a v | obufWrite a v =>
    simp only [hostMove, bufferWritten_eq] at h
    split at h
    · obtain rfl := Host.Outcome.next.inj h
      exact ⟨rfl, rfl, rfl⟩
    · cases h

end

/-- A turn that is not the block's is a move of the host (R10, log 1). -/
theorem head_host {l : List Turn} (h : ¬ (l = [] ∨ l.head? = some .block)) : ∃ m, l.head? = some (.host m) := by
  cases l with
  | nil => exact absurd (.inl rfl) h
  | cons x rest =>
    cases x with
    | host m => exact ⟨m, rfl⟩
    | block => exact absurd (.inr rfl) h

theorem step_host {s : State} {m : HostMove} (h : s.turns.head? = some (.host m)) : step s = hostMove m s.turn := by
  obtain ⟨rest, hturns⟩ := List.head?_eq_some_iff.1 h
  simp only [step, State.turn, hturns, List.tail_cons]

/-- Settles O53: with ERR = 1 and SRESET not pending the block is idle, so the step is an idle turn or a move of the
host, and RST_N is excluded. -/
theorem errorSticky : Obligations.ErrorSticky := by
  intro s t hblocks herr hsreset hpin hstep
  have hidle : s.pending = none := (hblocks herr).resolve_right hsreset
  have hkept : ErrorKept s.turn t := by
    by_cases hturns : s.turns = [] ∨ s.turns.head? = some .block
    · rw [step_idle hidle hturns] at hstep
      obtain rfl := Host.Outcome.next.inj hstep
      exact ⟨rfl, rfl, rfl⟩
    · obtain ⟨m, hm⟩ := head_host hturns
      rw [step_host hm] at hstep
      exact hostMove_errorKept (s := s.turn) hidle (fun h => hpin (h ▸ hm)) hstep
  exact ⟨hkept.err.trans herr, hkept.errcode, hkept.errInfo⟩

/-! ### The interrupt (R123) -/

/-- Settles O18: IRQ is IE ∧ DONE; completion sets DONE, the STATUS write and the acceptance clear it. -/
theorem interruptLevel : Obligations.InterruptLevel := by
  intro s
  refine ⟨rfl, fun hie => ?ie, fun hie => ?completion, fun w hw => ?status, fun w hidle herr => ?acceptance⟩
  case ie => rw [State.irq, hie, Bool.false_and]
  case completion => rw [State.irq, State.complete_ie, hie, State.complete_done, Bool.and_self]
  case status =>
    rw [csrWrite_mapped (r := .status) rfl, csrPut_status, State.irq, hw, Bool.not_true, Bool.and_false, Bool.and_false]
  case acceptance =>
    rw [csrWrite_cmd, offerCommand_accepted (pending_none_of_not_busy hidle) herr, State.irq, State.accept_done,
      Bool.and_false]

end Sys2Proof.Machine

/-! The machine at its reset values (R137, R138) and the room that ENCODE needs (R145): O10, O11, O45 and O60. -/

namespace Sys2Proof.Machine

open Sys2Proof Config

/-! ### The invariants at reset (R137) -/

/-- The reset values meet the invariants of the datapath. -/
theorem State.AtReset.datapathOk {s : State} (h : s.AtReset) : s.DatapathOk := by
  obtain ⟨-, -, -, -, htreeValid, htableValid⟩ := h.status
  obtain ⟨-, -, hhtotal⟩ := h.results
  obtain ⟨-, hacc, haccN⟩ := h.packer
  obtain ⟨hiptr, hiend, hibit⟩ := h.unpacker
  exact {
    hist := histOk_zero h.hist hhtotal
    packer := packerOk_zero hacc haccN
    unpacker := ⟨by rw [hiptr, hiend], by rw [hiend]; exact Nat.zero_le _, fun _ => hibit⟩
    tree := treeOk_false htreeValid
    table := ⟨fun b _ => by rw [h.ctab b]; rfl, fun hv => by rw [htableValid] at hv; cases hv⟩
    hidden := h.hidden }

/-- The machine starts with every register, HIST, CTAB and the hidden state at the value of R137 (R135). -/
theorem reset_atReset : State.reset.AtReset where
  ctrl := rfl
  status := ⟨rfl, rfl, rfl, rfl, rfl, rfl⟩
  error := ⟨rfl, rfl⟩
  operands := ⟨rfl, rfl, rfl, rfl, rfl⟩
  results := ⟨rfl, rfl, rfl⟩
  tree := ⟨rfl, rfl, rfl⟩
  packer := ⟨rfl, rfl, rfl⟩
  unpacker := ⟨rfl, rfl, rfl⟩
  hist := histAt_zero _ rfl
  ctab := ctabAt_invalid _ rfl
  hidden := ⟨rfl, rfl, rfl⟩

/-- Settles O60: the datapath's invariants hold at every reset state; both buffers are free and no error stands. -/
theorem resetMeetsInvariants : Obligations.ResetMeetsInvariants :=
  ⟨⟨rfl, nofun⟩, rfl, reset_atReset.datapathOk, ⟨Memory.wf_drawn _ _, Memory.wf_drawn _ _⟩, nofun, fun _ => rfl,
    fun _ => rfl⟩

/-! ### What the host reads at reset (R21, R137) -/

/-- An empty code fills CT_CODE with zeros (R42). -/
theorem ctCodeWord_zero {s : State} (h : (s.ctabAt s.idxByte).code = []) (k : Nat) : s.ctCodeWord k = 0 := by
  simp only [State.ctCodeWord, h, List.getD_nil]
  rfl

/-- Every register but the four with other reset values reads 0 (R137). -/
theorem State.AtReset.csrValue_zero {s : State} (h : s.AtReset) {r : Csr} (hr : r ∉ [Csr.id, .root, .ibufSz, .obufSz]) :
    s.csrValue r = 0 := by
  obtain ⟨hpending, hdone, herr, hovr, htreeValid, htableValid⟩ := h.status
  obtain ⟨herrcode, herrInfo⟩ := h.error
  obtain ⟨hsrcAddr, hsrcLen, hdstAddr, harg, hidx⟩ := h.operands
  obtain ⟨hresult, horigLen, hhtotal⟩ := h.results
  obtain ⟨hsymcount, hnodeCount, -⟩ := h.tree
  obtain ⟨hoptr, hacc, haccN⟩ := h.packer
  obtain ⟨hiptr, hiend, hibit⟩ := h.unpacker
  cases r with
  | id | root | ibufSz | obufSz => exact absurd (by decide) hr
  | cmd => rfl
  | errInfo => exact herrInfo
  | srcAddr => exact hsrcAddr
  | srcLen => exact hsrcLen
  | dstAddr => exact hdstAddr
  | arg => exact harg
  | result => exact hresult
  | origLen => exact horigLen
  | htotal => exact hhtotal
  | optr => exact hoptr
  | iptr => exact hiptr
  | iend => exact hiend
  | histRd => exact h.hist _
  | ctrl => simp only [State.csrValue, h.ctrl]; rfl
  | status =>
    simp only [State.csrValue, State.statusWord, State.busy, hpending, hdone, herr, hovr, htreeValid, htableValid, herrcode]
    rfl
  | symcount => simp only [State.csrValue, hsymcount]; rfl
  | nodeCount => simp only [State.csrValue, hnodeCount]; rfl
  | pstate => simp only [State.csrValue, State.pstateWord, hacc, haccN]; rfl
  | ustate => simp only [State.csrValue, hibit]; rfl
  | idx => simp only [State.csrValue, hidx]; rfl
  | nodeRd0 => simp only [State.csrValue, State.nodeRd0, hidx, hnodeCount]; rfl
  | nodeRd1 => simp only [State.csrValue, State.nodeRd1, hidx, hnodeCount]; rfl
  | ctLen => simp only [State.csrValue, State.ctLenWord, h.ctab]; rfl
  | ctCode k => exact ctCodeWord_zero (by rw [h.ctab]; rfl) k

/-- Settles O10: the four registers by evaluation, and every other as at any reset state. -/
theorem resetStateReads : Obligations.ResetStateReads :=
  ⟨reset_atReset, rfl, rfl, rfl, rfl, rfl, fun _ hid hroot hibufSz hobufSz =>
    reset_atReset.csrValue_zero (by simp [hid, hroot, hibufSz, hobufSz])⟩

/-! ### Commands in a reset state (R138) -/

/-- At reset there is no input: IPTR = IEND. -/
theorem State.AtReset.inputBits {s : State} (h : s.AtReset) : s.inputBits = [] := by
  obtain ⟨hiptr, hiend, -⟩ := h.unpacker
  rw [← List.length_eq_zero_iff, inputBits_length, hiptr, hiend, Nat.sub_self, Nat.mul_zero,
    Nat.zero_sub]

/-- The header without entries is legal (R103). -/
theorem legalHeader_empty : LegalHeader [] 0 where
  count := Nat.zero_le _
  distinct := List.nodup_nil
  codeLength := nofun
  padLength := nofun
  zeroLength := nofun
  prefixFree := List.Pairwise.nil
  length := by decide
  empty _ := rfl

/-- Settles O11: no tree and no table are valid, and the input, at IEND = 0, is too short for GETB and for any header. -/
theorem commandsAfterReset : Obligations.CommandsAfterReset := by
  intro s h
  obtain ⟨-, -, -, -, htreeValid, htableValid⟩ := h.status
  obtain ⟨-, hiend, -⟩ := h.unpacker
  obtain ⟨hhist, -, hunpacker, -⟩ := h.datapathOk
  refine ⟨exec_gen_noTree htreeValid, exec_noTable htableValid (by decide), exec_noTable htableValid (by decide),
    exec_noTable htableValid (by decide), fun n hwf => ?getb, ?parse, hhist⟩
  case getb =>
    obtain ⟨hpos, -⟩ := countLegal_iff.1 hwf
    rw [← hiend]
    exact exec_error (i := .getb n) (getb_exhausted hunpacker (by rw [h.inputBits]; exact hpos))
  case parse =>
    rw [← hiend]
    exact exec_error (i := .parse) (parse_truncated hunpacker legalHeader_empty (m := headerStream [] 0)
      (by rw [h.inputBits, List.nil_append]) (by decide))

/-! ### The room ENCODE needs (R145) -/

/-- A sum of at most n terms, each at most k. -/
theorem sum_map_le_mul {α : Type} {l : List α} {f : α → Nat} {n k : Nat} (hl : l.length ≤ n) (hf : ∀ x ∈ l, f x ≤ k) :
    (l.map f).sum ≤ n * k :=
  calc (l.map f).sum ≤ (l.map f).length * k := List.sum_le_card_nsmul _ k (List.forall_mem_map.2 hf)
    _ ≤ n * k := Nat.mul_le_mul_right k (by rw [List.length_map]; exact hl)

/-- The container of a table stage stays within R145's bound. -/
theorem Coded.containerLength_le {s u : State} (hc : Coded s u) :
    containerLength (validCodes u.ctab) (payload u.codeOf s.source).length ≤
      6 + 256 * 34 + (255 * s.srcLen.toNat + 7) / 8 := by
  have hcode : ∀ e ∈ validCodes u.ctab, e.2.length ≤ 255 := fun e he => (hc.length e he).2
  have hentries : ((validCodes u.ctab).map fun e => 2 + (e.2.length + 7) / 8).sum ≤ 256 * 34 :=
    sum_map_le_mul (validCodes_length_le _) fun e he => by have := hcode e he; omega
  have hpayload : (payload u.codeOf s.source).length ≤ s.srcLen.toNat * 255 := by
    rw [payload, List.length_flatMap]
    exact sum_map_le_mul (source_length s).le fun b hb => hcode _ (mem_validCodes_codeOf ((hc.valid b).2 hb))
  unfold containerLength
  omega

/-- Settles O45: the bound leaves room for the container, so ENCODE writes it (`encode_ok`). -/
theorem encodeWithRoomCompletes : Obligations.EncodeWithRoomCompletes := by
  intro s hr hroom
  obtain ⟨u, hu, hc⟩ := tableStage_ok hr
  have hbound := hc.containerLength_le
  obtain ⟨t, hencode, hframe, hoptr, -⟩ := encode_ok hr hu hc (by omega)
  have hcoded := hc.frame_encoded hframe
  exact ⟨t, exec_ok (i := .encode) hencode, by rw [hcoded], by rw [hcoded], by rw [hcoded], by omega⟩

end Sys2Proof.Machine
